-- ==== Sys2Proof/Word.lean ====
section
/-! DEFINITION. The words of `iir_df1_engine`: the 32-bit command word (R48, R50) and the data word (R48, R51). -/

namespace Sys2Proof

/-- A data word, sample or coefficient: a `W`-bit encoding (R31) in a container as wide as the widest format.
For `W = 32` bits 63..32 are zero (`Format.Fits`, an invariant of the machine; DESIGN CHOICE, log 7, safe). -/
abbrev Word := BitVec 64

/-- A command word (R50). -/
abbrev Cmd := BitVec 32

end Sys2Proof
end

