-- ==== Sys2Proof/Config.lean ====
section
/-! DEFINITION. The build parameters of the engine (R6 to R9, R11), the open parameters of the host designer (R65, R68,
R69, R70, D28) and its calls (R59, R60), and the free values: constants with no body. -/

namespace Sys2Proof

/-- `FMT` (R7): the sample and coefficient format of the per-sample path. -/
inductive Format where
  | binary32
  | binary64
  deriving DecidableEq, Repr

/-- `W` (R7, R11): the width of the format in bits. -/
def Format.width : Format → Nat
  | .binary32 => 32
  | .binary64 => 64

/-- The word is a `W`-bit value (R31): the container's bits above `W` are zero. -/
abbrev Format.Fits (f : Format) (w : Word) : Prop := w.toNat < 2 ^ f.width

/-- `FB_GROUPING` (R8): how the feedback sum is rounded. -/
inductive FbGrouping where
  /-- each feedback term is subtracted in turn -/
  | perTerm
  /-- the feedback terms are summed from `+0` and subtracted once -/
  | grouped
  deriving DecidableEq, Repr

/-- The parameters fixed when the block is built (R11). -/
structure Build where
  /-- `N`, the coefficient count (R6) -/
  n : Nat
  /-- `FMT` (R7) -/
  fmt : Format
  /-- `FB_GROUPING` (R8) -/
  fbGrouping : FbGrouping
  /-- `MAC_FUSED` (R9) -/
  macFused : Bool
  deriving DecidableEq, Repr

/-- The legal range of `N` is 1 to 256 (R6). -/
abbrev Build.Legal (b : Build) : Prop := 1 ≤ b.n ∧ b.n ≤ 256

/-- The build `State.reset` takes: `iir_biquad`, `N = 3` (R2; DESIGN CHOICE, log 1), and the defaults of R11. -/
def Build.biquad : Build := ⟨3, .binary32, .perTerm, false⟩

/-- `CENTER_EDGES` (D28 (e), R68, R70): which edges the notch and the band-pass reference frequency use. -/
inductive CenterEdges where
  | warped
  | raw
  deriving DecidableEq, Repr

/-- `BS_POLE_MAP` (D28 (f), R65): the band-stop pole formula. -/
inductive BsPoleMap where
  /-- the source's formula, the default -/
  | source
  /-- the textbook formula -/
  | standard
  deriving DecidableEq, Repr

/-- `FilterType` (R60). -/
inductive Machine.FilterType where
  | lowpass
  | highpass
  | bandpass
  | bandstop
  deriving DecidableEq, Repr

/-- A call of the designer (R59). `edge2` is `+0` where it is not given. -/
structure Machine.DesignCall where
  order : Nat
  type : Machine.FilterType
  sampleTime : Word
  edge1 : Word
  edge2 : Word := 0#64
  deriving DecidableEq, Repr

/-- The open parameters of the designer (D28). -/
structure DesignerParams where
  centerEdges : CenterEdges
  bsPoleMap : BsPoleMap
  /-- `IMAG_TOL` (R69): the binary64 bound on a discarded imaginary part; `none`, the default, is no check -/
  imagTol : Option Word
  deriving DecidableEq, Repr

/-- FREE VALUE behind `NaNDraw` (R10, I5): the sign and payload bits of a draw (log 3). The arguments: the stream of free
values an engine has for its own (log 26), and the number of the draw in it. -/
opaque Config.nanBits : Nat → Nat → Word

/-- FREE VALUE: the bits of the NaN the assembler writes for the literal `nan` (R57, log 19). -/
opaque Config.asmNaNBits : Word

/-- FREE VALUE: the bits of the NaN the host's binary64 arithmetic writes (R62, log 14). -/
opaque Config.hostNaNBits : Word

/-- FREE VALUE: the bits of the NaN that narrowing a NaN coefficient to `FMT` writes (R72, log 25). -/
opaque Config.narrowNaNBits : Word → Word

/-- FREE FUNCTION: the host library's binary64 `tan` (R62, I19, log 14). -/
opaque Config.hostTan : Word → Word

/-- FREE FUNCTION: the host library's binary64 `sin` (R62, I19, log 14). -/
opaque Config.hostSin : Word → Word

/-- FREE FUNCTION: the host library's binary64 `cos` (R62, I19, log 14). -/
opaque Config.hostCos : Word → Word

/-- FREE FUNCTION: the host library's binary64 `sqrt` (R62, I19, log 14). -/
opaque Config.hostSqrt : Word → Word

/-- FREE FUNCTION: the host library's binary64 `atan2 y x` (R62, I19, log 14). -/
opaque Config.hostAtan2 : Word → Word → Word

/-- FREE FUNCTION: the host library's magnitude `|re + im j|` (R62, I19, log 14). -/
opaque Config.hostHypot : Word → Word → Word

/-- FREE VALUE: coefficient `k` of a design whose edges violate the Nyquist constraint (R74, I2, log 16).
The arguments: the open parameters, the call, numerator (true) or denominator, the index. -/
opaque Config.nyquistCoeff : DesignerParams → Machine.DesignCall → Bool → Nat → Word

end Sys2Proof
end

