-- ==== Sys2Proof/Syntax.lean ====
section
/-! DEFINITION. The eight commands (R53), one constructor per row of the opcode table. -/

namespace Sys2Proof

/-- A command with its operands: the index `IDX` (R52) and the data word (R51), where the command uses them. -/
inductive Instr where
  /-- CONSTRUCT (R79): commit the staged set, zero-fill the histories -/
  | construct
  /-- FILTER `s` (R82): one step of the difference equation -/
  | filter (sample : Word)
  /-- RESET (R93): zero-fill the histories -/
  | reset
  /-- FILL `v` (R94): fill the histories with `v` -/
  | fill (value : Word)
  /-- SET_COEFFS (R80): commit the staged set, keep the histories -/
  | setCoeffs
  /-- GET_LAST (R95): the most recent output -/
  | getLast
  /-- STAGE_NUM `k, v` (R77): write one staging numerator entry -/
  | stageNum (idx : Nat) (coeff : Word)
  /-- STAGE_DEN `k, v` (R78): write one staging denominator entry -/
  | stageDen (idx : Nat) (coeff : Word)
  deriving DecidableEq, Repr

end Sys2Proof
end

