-- ==== Sys2Proof/Decode.lean ====
section
/-! DEFINITION. The decoder: total on every command word, rejecting by name in the order of R103. After it the encoder,
written from the match values of R54, and the opcode table with its masks (R54). -/

namespace Sys2Proof

/-- Why decode rejects a command word: checks (1) and (2) of R103, which see only the word. -/
inductive DecodeReject where
  /-- `OP` is 0x0 or in 0x9..0xF (R55) -/
  | illegalOpcode
  /-- `RSV0 != 0`, `RSV1 != 0`, or `IDX != 0` where `OP` is no STAGE command (R55) -/
  | reservedField
  deriving DecidableEq, Repr

/-- `v[hi:lo]` read as an unsigned integer (R12). -/
def field (w : Cmd) (hi lo : Nat) : Nat := w.toNat / 2 ^ lo % 2 ^ (hi + 1 - lo)

/-- `OP` = bits 3..0 (R50). -/
def opField (w : Cmd) : Nat := field w 3 0
/-- `RSV0` = bits 7..4 (R50). -/
def rsv0Field (w : Cmd) : Nat := field w 7 4
/-- `IDX` = bits 15..8 (R50, R52). -/
def idxField (w : Cmd) : Nat := field w 15 8
/-- `RSV1` = bits 31..16 (R50). -/
def rsv1Field (w : Cmd) : Nat := field w 31 16

/-- The opcode map (R53): the instruction of `OP`, with its operands. `none` is a reserved opcode. -/
def opcodeMap (op idx : Nat) (data : Word) : Option Instr :=
  match op with
  | 0x1 => some .construct
  | 0x2 => some (.filter data)
  | 0x3 => some .reset
  | 0x4 => some (.fill data)
  | 0x5 => some .setCoeffs
  | 0x6 => some .getLast
  | 0x7 => some (.stageNum idx data)
  | 0x8 => some (.stageDen idx data)
  | _ => none

/-- `OP` is STAGE_NUM or STAGE_DEN, the two commands that use `IDX` (R50). -/
def opUsesIdx (op : Nat) : Bool := op == 0x7 || op == 0x8

/-- Decode one transaction (R48): the command word and the data word, in the check order of R103. -/
def decode (w : Cmd) (data : Word) : Except DecodeReject Instr :=
  match opcodeMap (opField w) (idxField w) data with
  | none => .error .illegalOpcode
  | some i =>
    if rsv0Field w ≠ 0 ∨ rsv1Field w ≠ 0 then .error .reservedField
    else if opUsesIdx (opField w) = false ∧ idxField w ≠ 0 then .error .reservedField
    else .ok i

/-- The words of an instruction (R54, R57): the command word, and the data word, 0 where the command uses none. -/
def encode : Instr → Cmd × Word
  | .construct => (0x00000001#32, 0#64)
  | .filter v => (0x00000002#32, v)
  | .reset => (0x00000003#32, 0#64)
  | .fill v => (0x00000004#32, v)
  | .setCoeffs => (0x00000005#32, 0#64)
  | .getLast => (0x00000006#32, 0#64)
  | .stageNum k v => (0x00000007#32 + BitVec.ofNat 32 (k * 2 ^ 8), v)
  | .stageDen k v => (0x00000008#32 + BitVec.ofNat 32 (k * 2 ^ 8), v)

/-- One row of the match and mask table (R54). -/
structure OpcodeRow where
  mnemonic : String
  matchBits : Cmd
  mask : Cmd
  deriving DecidableEq, Repr

/-- The match and mask of each command word (R54). -/
def opcodeTable : List OpcodeRow :=
  [⟨"CONSTRUCT", 0x00000001#32, 0xFFFFFFFF#32⟩, ⟨"FILTER", 0x00000002#32, 0xFFFFFFFF#32⟩,
   ⟨"RESET", 0x00000003#32, 0xFFFFFFFF#32⟩, ⟨"FILL", 0x00000004#32, 0xFFFFFFFF#32⟩,
   ⟨"SET_COEFFS", 0x00000005#32, 0xFFFFFFFF#32⟩, ⟨"GET_LAST", 0x00000006#32, 0xFFFFFFFF#32⟩,
   ⟨"STAGE_NUM", 0x00000007#32, 0xFFFF00FF#32⟩, ⟨"STAGE_DEN", 0x00000008#32, 0xFFFF00FF#32⟩]

/-- The command word selects the row (R54). -/
def OpcodeRow.selects (r : OpcodeRow) (w : Cmd) : Bool := w &&& r.mask == r.matchBits

/-- The row of an instruction (R53). -/
def Instr.mnemonic : Instr → String
  | .construct => "CONSTRUCT"
  | .filter _ => "FILTER"
  | .reset => "RESET"
  | .fill _ => "FILL"
  | .setCoeffs => "SET_COEFFS"
  | .getLast => "GET_LAST"
  | .stageNum _ _ => "STAGE_NUM"
  | .stageDen _ _ => "STAGE_DEN"

/-- The two words of a transaction written as one number of `nbits` bits: the command word in bits 31..0 and the data
word above it, bits above `nbits` zero (DESIGN CHOICE, log 12, safe). -/
def transactionWords (nbits w : Nat) : Cmd × Word :=
  (BitVec.ofNat 32 (w % 2 ^ nbits), BitVec.ofNat 64 (w % 2 ^ nbits / 2 ^ 32))

/-- The instruction the decoder reads from an opcode-table word. -/
def decodeTableWord (nbits w : Nat) : Option Instr :=
  match decode (transactionWords nbits w).1 (transactionWords nbits w).2 with
  | .ok i => some i
  | .error _ => none

end Sys2Proof
end

