-- ==== Sys2Proof/Machine/State.lean ====
section
/-! DEFINITION. The state of one engine (R19), the response (R48, R101), what the host may do (R42, R113), the reasons a
step can stop, and the machine right after reset (R35, R113, R114). -/

namespace Sys2Proof.Machine

/-- The status of a response (R101). Codes 6 and 7 are reserved and no status of the engine. -/
inductive Status where
  /-- 0: command performed -/
  | ok
  /-- 1: `OP` is 0x0 or in 0x9..0xF -/
  | illegalOpcode
  /-- 2: a reserved field of the command word is not zero -/
  | reservedField
  /-- 3: `IDX >= N` -/
  | indexRange
  /-- 4: FILTER while `configured` is false -/
  | notConfigured
  /-- 5: a commit while some staging entry is `none` -/
  | stageIncomplete
  deriving DecidableEq, Repr

/-- A command's result (R16, R48). -/
structure Response where
  status : Status
  value : Option Word
  deriving DecidableEq, Repr

/-- What the host can do to the engine. -/
inductive Input where
  /-- present a command word and a data word (R48) -/
  | command (word : Cmd) (data : Word)
  /-- assert hardware reset, possibly while a command is in flight (R113) -/
  | hardwareReset (inFlight : Option (Cmd × Word))
  deriving DecidableEq, Repr

/-- The state of one engine. `num` to `configured` is the spec's whole architectural state (R19); `rsp` and `inputs` are
the interface; `build`, `source` and `draws` are the model's own
(log 1, log 3, log 26). -/
@[ext]
structure State where
  /-- `N`, `FMT`, `FB_GROUPING`, `MAC_FUSED` (R11): written by no step -/
  build : Build
  /-- live numerator coefficients (R25) -/
  num : List Word
  /-- live denominator coefficients (R26) -/
  den : List Word
  /-- input history, newest first (R27) -/
  xh : List Word
  /-- output history, newest first (R28) -/
  yh : List Word
  /-- staging numerator entries (R29) -/
  stgNum : List (Option Word)
  /-- staging denominator entries (R29) -/
  stgDen : List (Option Word)
  /-- a commit has succeeded since hardware reset (R30) -/
  configured : Bool
  /-- the response last given (R48), none before the first (log 6) -/
  rsp : Option Response
  /-- what the host does next, oldest first (R42, log 5) -/
  inputs : List Input
  /-- which stream of free values is this engine's own (log 26): no identifier of the spec's (R110), and written by no step -/
  source : Nat
  /-- how many `NaNDraw` values of that stream have been used (R10, log 3) -/
  draws : Nat
  deriving DecidableEq, Repr

/-- Why a machine stops with a fault. No step of the engine raises one: it has no trap mechanism (R105). -/
inductive Fault where
  /-- A host read a response whose 3-bit status is 6 or 7, codes that are never returned (R101, I16). Raised by
  `WireResponse.read`, and through it by the cascade sequences. Safe: no engine of this spec gives such a response. -/
  | reservedStatus (code : BitVec 3)
  deriving DecidableEq, Repr

/-- Why the model gives no meaning. -/
inductive Refusal where
  /-- An instruction with no meaning yet, by its mnemonic. Raised by an arm of `exec` only; no arm raises it. Safe. -/
  | notModelled (mnemonic : String)
  /-- `N` is outside 1..256 (R6): no such block can be built (D33: refused). Raised by `step` only. Safe (log 9). -/
  | unsupportedBuild
  deriving DecidableEq, Repr

/-- `+0` (R15): the encoding with all bits zero, in either format. -/
def posZero : Word := 0#64

/-- An engine of build `b` right after power-on (R35, R113), `source` its own stream of free values (log 26). `num` and `den` are absent in the spec; the model holds `+0`
there, which no command can read before a commit (DESIGN CHOICE, log 2, unsafe). -/
def State.powerOn (b : Build) (source : Nat) : State where
  build := b
  num := List.replicate b.n posZero
  den := List.replicate b.n posZero
  xh := List.replicate b.n posZero
  yh := List.replicate b.n posZero
  stgNum := List.replicate b.n none
  stgDen := List.replicate b.n none
  configured := false
  rsp := none
  inputs := []
  source := source
  draws := 0

/-- The machine right after reset, for the build `Build.biquad` (log 1). -/
def State.reset : State := State.powerOn Build.biquad 0

end Sys2Proof.Machine
end

