-- ==== Sys2Proof/Machine/Ieee.lean ====
section
/-! DEFINITION. IEEE 754 arithmetic on encodings of binary32 and binary64 (R15, R31): rounding to nearest, ties to even,
subnormals kept, no flags. Every operation computes the exact rational result and rounds once. The rules of special
values (infinities, zeros, NaN) are IEEE 754's, which the spec takes from general knowledge (PRESUMED, log 10). -/

namespace Sys2Proof

/-- Fraction bits: `[22:0]` of binary32, `[51:0]` of binary64 (R31). -/
def Format.fracBits : Format → Nat
  | .binary32 => 23
  | .binary64 => 52

/-- Exponent bits: `[30:23]` of binary32, `[62:52]` of binary64 (R31). -/
def Format.expBits : Format → Nat
  | .binary32 => 8
  | .binary64 => 11

/-- The weight of a subnormal's lowest bit is `2 ^ lsbExp`. -/
def Format.lsbExp : Format → Int
  | .binary32 => -149
  | .binary64 => -1074

/-- Bit `W-1`, the sign (R31), as a number. -/
def Format.signMag (f : Format) : Nat := 2 ^ (f.width - 1)

/-- The magnitude bits of an infinity: exponent all ones, fraction zero. -/
def Format.infMag (f : Format) : Nat := (2 ^ f.expBits - 1) * 2 ^ f.fracBits

/-- The word of a sign and magnitude bits. -/
def Format.pack (f : Format) (neg : Bool) (mag : Nat) : Word :=
  BitVec.ofNat 64 ((if neg then f.signMag else 0) + mag)

/-- What an encoding stands for: NaN, an infinity, or `(-1)^neg * m * 2^e`. -/
inductive FVal where
  | nan
  | inf (neg : Bool)
  | fin (neg : Bool) (m : Nat) (e : Int)
  deriving DecidableEq, Repr

/-- The bits of `w` that belong to the format. -/
def Format.bitsOf (f : Format) (w : Word) : Nat := w.toNat % 2 ^ f.width

/-- The sign bit of `w`. -/
def Format.signOf (f : Format) (w : Word) : Bool := decide (f.signMag ≤ f.bitsOf w)

/-- The bits of `w` below the sign. -/
def Format.magOf (f : Format) (w : Word) : Nat := f.bitsOf w % f.signMag

/-- Read magnitude bits below those of an infinity: biased exponent 0 is a subnormal or a zero. -/
def Format.unpackFinite (f : Format) (neg : Bool) (mag : Nat) : FVal :=
  if mag / 2 ^ f.fracBits = 0 then .fin neg mag f.lsbExp
  else .fin neg (2 ^ f.fracBits + mag % 2 ^ f.fracBits) (f.lsbExp + ((mag / 2 ^ f.fracBits : Nat) : Int) - 1)

/-- Read an encoding (R31). -/
def Format.unpack (f : Format) (w : Word) : FVal :=
  if f.infMag < f.magOf w then .nan
  else if f.magOf w = f.infMag then .inf (f.signOf w)
  else f.unpackFinite (f.signOf w) (f.magOf w)

/-- `isNaN(v)` (R15). -/
def Format.isNaN (f : Format) (w : Word) : Bool := decide (f.infMag < f.magOf w)

/-- NaN or infinite. -/
def Format.isNonFinite (f : Format) (w : Word) : Bool := decide (f.infMag ≤ f.magOf w)

/-- A zero of either sign. -/
def Format.isZero (f : Format) (w : Word) : Bool := decide (f.magOf w = 0)

/-- The quiet-NaN encoding whose sign and payload are those bits of `bits`: exponent all ones, highest fraction bit one
(R11; PRESUMED: which NaN encodings are quiet, log 3). -/
def Format.quietNaN (f : Format) (bits : Word) : Word :=
  f.pack (f.signOf bits) (f.infMag + 2 ^ (f.fracBits - 1) + f.bitsOf bits % 2 ^ (f.fracBits - 1))

/-- A quiet-NaN encoding (R11). -/
def Format.isQuietNaN (f : Format) (w : Word) : Bool :=
  f.isNaN w && decide (2 ^ (f.fracBits - 1) ≤ f.magOf w % 2 ^ f.fracBits)

/-- `n / d` rounded to the nearest natural number, ties to even. -/
def rneDiv (n d : Nat) : Nat :=
  if d < 2 * (n % d) ∨ (2 * (n % d) = d ∧ n / d % 2 = 1) then n / d + 1 else n / d

/-- `(n / d) * 2 ^ (-k)` rounded to the nearest natural number, ties to even. -/
def rneScaled (n d : Nat) : Int → Nat
  | .ofNat k => rneDiv n (d * 2 ^ k)
  | .negSucc k => rneDiv (n * 2 ^ (k + 1)) d

/-- The exponent of the highest bit of `n / d` (`n`, `d` not zero): the `t` with `2 ^ t ≤ n / d < 2 ^ (t + 1)`. -/
def ratLog2 (n d : Nat) : Int :=
  let t : Int := (Nat.log2 n : Int) - (Nat.log2 d : Int)
  match t with
  | .ofNat k => if d * 2 ^ k ≤ n then t else t - 1
  | .negSucc k => if d ≤ n * 2 ^ (k + 1) then t else t - 1

/-- The exponent of the lowest bit that a result of magnitude `(n / d) * 2 ^ e` keeps. -/
def Format.quantum (f : Format) (n d : Nat) (e : Int) : Int :=
  max f.lsbExp (e + ratLog2 n d - (f.fracBits : Int))

/-- Round the magnitude `(n / d) * 2 ^ e` to the format, ties to even: the magnitude bits, infinity on overflow. The
biased exponent and the fraction are added, so that a carry out of the fraction steps the exponent. -/
def Format.roundMag (f : Format) (n d : Nat) (e : Int) : Nat :=
  if n = 0 then 0
  else min f.infMag
    ((f.quantum n d e - f.lsbExp).toNat * 2 ^ f.fracBits + rneScaled n d (f.quantum n d e - e))

/-- The encoding nearest to `(-1)^neg * (n / d) * 2 ^ e`. -/
def Format.roundQuot (f : Format) (neg : Bool) (n d : Nat) (e : Int) : Word :=
  f.pack neg (f.roundMag n d e)

/-- The signed integer `(-1)^neg * m * 2 ^ (e - base)`, for `base ≤ e`. -/
def alignTo (base : Int) (neg : Bool) (m : Nat) (e : Int) : Int :=
  if neg then -((m * 2 ^ (e - base).toNat : Nat) : Int) else ((m * 2 ^ (e - base).toNat : Nat) : Int)

/-- The exact sum of two finite values, rounded once. A zero sum is `-0` only when both signs are negative. -/
def Format.addFinite (f : Format) (n1 : Bool) (m1 : Nat) (e1 : Int) (n2 : Bool) (m2 : Nat) (e2 : Int) : Word :=
  let s := alignTo (min e1 e2) n1 m1 e1 + alignTo (min e1 e2) n2 m2 e2
  if s = 0 then f.pack (n1 && n2) 0 else f.roundQuot (decide (s < 0)) s.natAbs 1 (min e1 e2)

/-- The sum of two values; `draw` is the encoding of a NaN result (R10). -/
def Format.addVal (f : Format) (draw : Word) : FVal → FVal → Word
  | .nan, _ => draw
  | _, .nan => draw
  | .inf a, .inf b => if a = b then f.pack a f.infMag else draw
  | .inf a, .fin _ _ _ => f.pack a f.infMag
  | .fin _ _ _, .inf b => f.pack b f.infMag
  | .fin a m e, .fin b m' e' => f.addFinite a m e b m' e'

/-- The exact product of two values. -/
def mulVal : FVal → FVal → FVal
  | .nan, _ => .nan
  | _, .nan => .nan
  | .inf a, .inf b => .inf (a != b)
  | .inf a, .fin b m _ => if m = 0 then .nan else .inf (a != b)
  | .fin a m _, .inf b => if m = 0 then .nan else .inf (a != b)
  | .fin a m e, .fin b m' e' => .fin (a != b) (m * m') (e + e')

/-- The quotient of two values, rounded once. A finite non-zero value over a zero is an infinity (R87). -/
def Format.divVal (f : Format) (draw : Word) : FVal → FVal → Word
  | .nan, _ => draw
  | _, .nan => draw
  | .inf _, .inf _ => draw
  | .inf a, .fin b _ _ => f.pack (a != b) f.infMag
  | .fin a _ _, .inf b => f.pack (a != b) 0
  | .fin a m e, .fin b m' e' =>
    if m' = 0 then (if m = 0 then draw else f.pack (a != b) f.infMag)
    else f.roundQuot (a != b) m m' (e - e')

/-- Encode an exact value, rounded once. -/
def Format.roundVal (f : Format) (draw : Word) : FVal → Word
  | .nan => draw
  | .inf a => f.pack a f.infMag
  | .fin a m e => f.roundQuot a m 1 e

/-- `fneg(a)` (R15): bit `W-1` inverted, for NaN too. -/
def Format.fneg (f : Format) (a : Word) : Word := f.pack (!f.signOf a) (f.magOf a)

/-- `fadd(a, b)` (R15). -/
def Format.fadd (f : Format) (draw a b : Word) : Word := f.addVal draw (f.unpack a) (f.unpack b)

/-- The value with the opposite sign. -/
def FVal.negate : FVal → FVal
  | .nan => .nan
  | .inf a => .inf (!a)
  | .fin a m e => .fin (!a) m e

/-- `fsub(a, b)` (R15). -/
def Format.fsub (f : Format) (draw a b : Word) : Word := f.addVal draw (f.unpack a) (f.unpack b).negate

/-- `fmul(a, b)` (R15). -/
def Format.fmul (f : Format) (draw a b : Word) : Word := f.roundVal draw (mulVal (f.unpack a) (f.unpack b))

/-- `fdiv(a, b)` (R15). -/
def Format.fdiv (f : Format) (draw a b : Word) : Word := f.divVal draw (f.unpack a) (f.unpack b)

/-- `fma(a, b, c)` (R15): `a*b + c`, rounded once. -/
def Format.fma (f : Format) (draw a b c : Word) : Word :=
  f.addVal draw (mulVal (f.unpack a) (f.unpack b)) (f.unpack c)

/-- The order of two values that are no NaN, `none` where one is. -/
def FVal.lt : FVal → FVal → Option Bool
  | .nan, _ => none
  | _, .nan => none
  | .inf a, .inf b => some (a && !b)
  | .inf a, .fin _ _ _ => some a
  | .fin _ _ _, .inf b => some (!b)
  | .fin a m e, .fin b m' e' => some (decide (alignTo (min e e') a m e < alignTo (min e e') b m' e'))

/-- `a < b` in IEEE order: false where one is NaN. -/
def Format.flt (f : Format) (a b : Word) : Bool := ((f.unpack a).lt (f.unpack b)).getD false

/-- `a <= b` in IEEE order: false where one is NaN. -/
def Format.fle (f : Format) (a b : Word) : Bool := (((f.unpack b).lt (f.unpack a)).map (!·)).getD false

/-- The encoding of a natural number. -/
def Format.encodeNat (f : Format) (n : Nat) : Word := f.roundQuot false n 1 0

/-- IEEE conversion of an encoding of `f` to the format `g`, rounded once (R72). -/
def Format.convert (f g : Format) (draw w : Word) : Word :=
  if f = g then w else g.roundVal draw (f.unpack w)

/-- The rational number a finite encoding stands for. -/
def FVal.toRat : FVal → Option Rat
  | .nan => none
  | .inf _ => none
  | .fin a m e => some ((if a then -1 else 1) * (m : Rat) * (2 : Rat) ^ e)

/-- The rational number `w` stands for, none for NaN and the infinities. -/
def Format.toRat (f : Format) (w : Word) : Option Rat := (f.unpack w).toRat

end Sys2Proof
end

