-- ==== Sys2Proof/Machine/Arith.lean ====
section
/-! DEFINITION. The arithmetic of FILTER as a configuration record of total functions (R15), its IEEE instance, exact
arithmetic over a field (R83), and the output of one FILTER step over any of them (R82, R84). -/

namespace Sys2Proof.Machine

/-- The primitives of R15 over values `V`. -/
structure Arith (V : Type) where
  zero : V
  add : V → V → V
  sub : V → V → V
  mul : V → V → V
  div : V → V → V
  /-- `fma c v a = c*v + a`, rounded once -/
  fma : V → V → V → V
  neg : V → V

/-- IEEE arithmetic in format `f`; a NaN result is the encoding `draw` (R10, R15; one draw serves a step, log 11). -/
def Arith.ieee (f : Format) (draw : Word) : Arith Word where
  zero := posZero
  add := f.fadd draw
  sub := f.fsub draw
  mul := f.fmul draw
  div := f.fdiv draw
  fma := f.fma draw
  neg := f.fneg

/-- Exact arithmetic over a field (R83). -/
def Arith.exact (K : Type) [Field K] : Arith K where
  zero := 0
  add := (· + ·)
  sub := (· - ·)
  mul := (· * ·)
  div := (· / ·)
  fma := fun c v a => c * v + a
  neg := (- ·)

/-- `mac_add(a, c, v)` (R82). -/
def macAdd {V : Type} (A : Arith V) (fused : Bool) (a c v : V) : V :=
  if fused then A.fma c v a else A.add a (A.mul c v)

/-- `mac_sub(a, c, v)` (R82). -/
def macSub {V : Type} (A : Arith V) (fused : Bool) (a c v : V) : V :=
  if fused then A.fma (A.neg c) v a else A.sub a (A.mul c v)

/-- Accumulate `c[k] * v[k]` in ascending `k` from `acc` (R84 (c)). -/
def macSum {V : Type} (A : Arith V) (fused : Bool) (acc : V) (cs vs : List V) : V :=
  (cs.zip vs).foldl (fun a cv => macAdd A fused a cv.1 cv.2) acc

/-- Subtract `c[k] * v[k]` one at a time in ascending `k` from `acc` (R84 (c), PER_TERM). -/
def macDiff {V : Type} (A : Arith V) (fused : Bool) (acc : V) (cs vs : List V) : V :=
  (cs.zip vs).foldl (fun a cv => macSub A fused a cv.1 cv.2) acc

/-- Step 3 of R82: subtract the feedback of `den[1..N-1]` and `yh[0..N-2]` from the feed-forward sum. -/
def subtractFeedback {V : Type} (A : Arith V) (fused : Bool) (g : FbGrouping) (acc : V) (den yh : List V) : V :=
  match g with
  | .perTerm => macDiff A fused acc den.tail yh
  | .grouped => A.sub acc (macSum A fused A.zero den.tail yh)

/-- The accumulator before the division: steps 2 and 3 of R82, on the shifted input history `xs` and the output history
as it was before this FILTER (R84 (b)). -/
def filterAcc {V : Type} (A : Arith V) (fused : Bool) (g : FbGrouping) (num den xs yh : List V) : V :=
  subtractFeedback A fused g (macSum A fused A.zero num xs) den yh

/-- The output `y` of one FILTER: steps 2 to 4 of R82, the division by `den[0]` last (R84 (d), C1). -/
def filterOutput {V : Type} (A : Arith V) (fused : Bool) (g : FbGrouping) (num den xs yh : List V) : V :=
  A.div (filterAcc A fused g num den xs yh) (den.headD A.zero)

/-- `[v] ++ s[0..N-2]` (R13): shift right by one, discard the oldest, insert at index 0. -/
def shiftIn {V : Type} (v : V) (s : List V) : List V := v :: s.take (s.length - 1)

end Sys2Proof.Machine
end

