-- ==== Sys2Proof/Machine/Operands.lean ====
section
/-! DEFINITION. The operand forms: the data word as it is (R51), the index of a staging entry (R52), and the staging bank
read as a whole (R29, R38). -/

namespace Sys2Proof.Machine

/-- A data word of the host as the `W`-bit data path carries it (R36, R51): the container's bits above `W` do not exist
(log 7). -/
def portWord (f : Format) (d : Word) : Word := BitVec.ofNat 64 (f.bitsOf d)

/-- `IDX < N`, compared as unsigned integers (R52). -/
def indexInRange (s : State) (k : Nat) : Bool := decide (k < s.build.n)

/-- The value of every staging entry of a bank, none where one has not been written (R29). -/
def stagedValues : List (Option Word) → Option (List Word)
  | [] => some []
  | none :: _ => none
  | some v :: rest => (stagedValues rest).map (v :: ·)

end Sys2Proof.Machine
end

