-- ==== Sys2Proof/Machine/Flags.lean ====
section
/-! DEFINITION. The engine has no flags and no condition codes (R23): what a command reports is the status code of its
response (R101). Here are the codes, the states they report, and the response as a host reads it. -/

namespace Sys2Proof.Machine

/-- The 3-bit code of a status (R101). -/
def Status.code : Status → BitVec 3
  | .ok => 0
  | .illegalOpcode => 1
  | .reservedField => 2
  | .indexRange => 3
  | .notConfigured => 4
  | .stageIncomplete => 5

/-- The status of a code; 6 and 7 are reserved (R101). -/
def Status.ofCode (c : BitVec 3) : Option Status :=
  match c.toNat with
  | 0 => some .ok
  | 1 => some .illegalOpcode
  | 2 => some .reservedField
  | 3 => some .indexRange
  | 4 => some .notConfigured
  | 5 => some .stageIncomplete
  | _ => none

/-- The status of a decode rejection (R101, R103). -/
def rejectStatus : DecodeReject → Status
  | .illegalOpcode => .illegalOpcode
  | .reservedField => .reservedField

/-- A response as it crosses the interface (R48): a 3-bit code, and a word or none. -/
structure WireResponse where
  status : BitVec 3
  value : Option Word
  deriving DecidableEq, Repr

/-- The response on the interface (R48). -/
def Response.wire (r : Response) : WireResponse := ⟨r.status.code, r.value⟩

/-- A host reads a response: a reserved status code is a fault (R101, I16, log 21). -/
def WireResponse.read (w : WireResponse) : Host.Outcome Response Fault Refusal :=
  match Status.ofCode w.status with
  | some st => .next ⟨st, w.value⟩
  | none => .fault (.reservedStatus w.status)

end Sys2Proof.Machine
end

