-- ==== Sys2Proof/Machine/Ops.lean ====
section
/-! DEFINITION. The named operations over the state: the writers of its fields, giving a response, rejecting (what this
hardware has in place of taking an exception: R102, R105, R106), committing the staging bank, and hardware reset. -/

namespace Sys2Proof.Machine

/-- `xh <- xs` and `yh <- ys`, together (R14). -/
def State.withHistories (s : State) (xs ys : List Word) : State := { s with xh := xs, yh := ys }

/-- `num <- b` and `den <- a` as a whole (R25, R26, R39). -/
def State.withCoeffs (s : State) (b a : List Word) : State := { s with num := b, den := a }

/-- `configured <- true` (R30). -/
def State.setConfigured (s : State) : State := { s with configured := true }

/-- `stg_num[k] <- some(v)` (R77). -/
def State.stageNumAt (s : State) (k : Nat) (v : Word) : State := { s with stgNum := s.stgNum.set k (some v) }

/-- `stg_den[k] <- some(v)` (R78). -/
def State.stageDenAt (s : State) (k : Nat) (v : Word) : State := { s with stgDen := s.stgDen.set k (some v) }

/-- The host's next inputs. -/
def State.withInputs (s : State) (is : List Input) : State := { s with inputs := is }

/-- One more `NaNDraw` used (R10, log 3). -/
def State.nextDraw (s : State) : State := { s with draws := s.draws + 1 }

/-- The response channel holds this (R48). -/
def State.withRsp (s : State) (r : Option Response) : State := { s with rsp := r }

/-- `respond(status, value)` (R16). -/
def respond (st : Status) (v : Option Word) (s : State) : State := s.withRsp (some ⟨st, v⟩)

/-- `reject(code)` (R16, R102): the response, and no state written. The one operation every rejection goes through. -/
def reject (st : Status) (s : State) : State := respond st none s

/-- `NaNDraw` of the next FILTER (R10): any quiet-NaN encoding of the format (R11), a free value (log 3). It is a draw of
this engine's own stream: that two engines with streams of their own draw independently is R10's and R47's, that the stream
is named by a number in State is the model's choice (DESIGN CHOICE, log 26). -/
def nanDraw (s : State) : Word := s.build.fmt.quietNaN (Config.nanBits s.source s.draws)

/-- The arithmetic of the next FILTER (R15). -/
def arithOf (s : State) : Arith Word := Arith.ieee s.build.fmt (nanDraw s)

/-- Every entry of both histories becomes `v`, its bits unchanged (R93, R94). -/
def fillHistories (v : Word) (s : State) : State :=
  s.withHistories (List.replicate s.build.n v) (List.replicate s.build.n v)

/-- Commit the staging bank: `num`, `den` and `configured` (R79, R80), all at once (R39, R81). `none` where some staging
entry has not been written since hardware reset. The staging bank itself is unchanged. -/
def commit (s : State) : Option State :=
  match stagedValues s.stgNum, stagedValues s.stgDen with
  | some b, some a => some (s.withCoeffs b a).setConfigured
  | _, _ => none

/-- Hardware reset (R113): the state of R35. A command in flight is abandoned: no response, no effect. The build stays, the
host's further inputs stay, and free values already used are not used again (log 4, log 8). -/
def hardwareReset (s : State) : State :=
  { State.powerOn s.build s.source with inputs := s.inputs, draws := s.draws }

end Sys2Proof.Machine
end

