-- ==== Sys2Proof/Machine/CoefficientLoad.lean ====
section
/-! DEFINITION. The meanings of STAGE_NUM, STAGE_DEN, CONSTRUCT and SET_COEFFS (41_coefficient_load.md). -/

namespace Sys2Proof.Machine

/-- STAGE_NUM `k, v` (R77). -/
def execStageNum (k : Nat) (v : Word) (s : State) : Host.Outcome State Fault Refusal :=
  if indexInRange s k then .next (respond .ok none (s.stageNumAt k v)) else .next (reject .indexRange s)

/-- STAGE_DEN `k, v` (R78). -/
def execStageDen (k : Nat) (v : Word) (s : State) : Host.Outcome State Fault Refusal :=
  if indexInRange s k then .next (respond .ok none (s.stageDenAt k v)) else .next (reject .indexRange s)

/-- CONSTRUCT (R79): commit, and zero-fill both histories. -/
def execConstruct (s : State) : Host.Outcome State Fault Refusal :=
  match commit s with
  | some t => .next (respond .ok none (fillHistories posZero t))
  | none => .next (reject .stageIncomplete s)

/-- SET_COEFFS (R80): commit, the histories untouched. -/
def execSetCoeffs (s : State) : Host.Outcome State Fault Refusal :=
  match commit s with
  | some t => .next (respond .ok none t)
  | none => .next (reject .stageIncomplete s)

end Sys2Proof.Machine
end

