-- ==== Sys2Proof/Machine/FilterStep.lean ====
section
/-! DEFINITION. The meaning of FILTER (42_filter_step.md). -/

namespace Sys2Proof.Machine

/-- The value FILTER `v` returns (R82): the sample enters the input history before the sum (R84 (a)), and the feedback
reads the output history as it was (R84 (b)). -/
def filterResult (v : Word) (s : State) : Word :=
  filterOutput (arithOf s) s.build.macFused s.build.fbGrouping s.num s.den (shiftIn v s.xh) s.yh

/-- FILTER `v` (R82). No arithmetic outcome is a rejection (R104). -/
def execFilter (v : Word) (s : State) : Host.Outcome State Fault Refusal :=
  if s.configured then
    .next (respond .ok (some (filterResult v s))
      (s.withHistories (shiftIn v s.xh) (shiftIn (filterResult v s) s.yh)).nextDraw)
  else .next (reject .notConfigured s)

end Sys2Proof.Machine
end

