-- ==== Sys2Proof/Machine/History.lean ====
section
/-! DEFINITION. The meanings of RESET, FILL and GET_LAST (43_history_ops.md). None needs `configured` (D27). -/

namespace Sys2Proof.Machine

/-- RESET (R93): both histories `+0`, and `+0` returned. -/
def execReset (s : State) : Host.Outcome State Fault Refusal :=
  .next (respond .ok (some posZero) (fillHistories posZero s))

/-- FILL `v` (R94): both histories `v`, and `v` returned, its bits unchanged. -/
def execFill (v : Word) (s : State) : Host.Outcome State Fault Refusal :=
  .next (respond .ok (some v) (fillHistories v s))

/-- `yh[0]`, the most recent output (R95). -/
def lastOutput (s : State) : Word := s.yh.headD posZero

/-- GET_LAST (R95): `yh[0]`, nothing written. -/
def execGetLast (s : State) : Host.Outcome State Fault Refusal :=
  .next (respond .ok (some (lastOutput s)) s)

end Sys2Proof.Machine
end

