-- ==== Sys2Proof/Machine/Dispatch.lean ====
section
/-! DEFINITION. One arm per command (R53): its meaning. -/

namespace Sys2Proof.Machine

def exec (i : Instr) (s : State) : Host.Outcome State Fault Refusal :=
  match i with
  | .construct => Sys2Proof.Machine.execConstruct s
  | .filter v => Sys2Proof.Machine.execFilter v s
  | .reset => Sys2Proof.Machine.execReset s
  | .fill v => Sys2Proof.Machine.execFill v s
  | .setCoeffs => Sys2Proof.Machine.execSetCoeffs s
  | .getLast => Sys2Proof.Machine.execGetLast s
  | .stageNum k v => Sys2Proof.Machine.execStageNum k v s
  | .stageDen k v => Sys2Proof.Machine.execStageDen k v s

end Sys2Proof.Machine
end

