-- ==== Sys2Proof/Machine/Port.lean ====
section
/-! DEFINITION. The command port (R22, R42, R48): what the engine takes from the host next. It is this hardware's fetch:
there is no program counter and no instruction memory. -/

namespace Sys2Proof.Machine

/-- What the port delivers, with the state after it is taken. -/
inductive Taken where
  /-- nothing presented: the engine is idle and holds all state (R112) -/
  | idle
  /-- a command word and a data word (R48) -/
  | command (word : Cmd) (data : Word) (s : State)
  /-- hardware reset (R113) -/
  | hardwareReset (s : State)
  deriving DecidableEq, Repr

/-- Take the host's next input. The data word passes the `W`-bit data path (R36). -/
def takeInput (s : State) : Taken :=
  match s.inputs with
  | [] => .idle
  | .command w d :: rest => .command w (portWord s.build.fmt d) (s.withInputs rest)
  | .hardwareReset _ :: rest => .hardwareReset (s.withInputs rest)

/-- The host presents a command next, before anything it already plans. -/
def offer (w : Cmd) (d : Word) (s : State) : State := s.withInputs (.command w d :: s.inputs)

end Sys2Proof.Machine
end

