-- ==== Sys2Proof/Machine/Step.lean ====
section
/-! DEFINITION. One step (R42): take the host's next input and answer it. -/

namespace Sys2Proof.Machine

/-- Answer one command (R103): decode, then the command's rule, or a rejection in its own response. -/
def answer (w : Cmd) (d : Word) (s : State) : Host.Outcome State Fault Refusal :=
  match decode w d with
  | .ok i => exec i s
  | .error r => .next (reject (rejectStatus r) s)

/-- One step of the machine. A build no block can have is refused (R6, D33, log 9). -/
def step (s : State) : Host.Outcome State Fault Refusal :=
  if s.build.Legal then
    match takeInput s with
    | .idle => .next s
    | .command w d t => answer w d t
    | .hardwareReset t => .next (hardwareReset t)
  else .refused .unsupportedBuild

/-- The state whose very next step runs the opcode-table word `w`: the host presents it next (log 5, log 12). -/
def State.withFetchWord (s : State) (nbits w : Nat) : State :=
  offer (transactionWords nbits w).1 (transactionWords nbits w).2 s

end Sys2Proof.Machine
end

