-- ==== Sys2Proof/Machine/Pseudo.lean ====
section
/-! DEFINITION. The pseudo-commands and their expansions (R58), and a run of a list of instructions. -/

namespace Sys2Proof.Machine

/-- STAGE commands for the values of a sequence, from index `k` up. -/
def stageFrom (stage : Nat → Word → Instr) : Nat → List Word → List Instr
  | _, [] => []
  | k, v :: vs => stage k v :: stageFrom stage (k + 1) vs

/-- The `2N` staging commands of a coefficient set (R58). -/
def stageSet (b a : List Word) : List Instr := stageFrom .stageNum 0 b ++ stageFrom .stageDen 0 a

/-- `LOADCOEF b, a` (R58): the source's `construct(coefficients)`. -/
def loadCoef (b a : List Word) : List Instr := stageSet b a ++ [.construct]

/-- `SWAPCOEF b, a` (R58): the source's `setCoefficients(coefficients)`. -/
def swapCoef (b a : List Word) : List Instr := stageSet b a ++ [.setCoeffs]

/-- `INITFILL b, a, v` (R58, C4). -/
def initFill (b a : List Word) (v : Word) : List Instr := loadCoef b a ++ [.fill v]

/-- Instructions one after another (R42), stopping at the first that gives no next state. -/
def runInstrs : List Instr → State → Host.Outcome State Fault Refusal
  | [], s => .next s
  | i :: is, s =>
    match exec i s with
    | .next t => runInstrs is t
    | .fault x => .fault x
    | .refused x => .refused x

end Sys2Proof.Machine
end

