-- ==== Sys2Proof/Machine/Assembler.lean ====
section
/-! DEFINITION. The assembler (R57, R58): host software that turns the textual syntax into command and data words. The
spelling of decimal literals and the encoding of `nan` are not given (log 19). -/

namespace Sys2Proof.Machine

/-- The pieces of a line. -/
inductive Token where
  | word (cs : List Char)
  | comma
  | openSet
  | closeSet
  deriving DecidableEq, Repr

/-- A finished word, if there is one; `cur` is reversed. -/
def flushWord (cur : List Char) (rest : List Token) : List Token :=
  if cur = [] then rest else .word cur.reverse :: rest

/-- White space between words. -/
def isBlank (c : Char) : Bool := c == ' ' || c == '\t' || c == '\r'

/-- Cut a line into tokens; `;` to end of line is a comment (R57). The set brackets are characters 123 and 125. -/
def tokenize (cur : List Char) : List Char → List Token
  | [] => flushWord cur []
  | c :: cs =>
    if c == ';' then flushWord cur []
    else if isBlank c then flushWord cur (tokenize [] cs)
    else if c == ',' then flushWord cur (.comma :: tokenize [] cs)
    else if c.toNat == 123 then flushWord cur (.openSet :: tokenize [] cs)
    else if c.toNat == 125 then flushWord cur (.closeSet :: tokenize [] cs)
    else tokenize (c :: cur) cs

/-- The value of a digit in base `base`. -/
def digitVal (base : Nat) (c : Char) : Option Nat :=
  let n := c.toNat
  let d := if 48 ≤ n ∧ n ≤ 57 then some (n - 48)
    else if 97 ≤ n ∧ n ≤ 102 then some (n - 87)
    else if 65 ≤ n ∧ n ≤ 70 then some (n - 55) else none
  d.bind fun k => if k < base then some k else none

/-- Read digits as long as they last: the value, how many, and the rest. -/
def readDigits (base acc count : Nat) : List Char → Nat × Nat × List Char
  | [] => (acc, count, [])
  | c :: cs =>
    match digitVal base c with
    | some d => readDigits base (acc * base + d) (count + 1) cs
    | none => (acc, count, c :: cs)

/-- All of `cs` is a number of at least one digit in base `base`. -/
def wholeNumber (base : Nat) (cs : List Char) : Option Nat :=
  match readDigits base 0 0 cs with
  | (v, n, []) => if n = 0 then none else some v
  | _ => none

/-- A leading sign: true where it is `-`. -/
def readSign : List Char → Bool × List Char
  | '-' :: cs => (true, cs)
  | '+' :: cs => (false, cs)
  | cs => (false, cs)

/-- The exponent part of a decimal literal: nothing, or `e` and a signed integer. -/
def readExponent : List Char → Option Int
  | [] => some 0
  | c :: cs =>
    if c == 'e' || c == 'E' then
      (wholeNumber 10 (readSign cs).2).map fun n => if (readSign cs).1 then -(n : Int) else n
    else none

/-- `m * 10 ^ e` with a sign, rounded to the format with ties to even (R57). -/
def decimalWord (f : Format) (neg : Bool) (m : Nat) : Int → Word
  | .ofNat k => f.roundQuot neg (m * 10 ^ k) 1 0
  | .negSucc k => f.roundQuot neg m (10 ^ (k + 1)) 0

/-- A decimal literal: a sign, digits, a point and digits, an exponent; all but some digit may be missing. -/
def readDecimal (f : Format) (cs : List Char) : Option Word :=
  let sign := readSign cs
  let whole := readDigits 10 0 0 sign.2
  let frac := match whole.2.2 with
    | '.' :: rest => readDigits 10 whole.1 0 rest
    | rest => (whole.1, 0, rest)
  if whole.2.1 + frac.2.1 = 0 then none
  else (readExponent frac.2.2).map fun e => decimalWord f sign.1 frac.1 (e - (frac.2.1 : Int))

/-- `<real>` (R57): `+inf`, `-inf`, `nan`, `0x` and exactly `W/4` hex digits, or a decimal literal. -/
def readReal (f : Format) (cs : List Char) : Option Word :=
  match cs with
  | ['+', 'i', 'n', 'f'] => some (f.pack false f.infMag)
  | ['-', 'i', 'n', 'f'] => some (f.pack true f.infMag)
  | ['n', 'a', 'n'] => some (f.quietNaN Config.asmNaNBits)
  | '0' :: 'x' :: hex =>
    if hex.length = f.width / 4 then (wholeNumber 16 hex).map (BitVec.ofNat 64) else none
  | _ => readDecimal f cs

/-- `<k>` (R57): a decimal integer 0..255. -/
def readIndex (cs : List Char) : Option Nat :=
  (wholeNumber 10 cs).bind fun k => if k < 256 then some k else none

/-- The entries of a set after its opening bracket, and what follows the closing one. -/
def readEntries (f : Format) : List Token → Option (List Word × List Token)
  | .word x :: .closeSet :: rest => (readReal f x).map fun v => ([v], rest)
  | .word x :: .comma :: rest =>
    match readReal f x, readEntries f rest with
    | some v, some (vs, r) => some (v :: vs, r)
    | _, _ => none
  | _ => none

/-- Two sets of `n` entries each: a coefficient set (R58), and what follows it. -/
def readSets (f : Format) (n : Nat) : List Token → Option (List Word × List Word × List Token)
  | .openSet :: ts =>
    match readEntries f ts with
    | some (b, .comma :: .openSet :: us) =>
      match readEntries f us with
      | some (a, rest) => if b.length = n ∧ a.length = n then some (b, a, rest) else none
      | none => none
    | _ => none
  | _ => none

/-- One line (R57, R58): the instructions it stands for; none where it is not of the syntax. An empty line is none at all. -/
def assembleTokens (f : Format) (n : Nat) : List Token → Option (List Instr)
  | [] => some []
  | [.word m] =>
    if m = "CONSTRUCT".toList then some [.construct]
    else if m = "RESET".toList then some [.reset]
    else if m = "SET_COEFFS".toList then some [.setCoeffs]
    else if m = "GET_LAST".toList then some [.getLast]
    else none
  | [.word m, .word x] =>
    if m = "FILTER".toList then (readReal f x).map fun v => [.filter v]
    else if m = "FILL".toList then (readReal f x).map fun v => [.fill v]
    else none
  | [.word m, .word k, .comma, .word x] =>
    match readIndex k, readReal f x with
    | some k, some v =>
      if m = "STAGE.NUM".toList then some [.stageNum k v]
      else if m = "STAGE.DEN".toList then some [.stageDen k v]
      else none
    | _, _ => none
  | .word m :: ts =>
    match readSets f n ts with
    | some (b, a, []) =>
      if m = "LOADCOEF".toList then some (loadCoef b a)
      else if m = "SWAPCOEF".toList then some (swapCoef b a)
      else none
    | some (b, a, [.comma, .word x]) =>
      if m = "INITFILL".toList then (readReal f x).map (initFill b a) else none
    | _ => none
  | _ => none

/-- One line of text. -/
def assembleLine (f : Format) (n : Nat) (line : List Char) : Option (List Instr) :=
  assembleTokens f n (tokenize [] line)

/-- Cut a text into lines. -/
def splitLines (cur : List Char) : List Char → List (List Char)
  | [] => [cur.reverse]
  | c :: cs => if c == '\n' then cur.reverse :: splitLines [] cs else splitLines (c :: cur) cs

/-- The instructions of all lines, none where one line is not of the syntax. -/
def assembleLines (f : Format) (n : Nat) : List (List Char) → Option (List Instr)
  | [] => some []
  | l :: ls =>
    match assembleLine f n l, assembleLines f n ls with
    | some is, some js => some (is ++ js)
    | _, _ => none

/-- The command stream of a text (R57): the pairs of command word and data word, in order. -/
def assemble (f : Format) (n : Nat) (text : List Char) : Option (List (Cmd × Word)) :=
  (assembleLines f n (splitLines [] text)).map fun is => is.map encode

/-- The digit character of a value below 16. -/
def digitChar (d : Nat) : Char := if d < 10 then Char.ofNat (48 + d) else Char.ofNat (55 + d)

/-- `n` written with exactly `count` digits in base `base`. -/
def writeDigits (base : Nat) : Nat → Nat → List Char
  | 0, _ => []
  | count + 1, n => writeDigits base count (n / base) ++ [digitChar (n % base)]

/-- A data word as its raw encoding (R57): `0x` and `W/4` hex digits. -/
def renderWord (f : Format) (w : Word) : List Char := '0' :: 'x' :: writeDigits 16 (f.width / 4) w.toNat

/-- An index below 256 in decimal, with no leading zero. -/
def renderIndex (k : Nat) : List Char :=
  writeDigits 10 (if k < 10 then 1 else if k < 100 then 2 else 3) k

/-- The line of an instruction (R57), its data word written raw. -/
def renderLine (f : Format) : Instr → List Char
  | .construct => "CONSTRUCT".toList
  | .filter v => "FILTER".toList ++ ' ' :: renderWord f v
  | .reset => "RESET".toList
  | .fill v => "FILL".toList ++ ' ' :: renderWord f v
  | .setCoeffs => "SET_COEFFS".toList
  | .getLast => "GET_LAST".toList
  | .stageNum k v => "STAGE.NUM".toList ++ ' ' :: (renderIndex k ++ ',' :: ' ' :: renderWord f v)
  | .stageDen k v => "STAGE.DEN".toList ++ ' ' :: (renderIndex k ++ ',' :: ' ' :: renderWord f v)

end Sys2Proof.Machine
end

