-- ==== Sys2Proof/Machine/Cascade.lean ====
section
/-! DEFINITION. Cascades (44_cascade.md): a list of independent engines and the host's sequences over it. A cascade adds no
command and no state (R96), so it stands beside the machine and not in it (log 20). -/

namespace Sys2Proof.Machine

/-- One transaction (R48): the host presents a command and reads the response. -/
def transact (w : Cmd) (d : Word) (s : State) : Host.Outcome (State × Option Response) Fault Refusal :=
  match step (offer w d s) with
  | .next t =>
    match t.rsp with
    | none => .next (t, none)
    | some r =>
      match r.wire.read with
      | .next r' => .next (t, some r')
      | .fault x => .fault x
      | .refused x => .refused x
  | .fault x => .fault x
  | .refused x => .refused x

/-- The host issues an instruction to one engine. -/
def issue (i : Instr) (s : State) : Host.Outcome (State × Option Response) Fault Refusal :=
  transact (encode i).1 (encode i).2 s

/-- What a cascade sample step leaves: the sections, and the output where there is one (R97). -/
structure CascadeStep where
  sections : List State
  output : Option Word
  deriving DecidableEq, Repr

/-- `CFILTER v` (R97): FILTER to each section in turn, with no other command between, the output of one the input of
the next, its encoding exact. Where a
section rejects, the sequence stops there, the sections before it have stepped, and there is no output. A cascade has at
least one section (R96); on the empty list the input is handed back, which is what the recursion ends with. -/
def cFilter (v : Word) : List State → Host.Outcome CascadeStep Fault Refusal
  | [] => .next ⟨[], some v⟩
  | s :: rest =>
    match issue (.filter v) s with
    | .next (t, some ⟨.ok, some y⟩) =>
      match cFilter y rest with
      | .next c => .next ⟨t :: c.sections, c.output⟩
      | .fault x => .fault x
      | .refused x => .refused x
    | .next (t, _) => .next ⟨t :: rest, none⟩
    | .fault x => .fault x
    | .refused x => .refused x

/-- The same instruction to every section in turn. -/
def issueAll (i : Instr) : List State → Host.Outcome (List State) Fault Refusal
  | [] => .next []
  | s :: rest =>
    match issue i s with
    | .next (t, _) =>
      match issueAll i rest with
      | .next ts => .next (t :: ts)
      | .fault x => .fault x
      | .refused x => .refused x
    | .fault x => .fault x
    | .refused x => .refused x

/-- `CRESET` (R100): RESET to every section. -/
def cReset (sections : List State) : Host.Outcome (List State) Fault Refusal := issueAll .reset sections

/-- `CFILL v` (R100): FILL `v` to every section. -/
def cFill (v : Word) (sections : List State) : Host.Outcome (List State) Fault Refusal := issueAll (.fill v) sections

/-- The sections of a cascade (R96): at least one, all of one format, and independent of one another, so that each has a
stream of free values of its own (log 26). -/
abbrev IsCascade (f : Format) (sections : List State) : Prop :=
  sections ≠ [] ∧ (∀ s ∈ sections, s.build.fmt = f) ∧ (sections.map (·.source)).Nodup

/-- The sections of a cascade right after power-on (R96, R110), from the build of each: section `k` draws its free values from
stream `first + k`. -/
def powerOnSections (first : Nat) : List Build → List State
  | [] => []
  | b :: bs => State.powerOn b first :: powerOnSections (first + 1) bs

/-- The host issues an instruction to the section `k` and to no other (R47, R96). Where there is no section `k`, there is
nothing to issue it to, and no response. -/
def issueAt (k : Nat) (i : Instr) (sections : List State) :
    Host.Outcome (List State × Option Response) Fault Refusal :=
  match sections[k]? with
  | none => .next (sections, none)
  | some s =>
    match issue i s with
    | .next (t, r) => .next (sections.set k t, r)
    | .fault x => .fault x
    | .refused x => .refused x

/-- Any sequence of commands of the host, each to a section of its choice, in the order issued (R97). -/
def hostRun : List (Nat × Instr) → List State → Host.Outcome (List State × List (Option Response)) Fault Refusal
  | [], sections => .next (sections, [])
  | (k, i) :: cs, sections =>
    match issueAt k i sections with
    | .next (ts, r) =>
      match hostRun cs ts with
      | .next (us, rs) => .next (us, r :: rs)
      | .fault x => .fault x
      | .refused x => .refused x
    | .fault x => .fault x
    | .refused x => .refused x

/-- A cascade sample step from section `k` on, the host issuing other commands between the section commands: it is not atomic
across sections (R97). `between` has one list for each section still to come: the commands issued right before that section's
FILTER, to any sections. Each obeys its own rule, in the order issued. -/
def cFilterAmid (k : Nat) (v : Word) : List (List (Nat × Instr)) → List State →
    Host.Outcome CascadeStep Fault Refusal
  | [], sections => .next ⟨sections, some v⟩
  | others :: between, sections =>
    match hostRun others sections with
    | .next (ts, _) =>
      match issueAt k (.filter v) ts with
      | .next (us, some ⟨.ok, some y⟩) => cFilterAmid (k + 1) y between us
      | .next (us, _) => .next ⟨us, none⟩
      | .fault x => .fault x
      | .refused x => .refused x
    | .fault x => .fault x
    | .refused x => .refused x

end Sys2Proof.Machine
end

