-- ==== Sys2Proof/Machine/Circular.lean ====
section
/-! DEFINITION. The circular-buffer implementation of the histories (R33, R118): two physical buffers with one shared head.
It is no part of the machine, whose state is the logical sequences (R33: a model should not represent the head); it stands
here so that its equivalence with the machine can be stated (log 24). -/

namespace Sys2Proof.Machine

/-- The physical history: `xbuf[0..N-1]`, `ybuf[0..N-1]` and the head `h` (R33). -/
structure Ring where
  xbuf : List Word
  ybuf : List Word
  head : Nat
  deriving DecidableEq, Repr

/-- Entry `k` of a buffer counted from `h`: `buf[(h + k) mod N]` (R33). -/
def ringAt (buf : List Word) (n h k : Nat) : Word := buf.getD ((h + k) % n) posZero

/-- The logical sequence of a buffer (R33). -/
def ringView (buf : List Word) (n h : Nat) : List Word := (List.range n).map (ringAt buf n h)

/-- An engine whose histories are a ring. The histories of `shell` are not used. -/
structure RingEngine where
  shell : State
  ring : Ring
  deriving DecidableEq, Repr

/-- The engine of the spec that a ring engine implements (R33). -/
def RingEngine.view (c : RingEngine) : State :=
  c.shell.withHistories (ringView c.ring.xbuf c.shell.build.n c.ring.head)
    (ringView c.ring.ybuf c.shell.build.n c.ring.head)

/-- The buffers have `N` entries and the head is one of them (R33). -/
abbrev RingEngine.Ok (c : RingEngine) : Prop :=
  c.ring.xbuf.length = c.shell.build.n ∧ c.ring.ybuf.length = c.shell.build.n ∧ c.ring.head < c.shell.build.n

/-- `h' = (h + N - 1) mod N` (R33). -/
def headBefore (n h : Nat) : Nat := (h + n - 1) % n

/-- Every entry of both buffers becomes `v`; the head stays (R33). -/
def Ring.fill (r : Ring) (n : Nat) (v : Word) : Ring := ⟨List.replicate n v, List.replicate n v, r.head⟩

/-- FILTER on the ring (R33): insert the sample, read the feedback before `y` is inserted (R118), insert `y`. -/
def ringFilter (v : Word) (c : RingEngine) : RingEngine × Word :=
  let s := c.shell
  let n := s.build.n
  let h := headBefore n c.ring.head
  let xbuf := c.ring.xbuf.set h v
  let feedback := (List.range (n - 1)).map fun k => ringAt c.ring.ybuf n h (k + 1)
  let y := filterOutput (arithOf s) s.build.macFused s.build.fbGrouping s.num s.den (ringView xbuf n h) feedback
  (⟨s.nextDraw, ⟨xbuf, c.ring.ybuf.set h y, h⟩⟩, y)

/-- An answer of the shell, the ring beside it. -/
def withRing (r : Ring) : Host.Outcome State Fault Refusal → Host.Outcome RingEngine Fault Refusal
  | .next t => .next ⟨t, r⟩
  | .fault x => .fault x
  | .refused x => .refused x

/-- The eight commands on a ring engine. -/
def ringExec (i : Instr) (c : RingEngine) : Host.Outcome RingEngine Fault Refusal :=
  match i with
  | .construct =>
    match commit c.shell with
    | some t => .next ⟨respond .ok none t, c.ring.fill t.build.n posZero⟩
    | none => .next ⟨reject .stageIncomplete c.shell, c.ring⟩
  | .filter v =>
    if c.shell.configured then
      .next ⟨respond .ok (some (ringFilter v c).2) (ringFilter v c).1.shell, (ringFilter v c).1.ring⟩
    else .next ⟨reject .notConfigured c.shell, c.ring⟩
  | .reset => .next ⟨respond .ok (some posZero) c.shell, c.ring.fill c.shell.build.n posZero⟩
  | .fill v => .next ⟨respond .ok (some v) c.shell, c.ring.fill c.shell.build.n v⟩
  | .setCoeffs => withRing c.ring (execSetCoeffs c.shell)
  | .getLast => .next ⟨respond .ok (some (ringAt c.ring.ybuf c.shell.build.n c.ring.head 0)) c.shell, c.ring⟩
  | .stageNum k v => withRing c.ring (execStageNum k v c.shell)
  | .stageDen k v => withRing c.ring (execStageDen k v c.shell)

/-- The spec's view of an answer of a ring engine. -/
def viewOutcome : Host.Outcome RingEngine Fault Refusal → Host.Outcome State Fault Refusal
  | .next c => .next c.view
  | .fault x => .fault x
  | .refused x => .refused x

end Sys2Proof.Machine
end

