-- ==== Sys2Proof/Machine/Designer.lean ====
section
/-! DEFINITION. The host's coefficient designer (40_host_designer.md): a reference, not a command, and no part of the
machine. Binary64 throughout (R62); the trigonometric functions, `sqrt`, `atan2` and `|z|` are the host library's, free
functions here (I19, log 14). Formulas are evaluated left to right as written (log 13). -/

namespace Sys2Proof.Machine

/-- The types with two edges (R59, R60). -/
def FilterType.isBand : FilterType → Bool
  | .lowpass => false
  | .highpass => false
  | .bandpass => true
  | .bandstop => true

/-- `numCoefficients(n, type)` (R61). -/
def numCoefficients (order : Nat) (t : FilterType) : Nat := if t.isBand then 2 * order + 1 else order + 1

/-- A CoefficientSet (R18): index 0 is the highest original power. -/
structure CoefficientSet where
  num : List Word
  den : List Word
  deriving DecidableEq, Repr

/-- A complex number: a pair of binary64 values (R62). -/
structure Cplx where
  re : Word
  im : Word
  deriving DecidableEq, Repr

/-- The host library (R62, I19): a configuration record. `nan` is the NaN encoding the host's arithmetic writes, `nyquist`
the free coefficients of R74. -/
structure HostLib where
  tan : Word → Word
  sin : Word → Word
  cos : Word → Word
  sqrt : Word → Word
  atan2 : Word → Word → Word
  hypot : Word → Word → Word
  nan : Word
  nyquist : DesignerParams → DesignCall → Bool → Nat → Word

/-- The host library with nothing known of it. -/
def HostLib.free : HostLib where
  tan := Config.hostTan
  sin := Config.hostSin
  cos := Config.hostCos
  sqrt := Config.hostSqrt
  atan2 := Config.hostAtan2
  hypot := Config.hostHypot
  nan := Format.binary64.quietNaN Config.hostNaNBits
  nyquist := Config.nyquistCoeff

/-- Binary64 arithmetic of the host. -/
def HostLib.arith (L : HostLib) : Arith Word := Arith.ieee .binary64 L.nan

/-- The binary64 encoding of a natural number. -/
def real64 (n : Nat) : Word := Format.binary64.encodeNat n

/-- The binary64 value nearest to π (PRESUMED, log 13). -/
def pi64 : Word := 0x400921FB54442D18#64

/-- A real number as a complex one, its imaginary part `+0` (DESIGN CHOICE, log 13). -/
def Cplx.ofReal (x : Word) : Cplx := ⟨x, posZero⟩

/-- `a + b`. -/
def Cplx.add (A : Arith Word) (a b : Cplx) : Cplx := ⟨A.add a.re b.re, A.add a.im b.im⟩

/-- `a - b`. -/
def Cplx.sub (A : Arith Word) (a b : Cplx) : Cplx := ⟨A.sub a.re b.re, A.sub a.im b.im⟩

/-- `a * b`, by the formula `(ac - bd, ad + bc)`, with nothing done about an infinity or a NaN in it: R62 says only
"complex arithmetic on pairs" (DESIGN CHOICE, log 13, unsafe). -/
def Cplx.mul (A : Arith Word) (a b : Cplx) : Cplx :=
  ⟨A.sub (A.mul a.re b.re) (A.mul a.im b.im), A.add (A.mul a.re b.im) (A.mul a.im b.re)⟩

/-- `x * a` for a real `x`, each part multiplied (DESIGN CHOICE, log 13, unsafe). -/
def Cplx.scale (A : Arith Word) (x : Word) (a : Cplx) : Cplx := ⟨A.mul x a.re, A.mul x a.im⟩

/-- `a / x` for a real `x`, each part divided (DESIGN CHOICE, log 13, unsafe). -/
def Cplx.divReal (A : Arith Word) (a : Cplx) (x : Word) : Cplx := ⟨A.div a.re x, A.div a.im x⟩

/-- `a / b`, by the formula `a * conj b / |b|^2` (DESIGN CHOICE, log 13, unsafe). -/
def Cplx.div (A : Arith Word) (a b : Cplx) : Cplx :=
  let d := A.add (A.mul b.re b.re) (A.mul b.im b.im)
  ⟨A.div (A.add (A.mul a.re b.re) (A.mul a.im b.im)) d, A.div (A.sub (A.mul a.im b.re) (A.mul a.re b.im)) d⟩

/-- `csqrt(z)`, principal branch (R66). -/
def Cplx.csqrt (L : HostLib) (z : Cplx) : Cplx :=
  let m := L.sqrt (L.hypot z.re z.im)
  let half := L.arith.div (L.atan2 z.im z.re) (real64 2)
  ⟨L.arith.mul m (L.cos half), L.arith.mul m (L.sin half)⟩

/-- `ω * Ts / 2`. -/
def halfAngle (L : HostLib) (ts ω : Word) : Word := L.arith.div (L.arith.mul ω ts) (real64 2)

/-- `warp(ω) = (2/Ts) * tan(ω * Ts / 2)` (R63). -/
def warp (L : HostLib) (ts ω : Word) : Word :=
  L.arith.mul (L.arith.div (real64 2) ts) (L.tan (halfAngle L ts ω))

/-- `θ_k = π(2k+1)/(2n) + π/2` (R64). -/
def prototypeAngle (L : HostLib) (order k : Nat) : Word :=
  L.arith.add (L.arith.div (L.arith.mul pi64 (real64 (2 * k + 1))) (real64 (2 * order)))
    (L.arith.div pi64 (real64 2))

/-- The prototype pole `q_k` (R64). -/
def prototypePole (L : HostLib) (order k : Nat) : Cplx :=
  ⟨L.cos (prototypeAngle L order k), L.sin (prototypeAngle L order k)⟩

/-- The prototype poles in order (R64). -/
def prototypePoles (L : HostLib) (order : Nat) : List Cplx := (List.range order).map (prototypePole L order)

/-- The two BANDPASS poles of `q` (R65, C2): `(q*B + r)/2` and `(q*B - r)/2`, `r = csqrt((q*B)^2 - 4*Ω0^2)`. -/
def bandpassPoles (L : HostLib) (b ω2 : Word) (q : Cplx) : List Cplx :=
  let A := L.arith
  let qb := Cplx.scale A b q
  let r := Cplx.csqrt L (Cplx.sub A (Cplx.mul A qb qb) (Cplx.ofReal (A.mul (real64 4) ω2)))
  [Cplx.divReal A (Cplx.add A qb r) (real64 2), Cplx.divReal A (Cplx.sub A qb r) (real64 2)]

/-- What stands under the root of the BANDSTOP formula (R65, C9): the source's, or the textbook's. -/
def bandstopRadicand (A : Arith Word) (m : BsPoleMap) (b ω2 : Word) (q : Cplx) : Cplx :=
  let bb := Cplx.ofReal (A.mul b b)
  match m with
  | .source => Cplx.add A bb (Cplx.scale A ω2 (Cplx.scale A (real64 4) q))
  | .standard => Cplx.sub A bb (Cplx.scale A ω2 (Cplx.scale A (real64 4) (Cplx.mul A q q)))

/-- The two BANDSTOP poles of `q` (R65): `(B + r)/(2*q)` and `(B - r)/(2*q)`. -/
def bandstopPoles (L : HostLib) (m : BsPoleMap) (b ω2 : Word) (q : Cplx) : List Cplx :=
  let A := L.arith
  let r := Cplx.csqrt L (bandstopRadicand A m b ω2 q)
  let q2 := Cplx.scale A (real64 2) q
  [Cplx.div A (Cplx.add A (Cplx.ofReal b) r) q2, Cplx.div A (Cplx.sub A (Cplx.ofReal b) r) q2]

/-- The call with the second edge of a type that has one edge left out: there it is ignored (R59). -/
def DesignCall.normal (c : DesignCall) : DesignCall := if c.type.isBand then c else { c with edge2 := posZero }

/-- The warped edges `w1`, `w2` (R63). -/
def warpedEdges (L : HostLib) (c : DesignCall) : Word × Word :=
  (warp L c.sampleTime c.edge1, warp L c.sampleTime c.edge2)

/-- The analog poles (R65), from the warped edges. -/
def analogPoles (L : HostLib) (P : DesignerParams) (c : DesignCall) : List Cplx :=
  let A := L.arith
  let w := warpedEdges L c
  let b := A.sub w.2 w.1
  let ω2 := A.mul w.2 w.1
  let qs := prototypePoles L c.order
  match c.type with
  | .lowpass => qs.map (Cplx.scale A w.1)
  | .highpass => qs.map (Cplx.div A (Cplx.ofReal w.1))
  | .bandpass => qs.flatMap (bandpassPoles L b ω2)
  | .bandstop => qs.flatMap (bandstopPoles L P.bsPoleMap b ω2)

/-- The bilinear map (R67): `z = (1 + (Ts/2)*s) / (1 - (Ts/2)*s)`. -/
def bilinear (L : HostLib) (ts : Word) (s : Cplx) : Cplx :=
  let A := L.arith
  let h := Cplx.scale A (A.div ts (real64 2)) s
  Cplx.div A (Cplx.add A (Cplx.ofReal (real64 1)) h) (Cplx.sub A (Cplx.ofReal (real64 1)) h)

/-- The discrete poles (R67), in the order of the analog ones. -/
def discretePoles (L : HostLib) (P : DesignerParams) (c : DesignCall) : List Cplx :=
  (analogPoles L P c).map (bilinear L c.sampleTime)

/-- `sqrt(edgeLow * edgeHigh)`, of the warped or the raw edges (R68, R70, D28 (e)). -/
def centerFrequency (L : HostLib) (P : DesignerParams) (c : DesignCall) : Word :=
  match P.centerEdges with
  | .warped => L.sqrt (L.arith.mul (warpedEdges L c).1 (warpedEdges L c).2)
  | .raw => L.sqrt (L.arith.mul c.edge1 c.edge2)

/-- `+1` and `-1`. -/
def plusOne : Cplx := Cplx.ofReal (real64 1)
def minusOne : Cplx := Cplx.ofReal (Format.binary64.fneg (real64 1))

/-- `count` copies of a short list, one after another. -/
def repeatList {α : Type} (count : Nat) (l : List α) : List α := (List.replicate count l).flatten

/-- The discrete zeros (R68), in order. `e^(-jx)` is taken as `(cos x, -sin x)`, from the library calls of `e^(+jx)`, and not
as `(cos (-x), sin (-x))` (DESIGN CHOICE, log 13, unsafe). -/
def discreteZeros (L : HostLib) (P : DesignerParams) (c : DesignCall) : List Cplx :=
  match c.type with
  | .lowpass => List.replicate c.order minusOne
  | .highpass => List.replicate c.order plusOne
  | .bandpass => repeatList c.order [plusOne, minusOne]
  | .bandstop =>
    let x := L.arith.mul (centerFrequency L P c) c.sampleTime
    repeatList c.order [⟨L.cos x, L.sin x⟩, ⟨L.cos x, Format.binary64.fneg (L.sin x)⟩]

/-- Multiply a polynomial, coefficient of `x^0` first, by `x - r` (R69): `c[j] <- old[j-1] - old[j]*r`. `prev` is
`old[j-1]`. The last entry is `old[L-1]` itself, `old[L]` being absent: so the polynomial is monic (R69; log 15). -/
def mulRoot (A : Arith Word) (r prev : Cplx) : List Cplx → List Cplx
  | [] => [prev]
  | c :: cs => Cplx.sub A prev (Cplx.mul A c r) :: mulRoot A r c cs

/-- Expand a root list (R69), coefficient of `x^0` first. `old[-1] = 0` is the pair `(+0, +0)` (log 13). -/
def expandRoots (A : Arith Word) (roots : List Cplx) : List Cplx :=
  roots.foldl (fun c r => mulRoot A r (Cplx.ofReal posZero) c) [Cplx.ofReal (real64 1)]

/-- The reference frequency of the gain (R70). -/
def referenceFrequency (L : HostLib) (P : DesignerParams) (c : DesignCall) : Word :=
  match c.type with
  | .lowpass => posZero
  | .bandstop => posZero
  | .highpass => L.arith.div pi64 c.sampleTime
  | .bandpass => centerFrequency L P c

/-- `Σ_k p[k] * e^(-j*k*ω*Ts)` from term `k` on, added to `acc` (R70). `e^(-jx)` is `(cos x, -sin x)`, as in `discreteZeros`
(DESIGN CHOICE, log 13, unsafe). -/
def evalOnCircle (L : HostLib) (ω ts : Word) : Nat → Cplx → List Word → Cplx
  | _, acc, [] => acc
  | k, acc, b :: bs =>
    let x := L.arith.mul (L.arith.mul (real64 k) ω) ts
    let e : Cplx := ⟨L.cos x, Format.binary64.fneg (L.sin x)⟩
    evalOnCircle L ω ts (k + 1) (Cplx.add L.arith acc (Cplx.scale L.arith b e)) bs

/-- `|H|` at the reference frequency (R70). R70 writes only the sums; that each starts from `(+0, +0)`, every term added to it,
is the model's choice, and it fixes the sign of a zero part (DESIGN CHOICE, log 13, unsafe). -/
def gainAt (L : HostLib) (ω ts : Word) (bn a : List Word) : Word :=
  let h := Cplx.div L.arith (evalOnCircle L ω ts 0 (Cplx.ofReal posZero) bn)
    (evalOnCircle L ω ts 0 (Cplx.ofReal posZero) a)
  L.hypot h.re h.im

/-- Why the designer gives no result. -/
inductive DesignRefusal where
  /-- order 0 (R73, I1) -/
  | orderZero
  /-- a sample time that is not above zero (R73, I1) -/
  | sampleTimeNotPositive
  /-- a band type with `edgeHigh <= edgeLow` (R73, I1) -/
  | edgesOutOfOrder
  /-- a discarded imaginary part above `IMAG_TOL`, where that parameter is set (R69, I3, log 17) -/
  | imaginaryResidual
  deriving DecidableEq, Repr

/-- The edge violates the Nyquist constraint: `edge*Ts/2 >= π/2` (R74, log 16). -/
def violatesNyquist (L : HostLib) (ts e : Word) : Bool :=
  Format.binary64.fle (L.arith.div pi64 (real64 2)) (halfAngle L ts e)

/-- Some edge of the call violates the Nyquist constraint (R74). -/
def DesignCall.aboveNyquist (L : HostLib) (c : DesignCall) : Bool :=
  violatesNyquist L c.sampleTime c.edge1 || (c.type.isBand && violatesNyquist L c.sampleTime c.edge2)

/-- Every imaginary part is within the tolerance, where there is one (R69, I3, log 17). -/
def withinTolerance (tol : Option Word) (cs : List Cplx) : Bool :=
  match tol with
  | none => true
  | some t => cs.all fun c =>
      Format.binary64.fle (Format.binary64.pack false (Format.binary64.magOf c.im)) t

/-- Steps 6 to 8 (R69 to R71) on the discrete zeros and poles: expand, normalise the numerator's gain, store highest power
first. -/
def coefficientsOf (L : HostLib) (P : DesignerParams) (ω ts : Word) (zeros poles : List Cplx) :
    Except DesignRefusal CoefficientSet :=
  let bc := expandRoots L.arith zeros
  let ac := expandRoots L.arith poles
  if withinTolerance P.imagTol bc && withinTolerance P.imagTol ac then
    let bn := bc.map Cplx.re
    let a := ac.map Cplx.re
    let g := gainAt L ω ts bn a
    .ok ⟨(bn.map fun x => L.arith.div x g).reverse, a.reverse⟩
  else .error .imaginaryResidual

/-- The free result of a call above Nyquist (R74, I2): any coefficients, of the right number. Two calls that differ in
anything but an ignored edge have results of their own (log 16). -/
def nyquistSet (L : HostLib) (P : DesignerParams) (c : DesignCall) : CoefficientSet :=
  let row (isNum : Bool) := (List.range (numCoefficients c.order c.type)).map (L.nyquist P c.normal isNum)
  ⟨row true, row false⟩

/-- `design(order, type, sampleTime, edge1, edge2)` (R59), with the checks of R73 and R74. A NaN sample time is refused; an
infinite sample time and an infinite or NaN edge, which are no real numbers either, are not: such a call has the computed or
the free result its checks lead to (DESIGN CHOICE, log 17, unsafe). -/
def design (L : HostLib) (P : DesignerParams) (c : DesignCall) : Except DesignRefusal CoefficientSet :=
  if c.order = 0 then .error .orderZero
  else if Format.binary64.flt posZero c.sampleTime = false then .error .sampleTimeNotPositive
  else if c.type.isBand && Format.binary64.fle c.edge2 c.edge1 then .error .edgesOutOfOrder
  else if c.aboveNyquist L then .ok (nyquistSet L P c)
  else coefficientsOf L P (referenceFrequency L P c) c.sampleTime (discreteZeros L P c) (discretePoles L P c)

/-- The host's conversion of a designed coefficient to the engine's format (R72); a NaN becomes a NaN of that format, which
one is free (log 25). -/
def narrowCoeff (f : Format) (w : Word) : Word :=
  Format.binary64.convert f (f.quietNaN (Config.narrowNaNBits w)) w

/-- The coefficient set as it is loaded (R72). -/
def CoefficientSet.narrow (f : Format) (c : CoefficientSet) : CoefficientSet :=
  ⟨c.num.map (narrowCoeff f), c.den.map (narrowCoeff f)⟩

end Sys2Proof.Machine
end

