-- ==== Sys2Proof/WellFormed.lean ====
section
/-! DEFINITION. What an instruction term must satisfy to have an encoding (R50, R51): its index fits the 8-bit `IDX`
field and its data word is a `W`-bit word. `IDX >= N` is no matter of form: such a command is encoded, and rejected with
INDEX_RANGE (R55). -/

namespace Sys2Proof

/-- `idx` fits the field `IDX` = bits 15..8 (R50). -/
abbrev IdxFits (idx : Nat) : Prop := idx < 256

/-- The instruction has an encoding for a block of format `f`. -/
def Instr.WellFormed (f : Format) : Instr → Bool
  | .construct => true
  | .filter v => decide (f.Fits v)
  | .reset => true
  | .fill v => decide (f.Fits v)
  | .setCoeffs => true
  | .getLast => true
  | .stageNum k v => decide (IdxFits k) && decide (f.Fits v)
  | .stageDen k v => decide (IdxFits k) && decide (f.Fits v)

end Sys2Proof
end

