-- ==== Sys2Proof/Safety.lean ====
section
/-! DEFINITION. What claims call a good state, and a good run. The engine has no error state of its own (R104, R105): a
good state is one with the shape R19 gives it, and a good run never stops. -/

namespace Sys2Proof.Machine

/-- Every entry is a `W`-bit word (R31). -/
abbrev AllFit (f : Format) (ws : List Word) : Prop := ∀ w ∈ ws, f.Fits w

/-- Every entry that has been written is a `W`-bit word (R29, R31). -/
abbrev StagedFit (f : Format) (ws : List (Option Word)) : Prop := ∀ o ∈ ws, ∀ w ∈ o, f.Fits w

/-- Every staging entry has been written since hardware reset (R29). -/
abbrev StageComplete (s : State) : Prop := none ∉ s.stgNum ∧ none ∉ s.stgDen

/-- The seven arrays of R19 have `N` entries each, and `N` is legal (R6). -/
abbrev ShapeOk (s : State) : Prop :=
  s.build.Legal ∧ s.num.length = s.build.n ∧ s.den.length = s.build.n ∧ s.xh.length = s.build.n ∧
    s.yh.length = s.build.n ∧ s.stgNum.length = s.build.n ∧ s.stgDen.length = s.build.n

/-- Every stored word is a `W`-bit word (R31). -/
abbrev WordsOk (s : State) : Prop :=
  AllFit s.build.fmt s.num ∧ AllFit s.build.fmt s.den ∧ AllFit s.build.fmt s.xh ∧ AllFit s.build.fmt s.yh ∧
    StagedFit s.build.fmt s.stgNum ∧ StagedFit s.build.fmt s.stgDen

/-- A response that is no OK carries no value, and a value is a `W`-bit word (R48, R101). -/
abbrev RspOk (s : State) : Prop :=
  ∀ r ∈ s.rsp, (r.status ≠ .ok → r.value = none) ∧ ∀ w ∈ r.value, s.build.fmt.Fits w

/-- The invariant of the machine: the shape of R19, words of `W` bits (R31), responses as R101 has them, and no engine
configured with a staging entry unwritten (R29, R30, D12, D13). -/
abbrev EngineInv (s : State) : Prop :=
  ShapeOk s ∧ WordsOk s ∧ RspOk s ∧ (s.configured = true → StageComplete s)

end Sys2Proof.Machine
end

