-- ==== Sys2Proof/Certificates/Slice0/Obligations.lean ====
section
/-! DEFINITION. The statements for the provers, and the words of the spec they are written in: the index loops of R82, the
check order of R103, correct rounding, exactness, and signals as power series. -/

namespace Sys2Proof.Spec

open Sys2Proof.Machine

/-- `for k = 0 .. n-1: acc <- body k acc`. -/
def upto {V : Type} (n : Nat) (body : Nat → V → V) (acc : V) : V :=
  match n with
  | 0 => acc
  | k + 1 => body k (upto k body acc)

/-- The pseudo-code of R82 from step 2 to step 4, by index, for a block of `n` coefficients. -/
def output {V : Type} (A : Arith V) (fused : Bool) (g : FbGrouping) (n : Nat) (num den xs yh : List V) : V :=
  let at' (s : List V) (k : Nat) : V := s.getD k A.zero
  let macAdd (a c v : V) : V := if fused then A.fma c v a else A.add a (A.mul c v)
  let macSub (a c v : V) : V := if fused then A.fma (A.neg c) v a else A.sub a (A.mul c v)
  let acc := upto n (fun k acc => macAdd acc (at' num k) (at' xs k)) A.zero
  let acc := match g with
    | .perTerm => upto (n - 1) (fun j acc => macSub acc (at' den (j + 1)) (at' yh j)) acc
    | .grouped => A.sub acc (upto (n - 1) (fun j fb => macAdd fb (at' den (j + 1)) (at' yh j)) A.zero)
  A.div acc (at' den 0)

/-- `[v] ++ s[0..n-2]` (R13). -/
def shift (n : Nat) (v : Word) (s : List Word) : List Word := v :: s.take (n - 1)

/-- The status R103 gives the command word `w` in the state `s`. -/
def statusOf (s : State) (w : Cmd) : Status :=
  let op := w.extractLsb' 0 4
  let rsv0 := w.extractLsb' 4 4
  let idx := w.extractLsb' 8 8
  let rsv1 := w.extractLsb' 16 16
  if op = 0 ∨ 9 ≤ op.toNat then .illegalOpcode
  else if rsv0 ≠ 0 ∨ rsv1 ≠ 0 then .reservedField
  else if ¬ (op = 7 ∨ op = 8) ∧ idx ≠ 0 then .reservedField
  else if (op = 7 ∨ op = 8) ∧ s.build.n ≤ idx.toNat then .indexRange
  else if op = 2 ∧ s.configured = false then .notConfigured
  else if (op = 1 ∨ op = 5) ∧ (none ∈ s.stgNum ∨ none ∈ s.stgDen) then .stageIncomplete
  else .ok

/-- The staging entry a STAGE command writes: the bank (numerator or not) and the index. -/
def stageTarget : Instr → Option (Bool × Nat)
  | .construct => none
  | .filter _ => none
  | .reset => none
  | .fill _ => none
  | .setCoeffs => none
  | .getLast => none
  | .stageNum k _ => some (true, k)
  | .stageDen k _ => some (false, k)

/-- The least magnitude that rounds to infinity: half a unit above the largest finite number of the format. -/
def overflowAt (f : Format) : ℚ :=
  ((2 : ℚ) ^ (f.fracBits + 2) - 1) * (2 : ℚ) ^ (f.lsbExp + ((2 : ℤ) ^ f.expBits - 4))

/-- `w` is the rational `x` rounded to nearest, ties to even (R15). -/
structure NearestEven (f : Format) (x : ℚ) (w : Word) : Prop where
  fits : f.Fits w
  number : f.isNaN w = false
  overflow : f.isNonFinite w = true ↔ overflowAt f ≤ |x|
  overflowSign : f.isNonFinite w = true → w = f.pack (decide (x < 0)) f.infMag
  nearest : ∀ v z u, f.toRat w = some v → f.toRat z = some u → |v - x| ≤ |u - x|
  even : ∀ v z u, f.toRat w = some v → f.toRat z = some u → u ≠ v → |v - x| = |u - x| → f.bitsOf w % 2 = 0

/-- `x` is a number of the format. -/
def Representable (f : Format) (x : ℚ) : Prop := ∃ w, f.toRat w = some x

/-- Every intermediate value of R82 in exact arithmetic is a number of the format (R83). -/
def IntermediatesRepresentable (f : Format) (fused : Bool) (g : FbGrouping) (n : Nat) (num den xs yh : Nat → ℚ) : Prop :=
  let ff (k : Nat) : ℚ := ∑ j ∈ Finset.range k, num j * xs j
  let fb (k : Nat) : ℚ := ∑ j ∈ Finset.range k, den (j + 1) * yh j
  (∀ k < n, (fused = false → Representable f (num k * xs k)) ∧ Representable f (ff (k + 1))) ∧
  (∀ k < n - 1, (fused = false → Representable f (den (k + 1) * yh k)) ∧
    (g = .perTerm → Representable f (ff n - fb (k + 1))) ∧ (g = .grouped → Representable f (fb (k + 1)))) ∧
  (g = .grouped → Representable f (ff n - fb (n - 1))) ∧ Representable f ((ff n - fb (n - 1)) / den 0)

/-- The product of a step is a zero. Unfused, that is the rounded product, so one that underflows counts; fused, the product is
not rounded, and it is a zero where one factor is and neither is NaN or infinite. -/
def ZeroProduct (f : Format) (draw : Word) (fused : Bool) (c v : Word) : Prop :=
  if fused then f.isNonFinite c = false ∧ f.isNonFinite v = false ∧ (f.isZero c = true ∨ f.isZero v = true)
  else f.isZero (f.fmul draw c v) = true

/-- An infinity of either sign. -/
def IsInf (f : Format) (w : Word) : Prop := f.isNonFinite w = true ∧ f.isNaN w = false

/-- The samples `x[n], x[n-1], ...`, `count` of them, zero before time 0. -/
def recent {K : Type} [Zero K] (count n : Nat) (x : Nat → K) : List K :=
  (List.range count).map fun k => if k ≤ n then x (n - k) else 0

/-- The samples `y[n-1], y[n-2], ...`, `count` of them, zero before time 0. -/
def past {K : Type} [Zero K] (count n : Nat) (y : Nat → K) : List K :=
  (List.range count).map fun k => if k + 1 ≤ n then y (n - 1 - k) else 0

/-- `y` is what a section answers to `x`, sample by sample, from zero histories, in exact arithmetic. -/
def Runs {K : Type} [Field K] (fused : Bool) (g : FbGrouping) (num den : List K) (x y : Nat → K) : Prop :=
  ∀ n, y n = filterOutput (Arith.exact K) fused g num den (recent num.length n x) (past den.length n y)

/-- `Σ_k c[k] z^(-k)` as a power series in `z^(-1)`. -/
noncomputable def series {K : Type} [Field K] (c : List K) : PowerSeries K := PowerSeries.mk fun k => c.getD k 0

/-- A section in exact arithmetic: its roundings (which make no difference there) and its coefficients. -/
structure Section (K : Type) where
  fused : Bool
  grouping : FbGrouping
  num : List K
  den : List K

/-- `w` is the infinity with that sign. -/
def IsInfOf (f : Format) (neg : Bool) (w : Word) : Prop := w = f.pack neg f.infMag

/-- `w` has the sign IEEE 754 gives a result whose exact value is `x`: that of `x`, and `zeroNeg` where `x` is zero. A zero has
no other magnitude bits. -/
def HasSign (f : Format) (x : ℚ) (zeroNeg : Bool) (w : Word) : Prop :=
  (x ≠ 0 → f.signOf w = decide (x < 0)) ∧ (x = 0 → w = f.pack zeroNeg 0)

/-- `Σ_k p[k] * e^(-j*k*θ)`, exactly (R70). -/
noncomputable def onCircle (θ : ℝ) (p : List ℚ) : ℂ :=
  ∑ k ∈ Finset.range p.length, ((p.getD k 0 : ℚ) : ℂ) * Complex.exp (-(k * θ * Complex.I))

/-- `|H|` at the angle `θ`, exactly (R70). -/
noncomputable def exactGain (θ : ℝ) (num den : List ℚ) : ℝ := ‖onCircle θ num‖ / ‖onCircle θ den‖

/-- What a design asks of its host library for R75 (b): the derived polynomials `bn` and `a` are finite numbers, `|H|` comes out
as `g`, within `2^-21` of its exact value, no more than 30 bits cancel in the numerator's sum, and no scaled entry
underflows (log 27). -/
structure GainComputedWell (L : HostLib) (ω ts : Word) (bn a : List Word) (θ : ℝ) (bnQ aQ : List ℚ) (g : ℚ) : Prop where
  numerator : bn.map Format.binary64.toRat = bnQ.map some
  denominator : a.map Format.binary64.toRat = aQ.map some
  value : Format.binary64.toRat (gainAt L ω ts bn a) = some g
  notZero : onCircle θ bnQ ≠ 0 ∧ onCircle θ aQ ≠ 0
  close : |(g : ℝ) - exactGain θ bnQ aQ| ≤ exactGain θ bnQ aQ / 2 ^ 21
  conditioned : (bnQ.map fun b : ℚ => |(b : ℝ)|).sum ≤ 2 ^ 30 * ‖onCircle θ bnQ‖
  noUnderflow : ∀ b ∈ bnQ, b = 0 ∨ (2 : ℚ) ^ (-1022 : ℤ) ≤ |b / g|

/-- A build of `n` binary32 coefficients with the default roundings. -/
def single (n : Nat) : Build := ⟨n, .binary32, .perTerm, false⟩

end Sys2Proof.Spec

open Sys2Proof Sys2Proof.Machine Sys2Proof.Spec

/-! ### Encoding -/

/-- Decode and encode agree on every well-formed instruction (30_encoding.md sections 2 to 5). -/
def Obligations.DecodeOfEncode : Prop :=
  ∀ (f : Format) (i : Instr), i.WellFormed f = true → decode (encode i).1 (encode i).2 = .ok i

/-- Each accepted command word is the word of its instruction, and so is the data word where the command uses it. -/
def Obligations.EncodeOfDecode : Prop :=
  ∀ (w : Cmd) (d : Word) (i : Instr), decode w d = .ok i →
    (encode i).1 = w ∧
    ((encode i).2 = d ∨ i = .construct ∨ i = .reset ∨ i = .setCoeffs ∨ i = .getLast) ∧
    ∀ f : Format, f.Fits d → i.WellFormed f = true

/-- The match and mask rows of R54, and what the spec derives from R50 and R53: that every word selects exactly one row or is
rejected. -/
def Obligations.EveryWordSelectsOneRowOrIsRejected : Prop :=
  ∀ (w : Cmd) (d : Word),
    (w &&& 0xFFFFFFFF#32 = 0x00000001#32 → decode w d = .ok .construct) ∧
    (w &&& 0xFFFFFFFF#32 = 0x00000002#32 → decode w d = .ok (.filter d)) ∧
    (w &&& 0xFFFFFFFF#32 = 0x00000003#32 → decode w d = .ok .reset) ∧
    (w &&& 0xFFFFFFFF#32 = 0x00000004#32 → decode w d = .ok (.fill d)) ∧
    (w &&& 0xFFFFFFFF#32 = 0x00000005#32 → decode w d = .ok .setCoeffs) ∧
    (w &&& 0xFFFFFFFF#32 = 0x00000006#32 → decode w d = .ok .getLast) ∧
    (w &&& 0xFFFF00FF#32 = 0x00000007#32 → decode w d = .ok (.stageNum (w.extractLsb' 8 8).toNat d)) ∧
    (w &&& 0xFFFF00FF#32 = 0x00000008#32 → decode w d = .ok (.stageDen (w.extractLsb' 8 8).toNat d)) ∧
    (opcodeTable.filter (·.selects w)).length = (if (decode w d).isOk then 1 else 0)

/-- R101 and R103: the status of every command, in the order of the checks, its code, and no value with a rejection. -/
def Obligations.StatusOfEveryCommand : Prop :=
  (∀ (s : State) (w : Cmd) (d : Word) (rest : List Input), s.build.Legal → s.inputs = .command w d :: rest →
    ∃ t v, step s = .next t ∧ t.rsp = some ⟨statusOf s w, v⟩ ∧ (statusOf s w ≠ .ok → v = none)) ∧
  Status.code .ok = 0 ∧ Status.code .illegalOpcode = 1 ∧ Status.code .reservedField = 2 ∧
  Status.code .indexRange = 3 ∧ Status.code .notConfigured = 4 ∧ Status.code .stageIncomplete = 5 ∧
  ∀ st : Status, Status.code st ≠ 6 ∧ Status.code st ≠ 7

/-- The decode table of 95_test_vectors.md section 2.1, whole, with its statuses for `N = 3`, and the words of every row of the
opcode table. -/
def Obligations.TableWordsDecode : Prop :=
  ∀ d : Word,
    decode 0x00000000#32 d = .error .illegalOpcode ∧ decode 0x00000001#32 d = .ok .construct ∧
    decode 0x00000002#32 d = .ok (.filter d) ∧ decode 0x00000003#32 d = .ok .reset ∧
    decode 0x00000004#32 d = .ok (.fill d) ∧ decode 0x00000005#32 d = .ok .setCoeffs ∧
    decode 0x00000006#32 d = .ok .getLast ∧ decode 0x00000207#32 d = .ok (.stageNum 2 d) ∧
    decode 0x00000307#32 d = .ok (.stageNum 3 d) ∧
    decode 0x0000FF08#32 d = .ok (.stageDen 255 d) ∧ decode 0x00000009#32 d = .error .illegalOpcode ∧
    decode 0x0000000F#32 d = .error .illegalOpcode ∧ decode 0x00000013#32 d = .error .reservedField ∧
    decode 0x00010002#32 d = .error .reservedField ∧ decode 0x00000102#32 d = .error .reservedField ∧
    decode 0x00000119#32 d = .error .illegalOpcode ∧ decode 0x00010307#32 d = .error .reservedField ∧
    ∀ s : State, s.build.Legal → s.build.n = 3 →
      ∀ row ∈ [(0x00000000#32, Status.illegalOpcode), (0x00000009#32, .illegalOpcode), (0x0000000F#32, .illegalOpcode),
        (0x00000013#32, .reservedField), (0x00010002#32, .reservedField), (0x00000102#32, .reservedField),
        (0x00000119#32, .illegalOpcode), (0x00000207#32, .ok), (0x00000307#32, .indexRange),
        (0x0000FF08#32, .indexRange), (0x00010307#32, .reservedField)],
      ∃ t, step (offer row.1 d s) = .next t ∧ t.rsp = some ⟨row.2, none⟩

/-- The assembler reads back the line of every well-formed instruction (30_encoding.md section 5). -/
def Obligations.AssembleOfRender : Prop :=
  ∀ (f : Format) (n : Nat) (i : Instr), i.WellFormed f = true → assembleLine f n (renderLine f i) = some [i]

/-! ### The step -/

/-- A step runs the decoded instruction, rejects a word that decodes to none, and holds all state when nothing is
presented. The word placed by `withFetchWord` is the one it runs. -/
def Obligations.StepRunsTheDecodedInstruction : Prop :=
  (∀ (s : State) (w : Cmd) (d : Word) (rest : List Input) (i : Instr), s.build.Legal →
    s.inputs = .command w d :: rest → decode w (portWord s.build.fmt d) = .ok i →
    step s = exec i { s with inputs := rest }) ∧
  (∀ (s : State) (w : Cmd) (d : Word) (rest : List Input) (r : DecodeReject), s.build.Legal →
    s.inputs = .command w d :: rest → decode w (portWord s.build.fmt d) = .error r →
    step s = .next { s with inputs := rest, rsp := some ⟨rejectStatus r, none⟩ }) ∧
  (∀ (s : State) (i : Instr), s.build.Legal → i.WellFormed s.build.fmt = true →
    step { s with inputs := .command (encode i).1 (encode i).2 :: s.inputs } = exec i s) ∧
  (∀ (s : State) (nbits w : Nat) (i : Instr), s.build.Legal → decodeTableWord nbits w = some i →
    i.WellFormed s.build.fmt = true → step (s.withFetchWord nbits w) = exec i s) ∧
  (∀ s : State, s.build.Legal → s.inputs = [] → step s = .next s)

/-- Every input is taken and every command answered, one a step: after as many steps as there are inputs, none is left
(R42, R106, R121: the weak fairness a model may assume is here a theorem). -/
def Obligations.EveryInputIsAnswered : Prop :=
  ∀ s : State, s.build.Legal →
    (∀ w d rest, s.inputs = .command w d :: rest → ∃ t r, step s = .next t ∧ t.rsp = some r ∧ t.inputs = rest) ∧
    ∃ t, core.run s.inputs.length s = .next t ∧ t.inputs = []

/-- The response and the state after a command reflect no later command (R42). -/
def Obligations.LaterInputsDoNotAffectAStep : Prop :=
  ∀ (s t : State) (x : Input) (rest rest' : List Input), s.inputs = x :: rest → step s = .next t →
    step { s with inputs := x :: rest' } = .next { t with inputs := rest' }

/-- R102: a rejected command writes no state, and a later command behaves as if it had never been issued. -/
def Obligations.RejectedCommandWritesNothing : Prop :=
  ∀ (s t : State) (w : Cmd) (d : Word) (rest : List Input) (st : Status) (v : Option Word), s.build.Legal →
    s.inputs = .command w d :: rest → step s = .next t → t.rsp = some ⟨st, v⟩ → st ≠ .ok →
    t = { s with inputs := rest, rsp := some ⟨st, none⟩ } ∧
    ∀ x more, rest = x :: more → step t = step { s with inputs := rest }

/-- The invariant is kept by every step from every state that meets it. -/
def Obligations.StepKeepsTheInvariant : Prop :=
  ∀ s t : State, EngineInv s → step s = .next t → EngineInv t

/-- The invariant holds right after power-on, for every build and every stream of free values, and at `State.reset`; and
sections right after power-on are a cascade (R96, R110; that each has a free stream of its own is the model's, log 26). -/
def Obligations.PowerOnMeetsTheInvariant : Prop :=
  (∀ (b : Build) (source : Nat), b.Legal → EngineInv (State.powerOn b source)) ∧ EngineInv State.reset ∧
  ∀ (f : Format) (first : Nat) (bs : List Build), bs ≠ [] → (∀ b ∈ bs, b.Legal ∧ b.fmt = f) →
    IsCascade f (powerOnSections first bs) ∧ ∀ s ∈ powerOnSections first bs, EngineInv s

/-- No command and no input stops the machine (R104, R105); only a build no block can have is refused (R6). -/
def Obligations.NothingStopsTheMachine : Prop :=
  (∀ (i : Instr) (s : State), ∃ t, exec i s = .next t) ∧
  (∀ s : State, s.build.Legal → ∃ t, step s = .next t) ∧
  ∀ s : State, ¬ s.build.Legal → step s = .refused .unsupportedBuild

/-- The build parameters are the same after any run (R6, R24). -/
def Obligations.BuildParametersNeverChange : Prop :=
  ∀ (k : Nat) (s t : State), core.run k s = .next t → t.build = s.build

/-- R35, R113: what hardware reset leaves; that a command in flight has no effect; and that `num` and `den`, which the spec
calls absent, cannot be observed: whatever they hold, every command gives the same response and the same other state. Three
clauses are the model's choice: no response is held (log 6), the inputs after it stay as they were (log 8), and the engine
keeps its build and its stream of free values (log 8, log 26). -/
def Obligations.HardwareResetState : Prop :=
  ∀ (s : State) (c : Option (Cmd × Word)) (rest : List Input), s.build.Legal → s.inputs = .hardwareReset c :: rest →
    ∃ t, step s = .next t ∧ t.xh = List.replicate s.build.n 0#64 ∧ t.yh = List.replicate s.build.n 0#64 ∧
      t.stgNum = List.replicate s.build.n none ∧ t.stgDen = List.replicate s.build.n none ∧ t.configured = false ∧
      t.rsp = none ∧ t.inputs = rest ∧ t.build = s.build ∧ t.source = s.source ∧
      (∀ c', step { s with inputs := .hardwareReset c' :: rest } = .next t) ∧
      (∀ v, exec (.filter v) t = .next { t with rsp := some ⟨.notConfigured, none⟩ }) ∧
      ∀ (b a : List Word) (i : Instr) (u : State), exec i t = .next u →
        ∃ u', exec i { t with num := b, den := a } = .next u' ∧ u' = { u with num := u'.num, den := u'.den }

/-- R51: the data word is used as it is by four commands and ignored by the other four. -/
def Obligations.DataWordUse : Prop :=
  (∀ (s : State) (d : Word), s.build.Legal → s.build.fmt.Fits d →
    step (offer 0x00000002#32 d s) = exec (.filter d) s ∧ step (offer 0x00000004#32 d s) = exec (.fill d) s ∧
    ∀ w : Cmd, (w &&& 0xFFFF00FF#32 = 0x00000007#32 →
        step (offer w d s) = exec (.stageNum (w.extractLsb' 8 8).toNat d) s) ∧
      (w &&& 0xFFFF00FF#32 = 0x00000008#32 →
        step (offer w d s) = exec (.stageDen (w.extractLsb' 8 8).toNat d) s)) ∧
  ∀ (s : State) (d d' : Word), s.build.Legal →
    step (offer 0x00000001#32 d s) = step (offer 0x00000001#32 d' s) ∧
    step (offer 0x00000003#32 d s) = step (offer 0x00000003#32 d' s) ∧
    step (offer 0x00000005#32 d s) = step (offer 0x00000005#32 d' s) ∧
    step (offer 0x00000006#32 d s) = step (offer 0x00000006#32 d' s)

/-- I16: a host that reads a reserved status code faults, and every response of the engine reads as it is. -/
def Obligations.ReservedStatusFaults : Prop :=
  (∀ v, WireResponse.read ⟨6#3, v⟩ = .fault (.reservedStatus 6#3)) ∧
  (∀ v, WireResponse.read ⟨7#3, v⟩ = .fault (.reservedStatus 7#3)) ∧
  ∀ r : Response, WireResponse.read r.wire = .next r

/-! ### The commands -/

/-- R77: STAGE_NUM. -/
def Obligations.StageNumEffect : Prop :=
  (∀ (w : Cmd) (d : Word), w &&& 0xFFFF00FF#32 = 0x00000007#32 →
    decode w d = .ok (.stageNum (w.extractLsb' 8 8).toNat d)) ∧
  (∀ (w : Cmd) (d : Word), w.extractLsb' 0 4 = 7#4 → (w.extractLsb' 4 4 ≠ 0#4 ∨ w.extractLsb' 16 16 ≠ 0#16) →
    decode w d = .error .reservedField) ∧
  (∀ (s : State) (k : Nat) (v : Word), s.build.n ≤ k →
    exec (.stageNum k v) s = .next { s with rsp := some ⟨.indexRange, none⟩ }) ∧
  (∀ (s : State) (k : Nat) (v : Word), k < s.build.n →
    exec (.stageNum k v) s = .next { s with stgNum := s.stgNum.set k (some v), rsp := some ⟨.ok, none⟩ }) ∧
  (∀ (s : State) (k : Nat) (u v : Word), k < s.build.n →
    runInstrs [.stageNum k u, .stageNum k v] s = exec (.stageNum k v) s) ∧
  (∀ (s t u : State) (k : Nat) (v x : Word), exec (.stageNum k v) s = .next u → exec (.filter x) s = .next t →
    exec (.filter x) u = .next { t with stgNum := u.stgNum }) ∧
  (∀ s : State, s.build = single 3 → s.stgNum.length = 3 →
    ∃ t, step (offer 0x00000207#32 0x3E800000#64 s) = .next t ∧ t.stgNum[2]? = some (some 0x3E800000#64) ∧
      t.rsp = some ⟨.ok, none⟩)

/-- R78: STAGE_DEN. -/
def Obligations.StageDenEffect : Prop :=
  (∀ (w : Cmd) (d : Word), w &&& 0xFFFF00FF#32 = 0x00000008#32 →
    decode w d = .ok (.stageDen (w.extractLsb' 8 8).toNat d)) ∧
  (∀ (w : Cmd) (d : Word), w.extractLsb' 0 4 = 8#4 → (w.extractLsb' 4 4 ≠ 0#4 ∨ w.extractLsb' 16 16 ≠ 0#16) →
    decode w d = .error .reservedField) ∧
  (∀ (s : State) (k : Nat) (v : Word), s.build.n ≤ k →
    exec (.stageDen k v) s = .next { s with rsp := some ⟨.indexRange, none⟩ }) ∧
  (∀ (s : State) (k : Nat) (v : Word), k < s.build.n →
    exec (.stageDen k v) s = .next { s with stgDen := s.stgDen.set k (some v), rsp := some ⟨.ok, none⟩ }) ∧
  (∀ (s : State) (k : Nat) (u v : Word), k < s.build.n →
    runInstrs [.stageDen k u, .stageDen k v] s = exec (.stageDen k v) s) ∧
  (∀ (s t u : State) (k : Nat) (v x : Word), exec (.stageDen k v) s = .next u → exec (.filter x) s = .next t →
    exec (.filter x) u = .next { t with stgDen := u.stgDen }) ∧
  (∀ s : State, s.build = single 3 → s.stgDen.length = 3 →
    ∃ t, step (offer 0x00000008#32 0x3F800000#64 s) = .next t ∧ t.stgDen[0]? = some (some 0x3F800000#64) ∧
      t.rsp = some ⟨.ok, none⟩)

/-- R79: CONSTRUCT. -/
def Obligations.ConstructEffect : Prop :=
  (∀ (w : Cmd) (d : Word), w &&& 0xFFFFFFFF#32 = 0x00000001#32 → decode w d = .ok .construct) ∧
  (∀ (w : Cmd) (d : Word), w.extractLsb' 0 4 = 1#4 → w ≠ 0x00000001#32 → decode w d = .error .reservedField) ∧
  (∀ s : State, (none ∈ s.stgNum ∨ none ∈ s.stgDen) →
    exec .construct s = .next { s with rsp := some ⟨.stageIncomplete, none⟩ }) ∧
  (∀ (s : State) (b a : List Word), s.stgNum = b.map some → s.stgDen = a.map some →
    exec .construct s = .next { s with
        num := b, den := a, xh := List.replicate s.build.n 0#64, yh := List.replicate s.build.n 0#64,
        configured := true, rsp := some ⟨.ok, none⟩ }) ∧
  (∀ s t : State, exec .construct s = .next t → exec .construct t = .next t) ∧
  (∀ s : State, s.build = single 2 → s.stgNum.length = 2 → s.stgDen.length = 2 →
    ∃ t, runInstrs (loadCoef [0x3E800000#64, 0x3E800000#64] [0x3F800000#64, 0xBF000000#64]) s = .next t ∧
      t.num = [0x3E800000#64, 0x3E800000#64] ∧ t.den = [0x3F800000#64, 0xBF000000#64] ∧
      t.xh = [0#64, 0#64] ∧ t.yh = [0#64, 0#64] ∧ t.configured = true)

/-- R80: SET_COEFFS. -/
def Obligations.SetCoeffsEffect : Prop :=
  (∀ (w : Cmd) (d : Word), w &&& 0xFFFFFFFF#32 = 0x00000005#32 → decode w d = .ok .setCoeffs) ∧
  (∀ (w : Cmd) (d : Word), w.extractLsb' 0 4 = 5#4 → w ≠ 0x00000005#32 → decode w d = .error .reservedField) ∧
  (∀ s : State, (none ∈ s.stgNum ∨ none ∈ s.stgDen) →
    exec .setCoeffs s = .next { s with rsp := some ⟨.stageIncomplete, none⟩ }) ∧
  (∀ (s : State) (b a : List Word), s.stgNum = b.map some → s.stgDen = a.map some →
    exec .setCoeffs s = .next { s with num := b, den := a, configured := true, rsp := some ⟨.ok, none⟩ }) ∧
  (∀ s : State, s.build = single 2 → s.stgNum.length = 2 → s.stgDen.length = 2 →
    s.xh = [0x3F800000#64, 0x3F800000#64] → s.yh = [0x3F200000#64, 0x3E800000#64] →
    ∃ t u, runInstrs (swapCoef [0x3F800000#64, 0#64] [0x3F800000#64, 0#64]) s = .next t ∧ t.xh = s.xh ∧ t.yh = s.yh ∧
      exec (.filter 0x40000000#64) t = .next u ∧ u.rsp = some ⟨.ok, some 0x40000000#64⟩ ∧
      u.xh = [0x40000000#64, 0x3F800000#64] ∧ u.yh = [0x40000000#64, 0x3F200000#64])

/-- R82: FILTER, by the index loops of the pseudo-code; everything else keeps its value. (`draws` is the model's own field:
the next FILTER has a `NaNDraw` of its own, log 3.) -/
def Obligations.FilterEffect : Prop :=
  (∀ (w : Cmd) (d : Word), w &&& 0xFFFFFFFF#32 = 0x00000002#32 → decode w d = .ok (.filter d)) ∧
  (∀ (w : Cmd) (d : Word), w.extractLsb' 0 4 = 2#4 → w ≠ 0x00000002#32 → decode w d = .error .reservedField) ∧
  (∀ (s : State) (v : Word), s.configured = false →
    exec (.filter v) s = .next { s with rsp := some ⟨.notConfigured, none⟩ }) ∧
  (∀ (s : State) (v : Word), ShapeOk s → s.configured = true →
    let xs := shift s.build.n v s.xh
    let y := output (Arith.ieee s.build.fmt (nanDraw s)) s.build.macFused s.build.fbGrouping s.build.n s.num s.den xs s.yh
    exec (.filter v) s = .next { s with
        xh := xs, yh := shift s.build.n y s.yh, rsp := some ⟨.ok, some y⟩, draws := s.draws + 1 }) ∧
  (∀ s : State, s.build = single 2 → s.configured = true → s.num = [0x3E800000#64, 0x3E800000#64] →
    s.den = [0x3F800000#64, 0xBF000000#64] → s.xh = [0x3F800000#64, 0#64] → s.yh = [0x3E800000#64, 0#64] →
    ∃ t, step (offer 0x00000002#32 0x3F800000#64 s) = .next t ∧ t.rsp = some ⟨.ok, some 0x3F200000#64⟩ ∧
      t.xh = [0x3F800000#64, 0x3F800000#64] ∧ t.yh = [0x3F200000#64, 0x3E800000#64])

/-- R93: RESET. -/
def Obligations.ResetEffect : Prop :=
  (∀ (w : Cmd) (d : Word), w &&& 0xFFFFFFFF#32 = 0x00000003#32 → decode w d = .ok .reset) ∧
  (∀ (w : Cmd) (d : Word), w.extractLsb' 0 4 = 3#4 → w ≠ 0x00000003#32 → decode w d = .error .reservedField) ∧
  (∀ s : State, exec .reset s = .next { s with
      xh := List.replicate s.build.n 0#64, yh := List.replicate s.build.n 0#64, rsp := some ⟨.ok, some 0#64⟩ }) ∧
  (∀ s t : State, exec .reset s = .next t → exec .reset t = .next t ∧
    ∃ u, exec .getLast t = .next u ∧ u.rsp = some ⟨.ok, some 0#64⟩) ∧
  (∀ s : State, s.build.Legal → ∃ t, step (offer 0x00000003#32 0#64 s) = .next t ∧
    t.rsp = some ⟨.ok, some 0x00000000#64⟩)

/-- R94: FILL. The last clause, that a NaN or infinite `v` makes every later output non-finite, is under the conditions of
R88 (`N >= 2`, a finite `den[0]`), to which R94 refers. -/
def Obligations.FillEffect : Prop :=
  (∀ (w : Cmd) (d : Word), w &&& 0xFFFFFFFF#32 = 0x00000004#32 → decode w d = .ok (.fill d)) ∧
  (∀ (w : Cmd) (d : Word), w.extractLsb' 0 4 = 4#4 → w ≠ 0x00000004#32 → decode w d = .error .reservedField) ∧
  (∀ (s : State) (v : Word), exec (.fill v) s = .next { s with
      xh := List.replicate s.build.n v, yh := List.replicate s.build.n v, rsp := some ⟨.ok, some v⟩ }) ∧
  (∀ s : State, exec (.fill 0#64) s = exec .reset s) ∧
  (∀ s : State, s.build = single 2 → s.configured = true → s.num = [0x3E800000#64, 0x3E800000#64] →
    s.den = [0x3F800000#64, 0xBF000000#64] →
    ∃ t u, step (offer 0x00000004#32 0x40800000#64 s) = .next t ∧ t.rsp = some ⟨.ok, some 0x40800000#64⟩ ∧
      t.xh = [0x40800000#64, 0x40800000#64] ∧ t.yh = [0x40800000#64, 0x40800000#64] ∧
      exec (.filter 0x40800000#64) t = .next u ∧ u.rsp = some ⟨.ok, some 0x40800000#64⟩) ∧
  (∀ (s : State) (v : Word) (xs : List Word) (x : Word), ShapeOk s → 2 ≤ s.build.n → s.configured = true →
    s.build.fmt.isNonFinite (s.den.headD posZero) = false → s.build.fmt.isNonFinite v = true →
    ∃ t y, runInstrs (.fill v :: (xs ++ [x]).map .filter) s = .next t ∧ t.rsp = some ⟨.ok, some y⟩ ∧
      s.build.fmt.isNonFinite y = true)

/-- R95: GET_LAST. -/
def Obligations.GetLastEffect : Prop :=
  (∀ (w : Cmd) (d : Word), w &&& 0xFFFFFFFF#32 = 0x00000006#32 → decode w d = .ok .getLast) ∧
  (∀ (w : Cmd) (d : Word), w.extractLsb' 0 4 = 6#4 → w ≠ 0x00000006#32 → decode w d = .error .reservedField) ∧
  (∀ (s : State) (y : Word), s.yh[0]? = some y →
    exec .getLast s = .next { s with rsp := some ⟨.ok, some y⟩ }) ∧
  (∀ (s t : State) (v y : Word), exec (.filter v) s = .next t → t.rsp = some ⟨.ok, some y⟩ →
    exec .getLast t = .next t) ∧
  (∀ (s t u : State) (y : Word), s.yh[0]? = some y → exec .setCoeffs s = .next t → exec .getLast t = .next u →
    u.rsp = some ⟨.ok, some y⟩) ∧
  (∀ (s t : State) (v : Word), 1 ≤ s.build.n → (exec .reset s = .next t → t.yh[0]? = some 0#64) ∧
    (exec (.fill v) s = .next t → t.yh[0]? = some v) ∧
    (exec .construct s = .next t → t.rsp = some ⟨.ok, none⟩ → t.yh[0]? = some 0#64) ∧
    (State.powerOn s.build s.source).yh[0]? = some 0#64) ∧
  (∀ s : State, s.build = single 2 → s.yh = [0x3F200000#64, 0x3E800000#64] →
    ∃ t, step (offer 0x00000006#32 0#64 s) = .next t ∧ t.rsp = some ⟨.ok, some 0x3F200000#64⟩)

/-- The frame of every command: who writes what (the "written by" column of 10_state.md section 1). -/
def Obligations.FrameOfEveryCommand : Prop :=
  ∀ (i : Instr) (s t : State), exec i s = .next t →
    t.build = s.build ∧ t.source = s.source ∧ t.inputs = s.inputs ∧
    (i ≠ .construct → i ≠ .setCoeffs → t.num = s.num ∧ t.den = s.den ∧ t.configured = s.configured) ∧
    (i ≠ .construct → i ≠ .reset → (∀ v, i ≠ .filter v) → (∀ v, i ≠ .fill v) → t.xh = s.xh ∧ t.yh = s.yh) ∧
    ((∀ k v, i ≠ .stageNum k v) → t.stgNum = s.stgNum) ∧
    ((∀ k v, i ≠ .stageDen k v) → t.stgDen = s.stgDen) ∧
    (∀ k v, i = .stageNum k v → ∀ j, j ≠ k → t.stgNum[j]? = s.stgNum[j]?) ∧
    (∀ k v, i = .stageDen k v → ∀ j, j ≠ k → t.stgDen[j]? = s.stgDen[j]?) ∧
    ((∀ v, i ≠ .filter v) → t.draws = s.draws) ∧
    (s.configured = true → t.configured = true)

/-- A staged value is seen by no FILTER, RESET, FILL or GET_LAST: it waits for a commit (20_memory.md section 3). -/
def Obligations.StagingIsInvisibleUntilCommit : Prop :=
  ∀ (s t : State) (i : Instr) (p q : List (Option Word)),
    (i = .reset ∨ i = .getLast ∨ (∃ v, i = .filter v) ∨ ∃ v, i = .fill v) → exec i s = .next t →
    exec i { s with stgNum := p, stgDen := q } = .next { t with stgNum := p, stgDen := q }

/-- Before the first commit the live coefficients cannot be observed, and a commit replaces them (10_state.md section 3). -/
def Obligations.CoefficientsUnobservableBeforeCommit : Prop :=
  ∀ (s t : State) (i : Instr) (b a : List Word), s.configured = false → exec i s = .next t →
    ∃ t', exec i { s with num := b, den := a } = .next t' ∧ t' = { t with num := t'.num, den := t'.den } ∧
      (t.configured = true → t' = t)

/-- For `N >= 2` the oldest output `yh[N-1]` is read by no command, and a FILTER shifts it out (10_state.md section 3). With
`N = 1` it is the entry GET_LAST reads. -/
def Obligations.OldestOutputIsNeverRead : Prop :=
  ∀ (s t : State) (i : Instr) (y : Word), ShapeOk s → 2 ≤ s.build.n → exec i s = .next t →
    ∃ t', exec i { s with yh := s.yh.set (s.build.n - 1) y } = .next t' ∧ t' = { t with yh := t'.yh } ∧
      (∀ k < s.build.n - 1, t'.yh[k]? = t.yh[k]?) ∧ (∀ v, i = .filter v → s.configured = true → t' = t)

/-- Every command except FILTER is idempotent (20_memory.md section 1). -/
def Obligations.AllButFilterAreIdempotent : Prop :=
  ∀ (i : Instr) (s t : State), (∀ v, i ≠ .filter v) → exec i s = .next t → exec i t = .next t

/-- Staging commands for distinct entries may come in any order (30_encoding.md section 5). -/
def Obligations.StagingOrderDoesNotMatter : Prop :=
  ∀ (s : State) (is js : List Instr), is.Perm js → (is.map stageTarget).Nodup →
    (∀ i ∈ is, ∃ bank k, stageTarget i = some (bank, k) ∧ k < s.build.n) →
    runInstrs is s = runInstrs js s

/-- The pseudo-commands load the set they name (30_encoding.md section 5). -/
def Obligations.LoadSequencesLoadTheSet : Prop :=
  ∀ (s : State) (b a : List Word), ShapeOk s → b.length = s.build.n → a.length = s.build.n →
    runInstrs (loadCoef b a) s = .next { s with
        num := b, den := a, xh := List.replicate s.build.n 0#64, yh := List.replicate s.build.n 0#64,
        stgNum := b.map some, stgDen := a.map some, configured := true, rsp := some ⟨.ok, none⟩ } ∧
    runInstrs (swapCoef b a) s = .next { s with
        num := b, den := a, stgNum := b.map some, stgDen := a.map some, configured := true,
        rsp := some ⟨.ok, none⟩ } ∧
    ∀ v, runInstrs (initFill b a v) s = .next { s with
        num := b, den := a, xh := List.replicate s.build.n v, yh := List.replicate s.build.n v,
        stgNum := b.map some, stgDen := a.map some, configured := true, rsp := some ⟨.ok, some v⟩ }

/-! ### FILTER -/

/-- In exact arithmetic FILTER is the canonical difference equation, whatever the grouping and fusion
(42_filter_step.md, Supporting rules). -/
def Obligations.FilterIsTheDifferenceEquation : Prop :=
  ∀ (K : Type) [Field K] (fused : Bool) (g : FbGrouping) (n : Nat) (num den xs yh : List K), num.length = n →
    den.length = n → xs.length = n → yh.length = n →
    filterOutput (Arith.exact K) fused g num den xs yh =
      (∑ k ∈ Finset.range n, num.getD k 0 * xs.getD k 0 -
        ∑ k ∈ Finset.range (n - 1), den.getD (k + 1) 0 * yh.getD k 0) / den.getD 0 0

/-- The transfer function of a section in exact arithmetic: `den(z) * Y(z) = num(z) * X(z)`. -/
def Obligations.TransferFunctionOfASection : Prop :=
  ∀ (K : Type) [Field K] (fused : Bool) (g : FbGrouping) (num den : List K) (x y : Nat → K),
    num.length = den.length → den.getD 0 0 ≠ 0 → Runs fused g num den x y →
    series den * PowerSeries.mk y = series num * PowerSeries.mk x

/-- The transfer function of a cascade in exact arithmetic is the product of its sections' (44_cascade.md), whatever the
length and the roundings of each. -/
def Obligations.TransferFunctionOfACascade : Prop :=
  ∀ (K : Type) [Field K] (sections : List (Section K)) (signal : Nat → Nat → K),
    (∀ i c, sections[i]? = some c → c.num.length = c.den.length ∧ c.den.getD 0 0 ≠ 0 ∧
      Runs c.fused c.grouping c.num c.den (signal i) (signal (i + 1))) →
    (sections.map fun c => series c.den).prod * PowerSeries.mk (signal sections.length) =
      (sections.map fun c => series c.num).prod * PowerSeries.mk (signal 0)

/-- With unity DC gain, FILTER `v` after FILL `v` returns `v` in exact arithmetic (C5). -/
def Obligations.DcSeedingInExactArithmetic : Prop :=
  ∀ (K : Type) [Field K] (fused : Bool) (g : FbGrouping) (n : Nat) (num den : List K) (v : K), num.length = n →
    den.length = n → den.getD 0 0 ≠ 0 → num.sum = den.sum →
    filterOutput (Arith.exact K) fused g num den (shiftIn v (List.replicate n v)) (List.replicate n v) = v

/-- The result of rounding is nearest, ties to even, with overflow to infinity (00_scope.md section 4). Where overflow begins is
IEEE 754's, which the spec takes from general knowledge (PRESUMED, log 10). -/
def Obligations.RoundingIsNearestEven : Prop :=
  ∀ (f : Format) (neg : Bool) (n d : Nat) (e : Int), d ≠ 0 →
    NearestEven f ((if neg then -1 else 1) * ((n : ℚ) / d) * (2 : ℚ) ^ e) (f.roundQuot neg n d e)

/-- Every operation on finite numbers is the exact result rounded once (00_scope.md section 4), and has the sign of the exact
result; which zero an exact zero is, is IEEE 754's, which the spec takes from general knowledge (PRESUMED, log 10). -/
def Obligations.ArithmeticIsCorrectlyRounded : Prop :=
  ∀ (f : Format) (draw a b c : Word) (x y z : ℚ), f.toRat a = some x → f.toRat b = some y → f.toRat c = some z →
    NearestEven f (x + y) (f.fadd draw a b) ∧ NearestEven f (x - y) (f.fsub draw a b) ∧
    NearestEven f (x * y) (f.fmul draw a b) ∧ (y ≠ 0 → NearestEven f (x / y) (f.fdiv draw a b)) ∧
    NearestEven f (x * y + z) (f.fma draw a b c) ∧ f.toRat (f.fneg a) = some (-x) ∧
    HasSign f (x + y) (f.signOf a && f.signOf b) (f.fadd draw a b) ∧
    HasSign f (x - y) (f.signOf a && !f.signOf b) (f.fsub draw a b) ∧
    HasSign f (x * y) (f.signOf a ^^ f.signOf b) (f.fmul draw a b) ∧
    (y ≠ 0 → HasSign f (x / y) (f.signOf a ^^ f.signOf b) (f.fdiv draw a b)) ∧
    HasSign f (x * y + z) ((f.signOf a ^^ f.signOf b) && f.signOf c) (f.fma draw a b c) ∧
    f.signOf (f.fneg a) = !f.signOf a

/-- Every operation on an infinity that is not invalid, and the quotient of a number by a zero (00_scope.md section 4). The rules
of IEEE 754 are the spec's from general knowledge (PRESUMED, log 10). -/
def Obligations.ArithmeticOnInfinities : Prop :=
  ∀ (f : Format) (draw a b c : Word),
    let sa := f.signOf a
    let sb := f.signOf b
    let sc := f.signOf c
    let numB := f.isNonFinite b = false
    (IsInf f a → (numB ∨ (IsInf f b ∧ sa = sb)) →
      IsInfOf f sa (f.fadd draw a b) ∧ IsInfOf f sa (f.fadd draw b a)) ∧
    (IsInf f a → (numB ∨ (IsInf f b ∧ sa ≠ sb)) →
      IsInfOf f sa (f.fsub draw a b) ∧ IsInfOf f (!sa) (f.fsub draw b a)) ∧
    (IsInf f a → f.isNaN b = false → f.isZero b = false →
      IsInfOf f (sa ^^ sb) (f.fmul draw a b) ∧ IsInfOf f (sa ^^ sb) (f.fmul draw b a) ∧
      (f.isNonFinite c = false ∨ (IsInf f c ∧ sc = (sa ^^ sb)) →
        IsInfOf f (sa ^^ sb) (f.fma draw a b c) ∧ IsInfOf f (sa ^^ sb) (f.fma draw b a c))) ∧
    (f.isNonFinite a = false → numB → IsInf f c → IsInfOf f sc (f.fma draw a b c)) ∧
    (IsInf f a → numB → IsInfOf f (sa ^^ sb) (f.fdiv draw a b) ∧ f.fdiv draw b a = f.pack (sa ^^ sb) 0) ∧
    (f.isNonFinite a = false → f.isZero a = false → f.isZero b = true → IsInfOf f (sa ^^ sb) (f.fdiv draw a b)) ∧
    (IsInf f a → IsInfOf f (!sa) (f.fneg a))

/-- Every invalid operation, and every operation on a NaN, gives the draw (00_scope.md section 4). The rules of IEEE 754 are
the spec's from general knowledge (log 10). -/
def Obligations.InvalidOperationsGiveTheDraw : Prop :=
  ∀ (f : Format) (draw a b c : Word),
    (f.isNaN a = true ∨ f.isNaN b = true →
      f.fadd draw a b = draw ∧ f.fsub draw a b = draw ∧ f.fmul draw a b = draw ∧ f.fdiv draw a b = draw ∧
      f.fma draw a b c = draw) ∧
    (f.isNaN c = true → f.fma draw a b c = draw) ∧
    (IsInf f a → IsInf f b → (f.signOf a ≠ f.signOf b → f.fadd draw a b = draw) ∧
      (f.signOf a = f.signOf b → f.fsub draw a b = draw) ∧ f.fdiv draw a b = draw) ∧
    (IsInf f a → f.isZero b = true → f.fmul draw a b = draw ∧ f.fmul draw b a = draw ∧ f.fma draw a b c = draw ∧
      f.fma draw b a c = draw) ∧
    (IsInf f a → IsInf f c → (f.signOf a ^^ f.signOf b) ≠ f.signOf c →
      f.fma draw a b c = draw ∧ f.fma draw b a c = draw) ∧
    (f.isZero a = true → f.isZero b = true → f.fdiv draw a b = draw)

/-- FILTER agrees with exact arithmetic whenever every intermediate value is representable (42_filter_step.md, Supporting
rules). -/
def Obligations.FilterAgreesWithExactArithmetic : Prop :=
  ∀ (f : Format) (draw : Word) (fused : Bool) (g : FbGrouping) (n : Nat) (num den xs yh : List Word)
    (numQ denQ xsQ yhQ : List ℚ), numQ.length = n → denQ.length = n → xsQ.length = n → yhQ.length = n →
    num.map f.toRat = numQ.map some → den.map f.toRat = denQ.map some → xs.map f.toRat = xsQ.map some →
    yh.map f.toRat = yhQ.map some → denQ.getD 0 0 ≠ 0 →
    IntermediatesRepresentable f fused g n (numQ.getD · 0) (denQ.getD · 0) (xsQ.getD · 0) (yhQ.getD · 0) →
    f.toRat (filterOutput (Arith.ieee f draw) fused g num den xs yh) =
      some (filterOutput (Arith.exact ℚ) fused g numQ denQ xsQ yhQ)

/-- A NaN output is the `NaNDraw` of that step, a quiet NaN of the format (00_scope.md sections 3 and 4). It holds for every
value of the free draw (log 3). -/
def Obligations.FilterNaNIsTheDraw : Prop :=
  ∀ (s t : State) (v y : Word), exec (.filter v) s = .next t → t.rsp = some ⟨.ok, some y⟩ →
    s.build.fmt.Fits y ∧ (s.build.fmt.isNaN y = true → y = nanDraw s ∧ s.build.fmt.isQuietNaN y = true)

/-- A zero `den[0]`: the consequences R87 draws from R82 and IEEE 754 (the spec marks them as general knowledge; log 10).
FILTER still responds OK and writes `y` into `yh[0]`. -/
def Obligations.ZeroDivisor : Prop :=
  ∀ (s : State) (v : Word), s.configured = true → s.build.fmt.isZero (s.den.headD posZero) = true →
    let acc := filterAcc (arithOf s) s.build.macFused s.build.fbGrouping s.num s.den (shiftIn v s.xh) s.yh
    ∃ y, exec (.filter v) s = .next { s with
        xh := shiftIn v s.xh, yh := shiftIn y s.yh, rsp := some ⟨.ok, some y⟩, draws := s.draws + 1 } ∧
      y = s.build.fmt.fdiv (nanDraw s) acc (s.den.headD posZero) ∧
      (s.build.fmt.isZero acc = false → s.build.fmt.isNaN acc = false →
        y = s.build.fmt.pack (s.build.fmt.signOf acc ^^ s.build.fmt.signOf (s.den.headD posZero)) s.build.fmt.infMag) ∧
      (s.build.fmt.isZero acc = true ∨ s.build.fmt.isNaN acc = true → y = nanDraw s)

/-- A non-finite output makes every later output non-finite, as long as only FILTER commands follow (42_filter_step.md,
Supporting rules; 70_reset_and_hazards.md section 3). The sample is stored as given. -/
def Obligations.NonFiniteOutputsLatch : Prop :=
  ∀ (s : State) (k : Nat) (w : Word), ShapeOk s → 2 ≤ s.build.n → s.configured = true →
    s.build.fmt.isNonFinite (s.den.headD posZero) = false → k < s.build.n - 1 → s.yh[k]? = some w →
    s.build.fmt.isNonFinite w = true → ∀ (vs : List Word) (v : Word),
      ∃ t y, runInstrs ((vs ++ [v]).map .filter) s = .next t ∧ t.rsp = some ⟨.ok, some y⟩ ∧
        s.build.fmt.isNonFinite y = true ∧ t.xh[0]? = some v

/-- Zero inputs give zero outputs, from zero histories, with finite coefficients and a positive `den[0]`
(42_filter_step.md, Supporting rules). -/
def Obligations.ZeroInputGivesZeroOutput : Prop :=
  ∀ (s : State) (zs : List Word), ShapeOk s → s.configured = true →
    (∀ c ∈ s.num ++ s.den, s.build.fmt.isNonFinite c = false) →
    s.build.fmt.flt posZero (s.den.headD posZero) = true → s.xh = List.replicate s.build.n posZero →
    s.yh = List.replicate s.build.n posZero → (∀ z ∈ zs, s.build.fmt.isZero z = true) →
    ∃ t, runInstrs (zs.map .filter) s = .next t ∧ t.yh = List.replicate s.build.n posZero ∧
      (zs ≠ [] → t.rsp = some ⟨.ok, some posZero⟩)

/-- Unfused, the accumulator is never `-0`, after the feed-forward sum or after the feedback (42_filter_step.md, Supporting
rules). -/
def Obligations.UnfusedAccumulatorIsNeverMinusZero : Prop :=
  ∀ (f : Format) (bits : Word) (g : FbGrouping) (num den xs yh : List Word),
    macSum (Arith.ieee f (f.quietNaN bits)) false posZero num xs ≠ f.pack true 0 ∧
    filterAcc (Arith.ieee f (f.quietNaN bits)) false g num den xs yh ≠ f.pack true 0

/-- Fused, the accumulator can be `-0`: a tiny negative product is rounded away only with the sum. R86 remarks that it never is;
that R82 counts, and not the remark, is the model's choice (DESIGN CHOICE, log 23). -/
def Obligations.FusedAccumulatorCanBeMinusZero : Prop :=
  ∀ draw : Word, macSum (Arith.ieee .binary32 draw) true posZero [0x0D800000#64] [0x8D800000#64] =
    Format.pack .binary32 true 0

/-- Zero products give `acc = +0`, and `y` a zero of the sign of `den[0]`, for every build (42_filter_step.md, Supporting
rules). -/
def Obligations.ZeroProductsGiveASignedZero : Prop :=
  ∀ (f : Format) (draw : Word) (fused : Bool) (g : FbGrouping) (num den xs yh : List Word),
    (∀ p ∈ num.zip xs, ZeroProduct f draw fused p.1 p.2) → (∀ p ∈ den.tail.zip yh, ZeroProduct f draw fused p.1 p.2) →
    filterAcc (Arith.ieee f draw) fused g num den xs yh = posZero ∧
    (f.flt posZero (den.headD posZero) = true →
      filterOutput (Arith.ieee f draw) fused g num den xs yh = posZero) ∧
    (f.flt (den.headD posZero) posZero = true →
      filterOutput (Arith.ieee f draw) fused g num den xs yh = f.pack true 0)

/-- `N = 1`: the consequences R90 derives from R82 and R61. -/
def Obligations.SingleCoefficientFilter : Prop :=
  (∀ (s : State) (v c d : Word), ShapeOk s → s.build.n = 1 → s.configured = true → s.num = [c] → s.den = [d] →
    let A := Arith.ieee s.build.fmt (nanDraw s)
    let y := A.div (if s.build.macFused then A.fma c v 0#64 else A.add 0#64 (A.mul c v)) d
    exec (.filter v) s = .next { s with xh := [v], yh := [y], rsp := some ⟨.ok, some y⟩, draws := s.draws + 1 }) ∧
  (∀ (f : Format) (draw a : Word), f.Fits a → f.isNaN a = false → f.fsub draw a 0#64 = a) ∧
  ∀ (order : Nat) (t : FilterType), 1 ≤ order → numCoefficients order t ≠ 1

/-! ### Implementations, cascades, the designer -/

/-- A ring engine answers every command as the engine of the spec does, and stays a ring engine: so the head is not
observable (10_state.md section 5). -/
def Obligations.RingRefinesTheEngine : Prop :=
  ∀ (c : RingEngine) (i : Instr), c.Ok → ShapeOk c.view →
    exec i c.view = viewOutcome (ringExec i c) ∧ ∃ c', ringExec i c = .next c' ∧ c'.Ok ∧ ShapeOk c'.view

/-- One cascade sample step is FILTER to each section in turn (44_cascade.md). -/
def Obligations.CascadeStepIsTheHostSequence : Prop :=
  ∀ (f : Format) (v : Word) (ss : List State), IsCascade f ss → (∀ s ∈ ss, EngineInv s ∧ s.configured = true) → f.Fits v →
    ∃ (ts : List State) (ys : List Word), ts.length = ss.length ∧ ys.length = ss.length ∧
      cFilter v ss = .next ⟨ts, ys.getLast?⟩ ∧
      ∀ (i : Nat) (s : State), ss[i]? = some s → ∃ t, ts[i]? = some t ∧
        exec (.filter ((v :: ys).getD i posZero)) s = .next t ∧ t.rsp = some ⟨.ok, ys[i]?⟩

/-- A cascade step stops at the first section that rejects: the sections before it have stepped, those after it are
untouched, and there is no output (44_cascade.md). -/
def Obligations.CascadeStopsAtTheFirstRejection : Prop :=
  ∀ (f : Format) (v : Word) (before after : List State) (s : State), IsCascade f (before ++ s :: after) →
    (∀ x ∈ before ++ s :: after, EngineInv x) → (∀ x ∈ before, x.configured = true) → s.configured = false → f.Fits v →
    ∃ (ts : List State) (ys : List Word), ts.length = before.length ∧ ys.length = before.length ∧
      cFilter v (before ++ s :: after) =
        .next ⟨ts ++ { s with rsp := some ⟨.notConfigured, none⟩ } :: after, none⟩ ∧
      ∀ (i : Nat) (x : State), before[i]? = some x → ∃ t, ts[i]? = some t ∧
        exec (.filter ((v :: ys).getD i posZero)) x = .next t ∧ t.rsp = some ⟨.ok, ys[i]?⟩

/-- The host may issue commands to the sections in any order (R47, R97): each section is then as its own commands leave it, and
the sections are still a cascade. A sample step with other commands issued between is such a run: each section's FILTER finds
what those commands left, and with none between it is the plain sample step. -/
def Obligations.CascadeCommandsObeyTheirOwnRules : Prop :=
  (∀ (f : Format) (ss : List State) (cs : List (Nat × Instr)), IsCascade f ss → (∀ s ∈ ss, EngineInv s) →
    (∀ c ∈ cs, c.2.WellFormed f = true) →
    ∃ ts rs, hostRun cs ss = .next (ts, rs) ∧ ts.length = ss.length ∧ rs.length = cs.length ∧ IsCascade f ts ∧
      (∀ t ∈ ts, EngineInv t) ∧
      ∀ (k : Nat) (s : State), ss[k]? = some s → ∃ t, ts[k]? = some t ∧
        runInstrs ((cs.filter fun c => c.1 = k).map (·.2)) s = .next t) ∧
  (∀ (v : Word) (ss : List State), cFilterAmid 0 v (List.replicate ss.length []) ss = cFilter v ss) ∧
  ∀ (f : Format) (k : Nat) (v : Word) (others : List (Nat × Instr)) (between : List (List (Nat × Instr)))
    (ss ts : List State) (rs : List (Option Response)) (s : State), IsCascade f ss → (∀ s ∈ ss, EngineInv s) → f.Fits v →
    (∀ c ∈ others, c.2.WellFormed f = true) → hostRun others ss = .next (ts, rs) → ts[k]? = some s →
    (s.configured = true → ∃ t y, exec (.filter v) s = .next t ∧ t.rsp = some ⟨.ok, some y⟩ ∧
      cFilterAmid k v (others :: between) ss = cFilterAmid (k + 1) y between (ts.set k t)) ∧
    (s.configured = false → cFilterAmid k v (others :: between) ss =
      .next ⟨ts.set k { s with rsp := some ⟨.notConfigured, none⟩ }, none⟩)

/-- CRESET and CFILL are RESET and FILL to every section (44_cascade.md). -/
def Obligations.CascadeResetAndFill : Prop :=
  ∀ (f : Format) (v : Word) (ss : List State), IsCascade f ss → (∀ s ∈ ss, s.build.Legal) → f.Fits v →
    cReset ss = .next (ss.map fun s => { s with
        xh := List.replicate s.build.n 0#64, yh := List.replicate s.build.n 0#64, rsp := some ⟨.ok, some 0#64⟩ }) ∧
    cFill v ss = .next (ss.map fun s => { s with
        xh := List.replicate s.build.n v, yh := List.replicate s.build.n v, rsp := some ⟨.ok, some v⟩ })

/-- A design has exactly as many entries as its order and type ask for, and the second edge of a type that has one is ignored
(40_host_designer.md section 1). -/
def Obligations.DesignHasTheRightLengths : Prop :=
  (∀ (L : HostLib) (P : DesignerParams) (c : DesignCall) (e : Word), c.type = .lowpass ∨ c.type = .highpass →
    design L P { c with edge2 := e } = design L P c) ∧
  ∀ (L : HostLib) (P : DesignerParams) (c : DesignCall) (r : CoefficientSet), design L P c = .ok r →
    r.num.length = (match c.type with
      | .lowpass => c.order + 1 | .highpass => c.order + 1 | .bandpass => 2 * c.order + 1 | .bandstop => 2 * c.order + 1) ∧
    r.den.length = r.num.length

/-- R73: an invalid call is refused. And with no tolerance set, every other call with a sample time above zero has a result
(R59, R69, R74); that this takes in infinite sample times and infinite or NaN edges is the model's choice (log 17). -/
def Obligations.DesignRefusesInvalidCalls : Prop :=
  ∀ (L : HostLib) (P : DesignerParams) (c : DesignCall),
    (c.order = 0 ∨ Format.binary64.fle c.sampleTime posZero = true ∨
      (c.type.isBand = true ∧ Format.binary64.fle c.edge2 c.edge1 = true) → ∃ r, design L P c = .error r) ∧
    (P.imagTol = none → c.order ≠ 0 → Format.binary64.flt posZero c.sampleTime = true →
      (c.type.isBand = true → Format.binary64.fle c.edge2 c.edge1 = false) → ∃ r, design L P c = .ok r)

/-- A call above the Nyquist frequency returns any coefficient set of the right length, and is not refused
(40_host_designer.md sections 1 and 3): whatever sets of the right lengths are given, one for each choice of the open
parameters and each call (its ignored edge left out), all of them are the results at once for some choice of the free values.
Two things here are the model's choice (DESIGN CHOICE, log 16): that the Nyquist test is made in binary64 on the computed half
angle, and that the results are free for each call and each choice of the open parameters, all at once. -/
def Obligations.ResultAboveNyquistIsAnySet : Prop :=
  ∀ (L : HostLib) (sets : DesignerParams → DesignCall → CoefficientSet),
    (∀ P c, (sets P c).num.length = numCoefficients c.order c.type ∧
      (sets P c).den.length = numCoefficients c.order c.type) →
    ∃ nyq, ∀ (P : DesignerParams) (c : DesignCall), c.order ≠ 0 → Format.binary64.flt posZero c.sampleTime = true →
      (c.type.isBand = true → Format.binary64.fle c.edge2 c.edge1 = false) → c.aboveNyquist L = true →
      (∃ r, design L P c = .ok r) ∧ design { L with nyquist := nyq } P c = .ok (sets P c.normal)

/-- `den[0] = 1` for every design that is not above the Nyquist frequency (40_host_designer.md section 2). That `0*r` is not
computed for the absent entry, which a root that is infinite or NaN would show, is the model's reading (DEDUCED, log 15). -/
def Obligations.DesignLeadingDenominatorIsOne : Prop :=
  ∀ (L : HostLib) (P : DesignerParams) (c : DesignCall) (r : CoefficientSet), c.aboveNyquist L = false →
    design L P c = .ok r → r.den[0]? = some 0x3FF0000000000000#64

/-- The discrete zeros, in order (40_host_designer.md section 2). That `e^(-jx)` is `(cos x, -sin x)`, from the library calls of
`e^(+jx)`, is the model's choice (DESIGN CHOICE, log 13). -/
def Obligations.DesignZeros : Prop :=
  ∀ (L : HostLib) (P : DesignerParams) (c : DesignCall),
    let ω := match P.centerEdges with
      | .warped => L.sqrt (L.arith.mul (warp L c.sampleTime c.edge1) (warp L c.sampleTime c.edge2))
      | .raw => L.sqrt (L.arith.mul c.edge1 c.edge2)
    let x := L.arith.mul ω c.sampleTime
    let one : Cplx := ⟨0x3FF0000000000000#64, 0#64⟩
    let minus : Cplx := ⟨0xBFF0000000000000#64, 0#64⟩
    let zs := discreteZeros L P c
    (c.type = .lowpass → zs.length = c.order ∧ ∀ k < c.order, zs[k]? = some minus) ∧
    (c.type = .highpass → zs.length = c.order ∧ ∀ k < c.order, zs[k]? = some one) ∧
    (c.type = .bandpass → zs.length = 2 * c.order ∧
      ∀ k < c.order, zs[2 * k]? = some one ∧ zs[2 * k + 1]? = some minus) ∧
    (c.type = .bandstop → zs.length = 2 * c.order ∧
      ∀ k < c.order, zs[2 * k]? = some ⟨L.cos x, L.sin x⟩ ∧
        zs[2 * k + 1]? = some ⟨L.cos x, Format.binary64.fneg (L.sin x)⟩)

/-- R75 (b): a design has gain 1 at its reference frequency, within `10^-6`, exactly evaluated on the coefficients as they are
stored, for every library whose `|H|` came out well (`GainComputedWell`: the spec fixes no accuracy of the library, so what
is asked of it is the model's choice, log 27). -/
def Obligations.DesignHasUnityGain : Prop :=
  ∀ (L : HostLib) (P : DesignerParams) (c : DesignCall) (r : CoefficientSet) (ω ts g : ℚ) (bn a num den : List ℚ),
    design L P c = .ok r → c.aboveNyquist L = false →
    Format.binary64.toRat (referenceFrequency L P c) = some ω → Format.binary64.toRat c.sampleTime = some ts →
    GainComputedWell L (referenceFrequency L P c) c.sampleTime
      ((expandRoots L.arith (discreteZeros L P c)).map Cplx.re) ((expandRoots L.arith (discretePoles L P c)).map Cplx.re)
      ((ω * ts : ℚ) : ℝ) bn a g →
    r.num.map Format.binary64.toRat = num.map some → r.den.map Format.binary64.toRat = den.map some →
    |exactGain ((ω * ts : ℚ) : ℝ) num den - 1| ≤ 1 / 10 ^ 6
end

