-- ==== Sys2Proof/Laws/Ieee.lean ====
section
/-! SUPPORT. Lemmas about the encodings and the IEEE operations: what packing and unpacking give, that every operation
answers a `W`-bit word, that the only NaN an operation answers is the draw, and how special values pass through. -/

namespace Sys2Proof

theorem Format.signMag_pos (f : Format) : 0 < f.signMag := by cases f <;> decide

theorem Format.infMag_lt_signMag (f : Format) : f.infMag < f.signMag := by cases f <;> decide

theorem Format.two_mul_signMag (f : Format) : 2 * f.signMag = 2 ^ f.width := by cases f <;> decide

theorem Format.width_le (f : Format) : 2 ^ f.width ≤ 2 ^ 64 := by cases f <;> decide

theorem Format.infMag_eq (f : Format) : f.infMag = (2 ^ f.expBits - 1) * 2 ^ f.fracBits := rfl

theorem Format.bitsOf_lt (f : Format) (w : Word) : f.bitsOf w < 2 ^ f.width :=
  Nat.mod_lt _ (Nat.two_pow_pos _)

theorem Format.magOf_lt (f : Format) (w : Word) : f.magOf w < f.signMag :=
  Nat.mod_lt _ f.signMag_pos

theorem Format.bitsOf_of_fits {f : Format} {w : Word} (h : f.Fits w) : f.bitsOf w = w.toNat :=
  Nat.mod_eq_of_lt h

theorem Format.pack_toNat (f : Format) (neg : Bool) {mag : Nat} (h : mag < f.signMag) :
    (f.pack neg mag).toNat = (if neg then f.signMag else 0) + mag := by
  have h1 := f.two_mul_signMag
  have h2 := f.width_le
  unfold Format.pack
  rw [BitVec.toNat_ofNat]
  apply Nat.mod_eq_of_lt
  split <;> omega

theorem Format.fits_pack (f : Format) (neg : Bool) {mag : Nat} (h : mag < f.signMag) :
    f.Fits (f.pack neg mag) := by
  have h1 := f.two_mul_signMag
  unfold Format.Fits
  rw [f.pack_toNat neg h]
  split <;> omega

theorem Format.bitsOf_pack (f : Format) (neg : Bool) {mag : Nat} (h : mag < f.signMag) :
    f.bitsOf (f.pack neg mag) = (if neg then f.signMag else 0) + mag := by
  rw [Format.bitsOf_of_fits (f.fits_pack neg h), f.pack_toNat neg h]

theorem Format.signOf_pack (f : Format) (neg : Bool) {mag : Nat} (h : mag < f.signMag) :
    f.signOf (f.pack neg mag) = neg := by
  unfold Format.signOf
  rw [f.bitsOf_pack neg h]
  cases neg
  · simpa using h
  · simp

theorem Format.magOf_pack (f : Format) (neg : Bool) {mag : Nat} (h : mag < f.signMag) :
    f.magOf (f.pack neg mag) = mag := by
  unfold Format.magOf
  rw [f.bitsOf_pack neg h]
  cases neg <;> simp [Nat.mod_eq_of_lt h]

/-- A word of the format is the packing of its sign and magnitude. -/
theorem Format.pack_signOf_magOf {f : Format} {w : Word} (h : f.Fits w) :
    f.pack (f.signOf w) (f.magOf w) = w := by
  have h1 := f.two_mul_signMag
  apply BitVec.eq_of_toNat_eq
  rw [f.pack_toNat _ (f.magOf_lt w)]
  unfold Format.magOf Format.signOf
  rw [Format.bitsOf_of_fits h]
  unfold Format.Fits at h
  by_cases hs : f.signMag ≤ w.toNat
  · simp only [hs, decide_true, if_true]
    rw [Nat.mod_eq_sub_mod hs, Nat.mod_eq_of_lt (by omega)]
    omega
  · simp only [hs, decide_false, Bool.false_eq_true, if_false]
    rw [Nat.mod_eq_of_lt (by omega)]
    omega

theorem Format.eq_of_sign_mag {f : Format} {v w : Word} (hv : f.Fits v) (hw : f.Fits w)
    (hs : f.signOf v = f.signOf w) (hm : f.magOf v = f.magOf w) : v = w := by
  rw [← Format.pack_signOf_magOf hv, ← Format.pack_signOf_magOf hw, hs, hm]

theorem Format.roundMag_le (f : Format) (n d : Nat) (e : Int) : f.roundMag n d e ≤ f.infMag := by
  unfold Format.roundMag
  split
  · exact Nat.zero_le _
  · exact Nat.min_le_left _ _

theorem Format.roundMag_lt (f : Format) (n d : Nat) (e : Int) : f.roundMag n d e < f.signMag :=
  Nat.lt_of_le_of_lt (f.roundMag_le n d e) f.infMag_lt_signMag

@[simp] theorem Format.roundMag_zero (f : Format) (d : Nat) (e : Int) : f.roundMag 0 d e = 0 := by
  simp [Format.roundMag]

theorem Format.fits_roundQuot (f : Format) (neg : Bool) (n d : Nat) (e : Int) :
    f.Fits (f.roundQuot neg n d e) := f.fits_pack neg (f.roundMag_lt n d e)

theorem Format.isNaN_pack (f : Format) (neg : Bool) {mag : Nat} (h : mag ≤ f.infMag) :
    f.isNaN (f.pack neg mag) = false := by
  unfold Format.isNaN
  rw [f.magOf_pack neg (Nat.lt_of_le_of_lt h f.infMag_lt_signMag)]
  simp [h]

theorem Format.isNaN_roundQuot (f : Format) (neg : Bool) (n d : Nat) (e : Int) :
    f.isNaN (f.roundQuot neg n d e) = false := f.isNaN_pack neg (f.roundMag_le n d e)

theorem Format.quiet_lt (f : Format) (bits : Word) :
    f.infMag + 2 ^ (f.fracBits - 1) + f.bitsOf bits % 2 ^ (f.fracBits - 1) < f.signMag := by
  have h : f.bitsOf bits % 2 ^ (f.fracBits - 1) < 2 ^ (f.fracBits - 1) := Nat.mod_lt _ (Nat.two_pow_pos _)
  have h2 : f.infMag + 2 ^ (f.fracBits - 1) + 2 ^ (f.fracBits - 1) ≤ f.signMag := by cases f <;> decide
  omega

theorem Format.fits_quietNaN (f : Format) (bits : Word) : f.Fits (f.quietNaN bits) :=
  f.fits_pack _ (f.quiet_lt bits)

theorem Format.magOf_quietNaN (f : Format) (bits : Word) : f.magOf (f.quietNaN bits) =
    f.infMag + 2 ^ (f.fracBits - 1) + f.bitsOf bits % 2 ^ (f.fracBits - 1) :=
  f.magOf_pack _ (f.quiet_lt bits)

@[simp] theorem Format.isNaN_quietNaN (f : Format) (bits : Word) : f.isNaN (f.quietNaN bits) = true := by
  have : 0 < 2 ^ (f.fracBits - 1) := Nat.two_pow_pos _
  simp only [Format.isNaN, f.magOf_quietNaN, decide_eq_true_eq]
  omega

/-! What an encoding unpacks to. -/

theorem Format.unpack_eq_nan_iff (f : Format) (w : Word) : f.unpack w = .nan ↔ f.isNaN w = true := by
  unfold Format.unpack Format.isNaN
  split
  · simp_all
  · split
    · simp_all
    · unfold Format.unpackFinite
      split <;> simp_all

theorem Format.unpack_of_nan {f : Format} {w : Word} (h : f.isNaN w = true) : f.unpack w = .nan :=
  (f.unpack_eq_nan_iff w).2 h

theorem Format.unpack_of_inf {f : Format} {w : Word} (h : f.magOf w = f.infMag) :
    f.unpack w = .inf (f.signOf w) := by
  simp [Format.unpack, h]

theorem Format.unpack_of_finite {f : Format} {w : Word} (h : f.isNonFinite w = false) :
    f.unpack w = f.unpackFinite (f.signOf w) (f.magOf w) := by
  have h' : f.magOf w < f.infMag := by simpa [Format.isNonFinite] using h
  simp [Format.unpack, Nat.not_lt_of_lt h', Nat.ne_of_lt h']

/-- A finite word unpacks to a finite value of its own sign, whose mantissa is zero only for a zero. -/
theorem Format.unpack_finite_cases {f : Format} {w : Word} (h : f.isNonFinite w = false) :
    ∃ m e, f.unpack w = .fin (f.signOf w) m e ∧ (m = 0 ↔ f.magOf w = 0) ∧ f.lsbExp ≤ e := by
  rw [Format.unpack_of_finite h]
  unfold Format.unpackFinite
  have hp : 0 < 2 ^ f.fracBits := Nat.two_pow_pos _
  split
  · exact ⟨_, _, rfl, Iff.rfl, le_refl _⟩
  · rename_i hne
    refine ⟨_, _, rfl, ⟨fun h0 => by omega, fun h0 => ?_⟩, ?_⟩
    · rw [h0] at hne
      simp at hne
    · generalize f.magOf w / 2 ^ f.fracBits = q at hne ⊢
      omega

theorem Format.unpack_of_zero {f : Format} {w : Word} (h : f.isZero w = true) :
    f.unpack w = .fin (f.signOf w) 0 f.lsbExp := by
  have h0 : f.magOf w = 0 := by simpa [Format.isZero] using h
  have hi : 0 < f.infMag := by cases f <;> decide
  unfold Format.unpack Format.unpackFinite
  rw [h0]
  simp [Nat.ne_of_lt hi]

theorem Format.isNonFinite_of_isNaN {f : Format} {w : Word} (h : f.isNaN w = true) : f.isNonFinite w = true := by
  simp only [Format.isNaN, Format.isNonFinite, decide_eq_true_eq] at *
  omega

/-- A non-finite word is a NaN or an infinity. -/
theorem Format.nonFinite_cases {f : Format} {w : Word} (h : f.isNonFinite w = true) :
    f.unpack w = .nan ∨ f.unpack w = .inf (f.signOf w) := by
  have h' : f.infMag ≤ f.magOf w := by simpa [Format.isNonFinite] using h
  rcases Nat.lt_or_ge f.infMag (f.magOf w) with h1 | h1
  · exact .inl (by simp [Format.unpack, h1])
  · exact .inr (Format.unpack_of_inf (by omega))

theorem Format.isNonFinite_iff (f : Format) (w : Word) :
    f.isNonFinite w = true ↔ f.unpack w = .nan ∨ ∃ a, f.unpack w = .inf a := by
  constructor
  · intro h
    rcases Format.nonFinite_cases h with h | h
    · exact .inl h
    · exact .inr ⟨_, h⟩
  · intro h
    by_contra hn
    obtain ⟨m, e, he, -⟩ := Format.unpack_finite_cases (by simpa using hn)
    rw [he] at h
    simp at h

@[simp] theorem Format.isNonFinite_pack_inf (f : Format) (neg : Bool) :
    f.isNonFinite (f.pack neg f.infMag) = true := by
  simp [Format.isNonFinite, f.magOf_pack neg f.infMag_lt_signMag]

@[simp] theorem Format.unpack_pack_inf (f : Format) (neg : Bool) : f.unpack (f.pack neg f.infMag) = .inf neg := by
  rw [Format.unpack_of_inf (f.magOf_pack neg f.infMag_lt_signMag), f.signOf_pack neg f.infMag_lt_signMag]

@[simp] theorem Format.unpack_pack_zero (f : Format) (neg : Bool) :
    f.unpack (f.pack neg 0) = .fin neg 0 f.lsbExp := by
  have h : f.isZero (f.pack neg 0) = true := by simp [Format.isZero, f.magOf_pack neg f.signMag_pos]
  rw [Format.unpack_of_zero h, f.signOf_pack neg f.signMag_pos]

theorem Format.pack_false_zero (f : Format) : f.pack false 0 = Machine.posZero := by
  simp [Format.pack, Machine.posZero]

@[simp] theorem Format.unpack_posZero (f : Format) : f.unpack Machine.posZero = .fin false 0 f.lsbExp := by
  rw [← f.pack_false_zero, f.unpack_pack_zero]

theorem Format.fits_posZero (f : Format) : f.Fits Machine.posZero := by cases f <;> decide

/-! Every operation answers a word of the format, and answers a NaN only where it answers the draw. -/

/-- A word that fits, and is the draw if it is a NaN. -/
def Format.GoodResult (f : Format) (draw w : Word) : Prop := f.Fits w ∧ (f.isNaN w = true → w = draw)

theorem Format.good_draw {f : Format} {draw : Word} (h : f.Fits draw) : f.GoodResult draw draw :=
  ⟨h, fun _ => rfl⟩

theorem Format.good_pack (f : Format) (draw : Word) (neg : Bool) {mag : Nat} (h : mag ≤ f.infMag) :
    f.GoodResult draw (f.pack neg mag) :=
  ⟨f.fits_pack neg (Nat.lt_of_le_of_lt h f.infMag_lt_signMag), by simp [f.isNaN_pack neg h]⟩

theorem Format.good_roundQuot (f : Format) (draw : Word) (neg : Bool) (n d : Nat) (e : Int) :
    f.GoodResult draw (f.roundQuot neg n d e) := f.good_pack draw neg (f.roundMag_le n d e)

theorem Format.good_addFinite (f : Format) (draw : Word) (a : Bool) (m : Nat) (e : Int) (b : Bool) (m' : Nat) (e' : Int) :
    f.GoodResult draw (f.addFinite a m e b m' e') := by
  unfold Format.addFinite
  simp only
  split
  · exact f.good_pack draw _ (Nat.zero_le _)
  · exact f.good_roundQuot draw _ _ _ _

theorem Format.good_addVal {f : Format} {draw : Word} (h : f.Fits draw) (x y : FVal) :
    f.GoodResult draw (f.addVal draw x y) := by
  cases x <;> cases y <;> simp only [Format.addVal] <;>
    first
      | exact Format.good_draw h
      | exact f.good_pack draw _ (le_refl _)
      | exact f.good_addFinite draw _ _ _ _ _ _
      | (split; exact f.good_pack draw _ (le_refl _); exact Format.good_draw h)

theorem Format.good_divVal {f : Format} {draw : Word} (h : f.Fits draw) (x y : FVal) :
    f.GoodResult draw (f.divVal draw x y) := by
  cases x <;> cases y <;> simp only [Format.divVal] <;>
    first
      | exact Format.good_draw h
      | exact f.good_pack draw _ (le_refl _)
      | exact f.good_pack draw _ (Nat.zero_le _)
      | (split
         · split
           · exact Format.good_draw h
           · exact f.good_pack draw _ (le_refl _)
         · exact f.good_roundQuot draw _ _ _ _)

theorem Format.good_roundVal {f : Format} {draw : Word} (h : f.Fits draw) (x : FVal) :
    f.GoodResult draw (f.roundVal draw x) := by
  cases x
  · exact Format.good_draw h
  · exact f.good_pack draw _ (le_refl _)
  · exact f.good_roundQuot draw _ _ _ _

theorem Format.good_fadd {f : Format} {draw : Word} (h : f.Fits draw) (a b : Word) :
    f.GoodResult draw (f.fadd draw a b) := Format.good_addVal h _ _

theorem Format.good_fsub {f : Format} {draw : Word} (h : f.Fits draw) (a b : Word) :
    f.GoodResult draw (f.fsub draw a b) := Format.good_addVal h _ _

theorem Format.good_fmul {f : Format} {draw : Word} (h : f.Fits draw) (a b : Word) :
    f.GoodResult draw (f.fmul draw a b) := Format.good_roundVal h _

theorem Format.good_fdiv {f : Format} {draw : Word} (h : f.Fits draw) (a b : Word) :
    f.GoodResult draw (f.fdiv draw a b) := Format.good_divVal h _ _

theorem Format.good_fma {f : Format} {draw : Word} (h : f.Fits draw) (a b c : Word) :
    f.GoodResult draw (f.fma draw a b c) := Format.good_addVal h _ _

theorem Format.fits_fneg (f : Format) (a : Word) : f.Fits (f.fneg a) := f.fits_pack _ (f.magOf_lt a)

@[simp] theorem Format.magOf_fneg (f : Format) (a : Word) : f.magOf (f.fneg a) = f.magOf a :=
  f.magOf_pack _ (f.magOf_lt a)

@[simp] theorem Format.signOf_fneg (f : Format) (a : Word) : f.signOf (f.fneg a) = !f.signOf a :=
  f.signOf_pack _ (f.magOf_lt a)

/-- `fneg` is the opposite value. -/
theorem Format.unpack_fneg (f : Format) (a : Word) : f.unpack (f.fneg a) = (f.unpack a).negate := by
  unfold Format.unpack
  rw [f.magOf_fneg, f.signOf_fneg]
  split
  · rfl
  · split
    · rfl
    · unfold Format.unpackFinite
      split <;> rfl

/-! Non-finite operands give non-finite results. -/

theorem Format.nonFinite_draw {f : Format} {draw : Word} (h : f.isNaN draw = true) : f.isNonFinite draw = true :=
  Format.isNonFinite_of_isNaN h

/-- The value is a NaN or an infinity. -/
def FVal.NonFinite : FVal → Prop
  | .nan => True
  | .inf _ => True
  | .fin _ _ _ => False

theorem Format.unpack_nonFinite_iff (f : Format) (w : Word) :
    (f.unpack w).NonFinite ↔ f.isNonFinite w = true := by
  rw [f.isNonFinite_iff]
  cases h : f.unpack w <;> simp [FVal.NonFinite]

theorem FVal.negate_nonFinite (x : FVal) : x.negate.NonFinite ↔ x.NonFinite := by
  cases x <;> exact Iff.rfl

theorem Format.addVal_nonFinite {f : Format} {draw : Word} (h : f.isNaN draw = true) {x y : FVal}
    (hxy : x.NonFinite ∨ y.NonFinite) : f.isNonFinite (f.addVal draw x y) = true := by
  have hd := Format.nonFinite_draw h
  cases x <;> cases y <;> simp_all [Format.addVal, FVal.NonFinite]
  split <;> simp_all

theorem mulVal_nonFinite {x y : FVal} (hxy : x.NonFinite ∨ y.NonFinite) : (mulVal x y).NonFinite := by
  cases x <;> cases y <;> simp only [mulVal] <;> first | trivial | (split <;> trivial) | simp_all [FVal.NonFinite]

theorem Format.roundVal_nonFinite {f : Format} {draw : Word} (h : f.isNaN draw = true) {x : FVal}
    (hx : x.NonFinite) : f.isNonFinite (f.roundVal draw x) = true := by
  cases x
  · exact Format.nonFinite_draw h
  · exact f.isNonFinite_pack_inf _
  · exact hx.elim

theorem Format.divVal_nonFinite {f : Format} {draw : Word} (h : f.isNaN draw = true) {x y : FVal}
    (hx : x.NonFinite) (hy : ¬ y.NonFinite) : f.isNonFinite (f.divVal draw x y) = true := by
  cases x <;> cases y <;> simp_all [Format.divVal, FVal.NonFinite, Format.nonFinite_draw]

end Sys2Proof
end

