-- ==== Sys2Proof/Laws/Arith.lean ====
section
/-! SUPPORT. What the sums of FILTER keep: one induction for every property of the accumulator, and its two uses (words of
the format, NaN results); the shift of a history. -/

namespace Sys2Proof.Machine

/-- A property of the accumulator that every `mac_add` keeps holds of the feed-forward sum. -/
theorem macSum_induction {V : Type} (A : Arith V) (fused : Bool) (P : V → Prop)
    (step : ∀ a c v, P a → P (macAdd A fused a c v)) (cs vs : List V) (acc : V) (h : P acc) :
    P (macSum A fused acc cs vs) := by
  unfold macSum
  induction cs.zip vs generalizing acc with
  | nil => exact h
  | cons cv rest ih => exact ih _ (step _ _ _ h)

/-- A property of the accumulator that every `mac_sub` keeps holds of the PER_TERM feedback. -/
theorem macDiff_induction {V : Type} (A : Arith V) (fused : Bool) (P : V → Prop)
    (step : ∀ a c v, P a → P (macSub A fused a c v)) (cs vs : List V) (acc : V) (h : P acc) :
    P (macDiff A fused acc cs vs) := by
  unfold macDiff
  induction cs.zip vs generalizing acc with
  | nil => exact h
  | cons cv rest ih => exact ih _ (step _ _ _ h)

/-- The same for the whole accumulator: `P` holds of `+0`, and `mac_add`, `mac_sub` and the one subtraction of GROUPED keep
it. -/
theorem filterAcc_induction {V : Type} (A : Arith V) (fused : Bool) (g : FbGrouping) (P : V → Prop)
    (zero : P A.zero) (add : ∀ a c v, P a → P (macAdd A fused a c v)) (sub : ∀ a c v, P a → P (macSub A fused a c v))
    (group : ∀ a b, P a → P b → P (A.sub a b)) (num den xs yh : List V) :
    P (filterAcc A fused g num den xs yh) := by
  have h := macSum_induction A fused P add num xs A.zero zero
  cases g
  · exact macDiff_induction A fused P sub den.tail yh _ h
  · exact group _ _ h (macSum_induction A fused P add den.tail yh A.zero zero)

/-- Every output of IEEE arithmetic is a word of the format, and the draw if it is a NaN. -/
theorem filterOutput_good {f : Format} {draw : Word} (h : f.Fits draw) (fused : Bool) (g : FbGrouping)
    (num den xs yh : List Word) :
    f.GoodResult draw (filterOutput (Arith.ieee f draw) fused g num den xs yh) :=
  Format.good_fdiv h _ _

theorem fits_macAdd {f : Format} {draw : Word} (h : f.Fits draw) (fused : Bool) (a c v : Word) :
    f.GoodResult draw (macAdd (Arith.ieee f draw) fused a c v) := by
  cases fused
  · exact Format.good_fadd h _ _
  · exact Format.good_fma h _ _ _

theorem fits_macSub {f : Format} {draw : Word} (h : f.Fits draw) (fused : Bool) (a c v : Word) :
    f.GoodResult draw (macSub (Arith.ieee f draw) fused a c v) := by
  cases fused
  · exact Format.good_fsub h _ _
  · exact Format.good_fma h _ _ _

theorem posZero_good (f : Format) (draw : Word) : f.GoodResult draw posZero := by
  rw [← f.pack_false_zero]
  exact f.good_pack draw _ (Nat.zero_le _)

/-- The accumulator before the division is a word of the format, and the draw if it is a NaN. -/
theorem filterAcc_good {f : Format} {draw : Word} (h : f.Fits draw) (fused : Bool) (g : FbGrouping)
    (num den xs yh : List Word) :
    f.GoodResult draw (filterAcc (Arith.ieee f draw) fused g num den xs yh) :=
  filterAcc_induction _ _ _ (f.GoodResult draw) (posZero_good f draw) (fun _ _ _ _ => fits_macAdd h fused _ _ _)
    (fun _ _ _ _ => fits_macSub h fused _ _ _) (fun _ _ _ _ => Format.good_fsub h _ _) _ _ _ _

/-! The shift of a history (R13). -/

theorem shiftIn_length {V : Type} (v : V) {s : List V} (h : s ≠ []) : (shiftIn v s).length = s.length := by
  have : 0 < s.length := List.length_pos_iff.2 h
  simp [shiftIn]
  omega

@[simp] theorem shiftIn_head {V : Type} (v : V) (s : List V) : (shiftIn v s)[0]? = some v := by simp [shiftIn]

/-- Entry `k + 1` after the shift is entry `k` before it. -/
theorem shiftIn_succ {V : Type} (v : V) (s : List V) (k : Nat) (h : k + 1 < s.length) :
    (shiftIn v s)[k + 1]? = s[k]? := by
  simp [shiftIn, List.getElem?_take]
  omega

theorem mem_shiftIn {V : Type} {v w : V} {s : List V} (h : w ∈ shiftIn v s) : w = v ∨ w ∈ s := by
  rcases List.mem_cons.1 h with h | h
  · exact .inl h
  · exact .inr (List.mem_of_mem_take h)

end Sys2Proof.Machine
end

