-- ==== Sys2Proof/Laws/Assembler.lean ====
section
/-! SUPPORT. What the tokenizer and the readers give on what the renderer writes. -/

namespace Sys2Proof.Machine

/-- A character of a word: no separator. -/
def plain (c : Char) : Bool := !(c == ';' || isBlank c || c == ',' || c.toNat == 123 || c.toNat == 125)

theorem tokenize_plain (cs : List Char) (h : ∀ c ∈ cs, plain c = true) : ∀ cur rest, tokenize cur (cs ++ rest) = tokenize (cs.reverse ++ cur) rest := by
  induction cs with
  | nil => intro cur rest; rfl
  | cons c cs ih =>
    intro cur rest
    have hc := h c (by simp)
    simp only [plain, Bool.not_eq_true', Bool.or_eq_false_iff] at hc
    obtain ⟨⟨⟨⟨a, b⟩, d⟩, e⟩, f⟩ := hc
    rw [List.cons_append, tokenize]
    simp only [a, b, d, e, f, Bool.false_eq_true, if_false]
    rw [ih (fun c hc => h c (by simp [hc]))]
    simp

theorem tokenize_word (cs : List Char) (hne : cs ≠ []) (h : ∀ c ∈ cs, plain c = true) : tokenize [] cs = [.word cs] := by
  have := tokenize_plain cs h [] []
  rw [List.append_nil] at this
  rw [this, List.append_nil, tokenize]; simp [flushWord, hne]

theorem tokenize_word_space (cs : List Char) (hne : cs ≠ []) (h : ∀ c ∈ cs, plain c = true) (rest) : tokenize [] (cs ++ ' ' :: rest) = .word cs :: tokenize [] rest := by
  rw [tokenize_plain cs h, List.append_nil, tokenize]
  simp [isBlank, flushWord, hne]

theorem tokenize_word_comma (cs : List Char) (hne : cs ≠ []) (h : ∀ c ∈ cs, plain c = true) (rest) : tokenize [] (cs ++ ',' :: ' ' :: rest) = .word cs :: .comma :: tokenize [] rest := by
  rw [tokenize_plain cs h, List.append_nil, tokenize]
  simp [isBlank, flushWord, hne]
  rw [tokenize]; simp [isBlank, flushWord]

theorem digit_facts : ∀ d < 16, plain (digitChar d) = true ∧ digitVal 16 (digitChar d) = some d := by decide

theorem writeDigits_plain (b : Nat) (hb : b ≤ 16) (h0 : 0 < b) : ∀ c n, ∀ x ∈ writeDigits b c n, plain x = true := by
  intro c
  induction c with
  | zero => intro n x hx; simp [writeDigits] at hx
  | succ c ih =>
    intro n x hx
    rw [writeDigits, List.mem_append] at hx
    rcases hx with hx | hx
    · exact ih _ _ hx
    · simp at hx; subst hx; exact (digit_facts _ (lt_of_lt_of_le (Nat.mod_lt _ h0) hb)).1

theorem writeDigits_length (b) : ∀ c n, (writeDigits b c n).length = c := by
  intro c; induction c with
  | zero => intro n; rfl
  | succ c ih => intro n; simp [writeDigits, ih]

theorem readDigits_writeDigits : ∀ c n acc cnt rest, readDigits 16 acc cnt (writeDigits 16 c n ++ rest) = readDigits 16 (acc * 16 ^ c + n % 16 ^ c) (cnt + c) rest := by
  intro c; induction c with
  | zero => intro n acc cnt rest; simp [writeDigits, Nat.mod_one]
  | succ c ih =>
    intro n acc cnt rest
    rw [writeDigits, List.append_assoc, ih]
    rw [List.singleton_append, readDigits, (digit_facts _ (Nat.mod_lt _ (by decide))).2]
    simp only
    congr 1
    have : n % 16 ^ (c+1) = n % 16 + 16 * (n / 16 % 16 ^ c) := by rw [Nat.pow_succ', Nat.mod_mul]
    rw [this, Nat.pow_succ]; ring

theorem readReal_renderWord (f : Format) (w : Word) (h : f.Fits w) : readReal f (renderWord f w) = some w := by
  unfold renderWord readReal
  simp only [writeDigits_length, if_true]
  have e : readDigits 16 0 0 (writeDigits 16 (f.width / 4) w.toNat) = (w.toNat % 16 ^ (f.width / 4), f.width / 4, []) := by
    have := readDigits_writeDigits (f.width / 4) w.toNat 0 0 []
    rw [List.append_nil] at this
    rw [this]; simp [readDigits]
  unfold wholeNumber
  rw [e]
  have hw : w.toNat % 16 ^ (f.width / 4) = w.toNat := by
    apply Nat.mod_eq_of_lt
    have : (16 : Nat) ^ (f.width/4) = 2 ^ f.width := by cases f <;> rfl
    rw [this]; exact h
  rw [hw]
  cases f <;> simp [Format.width]

theorem renderWord_plain (f : Format) (w : Word) : ∀ c ∈ renderWord f w, plain c = true := by
  intro c hc
  simp only [renderWord, List.mem_cons] at hc
  rcases hc with rfl | rfl | hc
  · decide
  · decide
  · exact writeDigits_plain 16 (by decide) (by decide) _ _ _ hc

theorem readIndex_renderIndex : ∀ k < 256, readIndex (renderIndex k) = some k := by decide +kernel

theorem renderIndex_plain (k) : ∀ c ∈ renderIndex k, plain c = true := fun c hc => writeDigits_plain 10 (by decide) (by decide) _ _ _ hc

theorem renderIndex_ne_nil (k) : renderIndex k ≠ [] := by
  intro e; have := congrArg List.length e
  unfold renderIndex at this; rw [writeDigits_length] at this; revert this; split <;> [simp; (split <;> simp)]

theorem renderWord_ne_nil (f w) : renderWord f w ≠ [] := by simp [renderWord]

end Sys2Proof.Machine
end

