-- ==== Sys2Proof/Laws/Decode.lean ====
section
/-! SUPPORT. What the decoder does, said once: a command word is its four fields, and decode accepts a word exactly where the
opcode map has its opcode and the reserved fields are zero. -/

namespace Sys2Proof

theorem opField_lt (w : Cmd) : opField w < 16 := Nat.mod_lt _ (by decide)

theorem idxField_lt (w : Cmd) : idxField w < 256 := Nat.mod_lt _ (by decide)

/-- A command word is its four fields (R50). -/
theorem toNat_eq_fields (w : Cmd) :
    w.toNat = opField w + 16 * rsv0Field w + 256 * idxField w + 65536 * rsv1Field w := by
  have := w.isLt
  unfold opField rsv0Field idxField rsv1Field field
  omega

theorem field_eq_extractLsb (w : Cmd) (lo n : Nat) : (w.extractLsb' lo n).toNat = w.toNat / 2 ^ lo % 2 ^ n := by
  simp [BitVec.extractLsb'_toNat, Nat.shiftRight_eq_div_pow]

theorem opField_eq (w : Cmd) : opField w = (w.extractLsb' 0 4).toNat := by rw [field_eq_extractLsb]; rfl

theorem rsv0Field_eq (w : Cmd) : rsv0Field w = (w.extractLsb' 4 4).toNat := by rw [field_eq_extractLsb]; rfl

theorem idxField_eq (w : Cmd) : idxField w = (w.extractLsb' 8 8).toNat := by rw [field_eq_extractLsb]; rfl

theorem rsv1Field_eq (w : Cmd) : rsv1Field w = (w.extractLsb' 16 16).toNat := by rw [field_eq_extractLsb]; rfl

/-- When decode accepts a word, and as what. -/
theorem decode_eq_ok_iff (w : Cmd) (d : Word) (i : Instr) : decode w d = .ok i ↔
    opcodeMap (opField w) (idxField w) d = some i ∧ rsv0Field w = 0 ∧ rsv1Field w = 0 ∧
      (opUsesIdx (opField w) = false → idxField w = 0) := by
  unfold decode
  cases h : opcodeMap (opField w) (idxField w) d with
  | none => simp
  | some j =>
    simp only
    split
    · simp only [reduceCtorEq, Option.some.injEq, false_iff, not_and]
      intros
      omega
    · split
      · simp only [reduceCtorEq, Option.some.injEq, false_iff, not_and]
        intros
        tauto
      · simp only [Except.ok.injEq, Option.some.injEq]
        constructor
        · rintro rfl
          exact ⟨rfl, by omega, by omega, fun h => by tauto⟩
        · rintro ⟨rfl, -⟩
          rfl

/-- Every row of the opcode map (R53). -/
theorem opcodeMap_eq_some {op idx : Nat} {d : Word} {i : Instr} (h : opcodeMap op idx d = some i) :
    (op = 1 ∧ i = .construct) ∨ (op = 2 ∧ i = .filter d) ∨ (op = 3 ∧ i = .reset) ∨ (op = 4 ∧ i = .fill d) ∨
      (op = 5 ∧ i = .setCoeffs) ∨ (op = 6 ∧ i = .getLast) ∨ (op = 7 ∧ i = .stageNum idx d) ∨
      (op = 8 ∧ i = .stageDen idx d) := by
  unfold opcodeMap at h
  split at h <;> simp_all

/-- The fields of the word of a STAGE command with an 8-bit index. -/
theorem stageWord_fields (op : Cmd) (idx : Nat) (ho : op.toNat < 16) (h : idx < 256) :
    opField (op + BitVec.ofNat 32 (idx * 2 ^ 8)) = op.toNat ∧
      rsv0Field (op + BitVec.ofNat 32 (idx * 2 ^ 8)) = 0 ∧
      idxField (op + BitVec.ofNat 32 (idx * 2 ^ 8)) = idx ∧
      rsv1Field (op + BitVec.ofNat 32 (idx * 2 ^ 8)) = 0 := by
  unfold opField rsv0Field idxField rsv1Field field
  rw [BitVec.toNat_add, BitVec.toNat_ofNat]
  refine ⟨?_, ?_, ?_, ?_⟩ <;> omega

/-- A full mask selects one word (R54). -/
theorem and_allOnes_mask (w m : Cmd) : w &&& 0xFFFFFFFF#32 = m ↔ w = m := by
  have : (0xFFFFFFFF#32) = BitVec.allOnes 32 := by decide
  rw [this, BitVec.and_allOnes]

/-- The mask of the STAGE commands leaves every field but `IDX` (R54). -/
theorem and_stageMask (w : Cmd) (op : Nat) (ho : op < 16) (h : w &&& 0xFFFF00FF#32 = BitVec.ofNat 32 op) :
    opField w = op ∧ rsv0Field w = 0 ∧ rsv1Field w = 0 := by
  rw [opField_eq, rsv0Field_eq, rsv1Field_eq]
  have cut (lo n : Nat) (hm : (0xFFFF00FF#32).extractLsb' lo n = BitVec.allOnes n) :
      w.extractLsb' lo n = (BitVec.ofNat 32 op).extractLsb' lo n := by
    rw [← h, BitVec.extractLsb'_and, hm, BitVec.and_allOnes]
  rw [cut 0 4 (by decide), cut 4 4 (by decide), cut 16 16 (by decide)]
  simp only [BitVec.extractLsb'_toNat, Nat.shiftRight_eq_div_pow, BitVec.toNat_ofNat]
  omega

/-- A STAGE word with a reserved field that is not zero is rejected (R55). -/
theorem decode_stage_reserved {w : Cmd} {d : Word} (ho : opField w = 7 ∨ opField w = 8)
    (hr : rsv0Field w ≠ 0 ∨ rsv1Field w ≠ 0) : decode w d = .error .reservedField := by
  unfold decode
  rcases ho with ho | ho <;> rw [ho] <;> simp [opcodeMap, hr]

/-- A word of one of the other six opcodes that is not its match value is rejected (R55). -/
theorem decode_other_reserved {w : Cmd} {d : Word} (h1 : 1 ≤ opField w) (h6 : opField w ≤ 6)
    (hw : w.toNat ≠ opField w) : decode w d = .error .reservedField := by
  have hf := toNat_eq_fields w
  have ho : opField w = 1 ∨ opField w = 2 ∨ opField w = 3 ∨ opField w = 4 ∨ opField w = 5 ∨ opField w = 6 := by omega
  unfold decode
  by_cases hr : rsv0Field w ≠ 0 ∨ rsv1Field w ≠ 0
  · rcases ho with ho | ho | ho | ho | ho | ho <;> rw [ho] <;> simp [opcodeMap, hr]
  · have hi : idxField w ≠ 0 := by omega
    rcases ho with ho | ho | ho | ho | ho | ho <;> rw [ho] <;> simp [opcodeMap, hr, hi, opUsesIdx]

end Sys2Proof
end

