-- ==== Sys2Proof/Laws/State.lean ====
section
/-! SUPPORT. One lemma for each field of the state after each named operation: what the operation writes, and that it
writes nothing else. All hold by unfolding, so that no later proof unfolds a record update. -/

namespace Sys2Proof.Machine

@[simp] theorem State.withHistories_build (s : State) (xs ys : List Word) : (s.withHistories xs ys).build = s.build := rfl
@[simp] theorem State.withHistories_num (s : State) (xs ys : List Word) : (s.withHistories xs ys).num = s.num := rfl
@[simp] theorem State.withHistories_den (s : State) (xs ys : List Word) : (s.withHistories xs ys).den = s.den := rfl
@[simp] theorem State.withHistories_xh (s : State) (xs ys : List Word) : (s.withHistories xs ys).xh = xs := rfl
@[simp] theorem State.withHistories_yh (s : State) (xs ys : List Word) : (s.withHistories xs ys).yh = ys := rfl
@[simp] theorem State.withHistories_stgNum (s : State) (xs ys : List Word) : (s.withHistories xs ys).stgNum = s.stgNum := rfl
@[simp] theorem State.withHistories_stgDen (s : State) (xs ys : List Word) : (s.withHistories xs ys).stgDen = s.stgDen := rfl
@[simp] theorem State.withHistories_configured (s : State) (xs ys : List Word) : (s.withHistories xs ys).configured = s.configured := rfl
@[simp] theorem State.withHistories_rsp (s : State) (xs ys : List Word) : (s.withHistories xs ys).rsp = s.rsp := rfl
@[simp] theorem State.withHistories_inputs (s : State) (xs ys : List Word) : (s.withHistories xs ys).inputs = s.inputs := rfl
@[simp] theorem State.withHistories_source (s : State) (xs ys : List Word) : (s.withHistories xs ys).source = s.source := rfl
@[simp] theorem State.withHistories_draws (s : State) (xs ys : List Word) : (s.withHistories xs ys).draws = s.draws := rfl

@[simp] theorem State.withCoeffs_build (s : State) (b a : List Word) : (s.withCoeffs b a).build = s.build := rfl
@[simp] theorem State.withCoeffs_num (s : State) (b a : List Word) : (s.withCoeffs b a).num = b := rfl
@[simp] theorem State.withCoeffs_den (s : State) (b a : List Word) : (s.withCoeffs b a).den = a := rfl
@[simp] theorem State.withCoeffs_xh (s : State) (b a : List Word) : (s.withCoeffs b a).xh = s.xh := rfl
@[simp] theorem State.withCoeffs_yh (s : State) (b a : List Word) : (s.withCoeffs b a).yh = s.yh := rfl
@[simp] theorem State.withCoeffs_stgNum (s : State) (b a : List Word) : (s.withCoeffs b a).stgNum = s.stgNum := rfl
@[simp] theorem State.withCoeffs_stgDen (s : State) (b a : List Word) : (s.withCoeffs b a).stgDen = s.stgDen := rfl
@[simp] theorem State.withCoeffs_configured (s : State) (b a : List Word) : (s.withCoeffs b a).configured = s.configured := rfl
@[simp] theorem State.withCoeffs_rsp (s : State) (b a : List Word) : (s.withCoeffs b a).rsp = s.rsp := rfl
@[simp] theorem State.withCoeffs_inputs (s : State) (b a : List Word) : (s.withCoeffs b a).inputs = s.inputs := rfl
@[simp] theorem State.withCoeffs_source (s : State) (b a : List Word) : (s.withCoeffs b a).source = s.source := rfl
@[simp] theorem State.withCoeffs_draws (s : State) (b a : List Word) : (s.withCoeffs b a).draws = s.draws := rfl

@[simp] theorem State.setConfigured_build (s : State) : s.setConfigured.build = s.build := rfl
@[simp] theorem State.setConfigured_num (s : State) : s.setConfigured.num = s.num := rfl
@[simp] theorem State.setConfigured_den (s : State) : s.setConfigured.den = s.den := rfl
@[simp] theorem State.setConfigured_xh (s : State) : s.setConfigured.xh = s.xh := rfl
@[simp] theorem State.setConfigured_yh (s : State) : s.setConfigured.yh = s.yh := rfl
@[simp] theorem State.setConfigured_stgNum (s : State) : s.setConfigured.stgNum = s.stgNum := rfl
@[simp] theorem State.setConfigured_stgDen (s : State) : s.setConfigured.stgDen = s.stgDen := rfl
@[simp] theorem State.setConfigured_configured (s : State) : s.setConfigured.configured = true := rfl
@[simp] theorem State.setConfigured_rsp (s : State) : s.setConfigured.rsp = s.rsp := rfl
@[simp] theorem State.setConfigured_inputs (s : State) : s.setConfigured.inputs = s.inputs := rfl
@[simp] theorem State.setConfigured_source (s : State) : s.setConfigured.source = s.source := rfl
@[simp] theorem State.setConfigured_draws (s : State) : s.setConfigured.draws = s.draws := rfl

@[simp] theorem State.stageNumAt_build (s : State) (k : Nat) (v : Word) : (s.stageNumAt k v).build = s.build := rfl
@[simp] theorem State.stageNumAt_num (s : State) (k : Nat) (v : Word) : (s.stageNumAt k v).num = s.num := rfl
@[simp] theorem State.stageNumAt_den (s : State) (k : Nat) (v : Word) : (s.stageNumAt k v).den = s.den := rfl
@[simp] theorem State.stageNumAt_xh (s : State) (k : Nat) (v : Word) : (s.stageNumAt k v).xh = s.xh := rfl
@[simp] theorem State.stageNumAt_yh (s : State) (k : Nat) (v : Word) : (s.stageNumAt k v).yh = s.yh := rfl
@[simp] theorem State.stageNumAt_stgNum (s : State) (k : Nat) (v : Word) : (s.stageNumAt k v).stgNum = s.stgNum.set k (some v) := rfl
@[simp] theorem State.stageNumAt_stgDen (s : State) (k : Nat) (v : Word) : (s.stageNumAt k v).stgDen = s.stgDen := rfl
@[simp] theorem State.stageNumAt_configured (s : State) (k : Nat) (v : Word) : (s.stageNumAt k v).configured = s.configured := rfl
@[simp] theorem State.stageNumAt_rsp (s : State) (k : Nat) (v : Word) : (s.stageNumAt k v).rsp = s.rsp := rfl
@[simp] theorem State.stageNumAt_inputs (s : State) (k : Nat) (v : Word) : (s.stageNumAt k v).inputs = s.inputs := rfl
@[simp] theorem State.stageNumAt_source (s : State) (k : Nat) (v : Word) : (s.stageNumAt k v).source = s.source := rfl
@[simp] theorem State.stageNumAt_draws (s : State) (k : Nat) (v : Word) : (s.stageNumAt k v).draws = s.draws := rfl

@[simp] theorem State.stageDenAt_build (s : State) (k : Nat) (v : Word) : (s.stageDenAt k v).build = s.build := rfl
@[simp] theorem State.stageDenAt_num (s : State) (k : Nat) (v : Word) : (s.stageDenAt k v).num = s.num := rfl
@[simp] theorem State.stageDenAt_den (s : State) (k : Nat) (v : Word) : (s.stageDenAt k v).den = s.den := rfl
@[simp] theorem State.stageDenAt_xh (s : State) (k : Nat) (v : Word) : (s.stageDenAt k v).xh = s.xh := rfl
@[simp] theorem State.stageDenAt_yh (s : State) (k : Nat) (v : Word) : (s.stageDenAt k v).yh = s.yh := rfl
@[simp] theorem State.stageDenAt_stgNum (s : State) (k : Nat) (v : Word) : (s.stageDenAt k v).stgNum = s.stgNum := rfl
@[simp] theorem State.stageDenAt_stgDen (s : State) (k : Nat) (v : Word) : (s.stageDenAt k v).stgDen = s.stgDen.set k (some v) := rfl
@[simp] theorem State.stageDenAt_configured (s : State) (k : Nat) (v : Word) : (s.stageDenAt k v).configured = s.configured := rfl
@[simp] theorem State.stageDenAt_rsp (s : State) (k : Nat) (v : Word) : (s.stageDenAt k v).rsp = s.rsp := rfl
@[simp] theorem State.stageDenAt_inputs (s : State) (k : Nat) (v : Word) : (s.stageDenAt k v).inputs = s.inputs := rfl
@[simp] theorem State.stageDenAt_source (s : State) (k : Nat) (v : Word) : (s.stageDenAt k v).source = s.source := rfl
@[simp] theorem State.stageDenAt_draws (s : State) (k : Nat) (v : Word) : (s.stageDenAt k v).draws = s.draws := rfl

@[simp] theorem State.withInputs_build (s : State) (is : List Input) : (s.withInputs is).build = s.build := rfl
@[simp] theorem State.withInputs_num (s : State) (is : List Input) : (s.withInputs is).num = s.num := rfl
@[simp] theorem State.withInputs_den (s : State) (is : List Input) : (s.withInputs is).den = s.den := rfl
@[simp] theorem State.withInputs_xh (s : State) (is : List Input) : (s.withInputs is).xh = s.xh := rfl
@[simp] theorem State.withInputs_yh (s : State) (is : List Input) : (s.withInputs is).yh = s.yh := rfl
@[simp] theorem State.withInputs_stgNum (s : State) (is : List Input) : (s.withInputs is).stgNum = s.stgNum := rfl
@[simp] theorem State.withInputs_stgDen (s : State) (is : List Input) : (s.withInputs is).stgDen = s.stgDen := rfl
@[simp] theorem State.withInputs_configured (s : State) (is : List Input) : (s.withInputs is).configured = s.configured := rfl
@[simp] theorem State.withInputs_rsp (s : State) (is : List Input) : (s.withInputs is).rsp = s.rsp := rfl
@[simp] theorem State.withInputs_inputs (s : State) (is : List Input) : (s.withInputs is).inputs = is := rfl
@[simp] theorem State.withInputs_source (s : State) (is : List Input) : (s.withInputs is).source = s.source := rfl
@[simp] theorem State.withInputs_draws (s : State) (is : List Input) : (s.withInputs is).draws = s.draws := rfl

@[simp] theorem State.nextDraw_build (s : State) : s.nextDraw.build = s.build := rfl
@[simp] theorem State.nextDraw_num (s : State) : s.nextDraw.num = s.num := rfl
@[simp] theorem State.nextDraw_den (s : State) : s.nextDraw.den = s.den := rfl
@[simp] theorem State.nextDraw_xh (s : State) : s.nextDraw.xh = s.xh := rfl
@[simp] theorem State.nextDraw_yh (s : State) : s.nextDraw.yh = s.yh := rfl
@[simp] theorem State.nextDraw_stgNum (s : State) : s.nextDraw.stgNum = s.stgNum := rfl
@[simp] theorem State.nextDraw_stgDen (s : State) : s.nextDraw.stgDen = s.stgDen := rfl
@[simp] theorem State.nextDraw_configured (s : State) : s.nextDraw.configured = s.configured := rfl
@[simp] theorem State.nextDraw_rsp (s : State) : s.nextDraw.rsp = s.rsp := rfl
@[simp] theorem State.nextDraw_inputs (s : State) : s.nextDraw.inputs = s.inputs := rfl
@[simp] theorem State.nextDraw_source (s : State) : s.nextDraw.source = s.source := rfl
@[simp] theorem State.nextDraw_draws (s : State) : s.nextDraw.draws = s.draws + 1 := rfl

@[simp] theorem State.withRsp_build (s : State) (r : Option Response) : (s.withRsp r).build = s.build := rfl
@[simp] theorem State.withRsp_num (s : State) (r : Option Response) : (s.withRsp r).num = s.num := rfl
@[simp] theorem State.withRsp_den (s : State) (r : Option Response) : (s.withRsp r).den = s.den := rfl
@[simp] theorem State.withRsp_xh (s : State) (r : Option Response) : (s.withRsp r).xh = s.xh := rfl
@[simp] theorem State.withRsp_yh (s : State) (r : Option Response) : (s.withRsp r).yh = s.yh := rfl
@[simp] theorem State.withRsp_stgNum (s : State) (r : Option Response) : (s.withRsp r).stgNum = s.stgNum := rfl
@[simp] theorem State.withRsp_stgDen (s : State) (r : Option Response) : (s.withRsp r).stgDen = s.stgDen := rfl
@[simp] theorem State.withRsp_configured (s : State) (r : Option Response) : (s.withRsp r).configured = s.configured := rfl
@[simp] theorem State.withRsp_rsp (s : State) (r : Option Response) : (s.withRsp r).rsp = r := rfl
@[simp] theorem State.withRsp_inputs (s : State) (r : Option Response) : (s.withRsp r).inputs = s.inputs := rfl
@[simp] theorem State.withRsp_source (s : State) (r : Option Response) : (s.withRsp r).source = s.source := rfl
@[simp] theorem State.withRsp_draws (s : State) (r : Option Response) : (s.withRsp r).draws = s.draws := rfl

@[simp] theorem respond_build (s : State) (st : Status) (v : Option Word) : (respond st v s).build = s.build := rfl
@[simp] theorem respond_num (s : State) (st : Status) (v : Option Word) : (respond st v s).num = s.num := rfl
@[simp] theorem respond_den (s : State) (st : Status) (v : Option Word) : (respond st v s).den = s.den := rfl
@[simp] theorem respond_xh (s : State) (st : Status) (v : Option Word) : (respond st v s).xh = s.xh := rfl
@[simp] theorem respond_yh (s : State) (st : Status) (v : Option Word) : (respond st v s).yh = s.yh := rfl
@[simp] theorem respond_stgNum (s : State) (st : Status) (v : Option Word) : (respond st v s).stgNum = s.stgNum := rfl
@[simp] theorem respond_stgDen (s : State) (st : Status) (v : Option Word) : (respond st v s).stgDen = s.stgDen := rfl
@[simp] theorem respond_configured (s : State) (st : Status) (v : Option Word) : (respond st v s).configured = s.configured := rfl
@[simp] theorem respond_rsp (s : State) (st : Status) (v : Option Word) : (respond st v s).rsp = some ⟨st, v⟩ := rfl
@[simp] theorem respond_inputs (s : State) (st : Status) (v : Option Word) : (respond st v s).inputs = s.inputs := rfl
@[simp] theorem respond_source (s : State) (st : Status) (v : Option Word) : (respond st v s).source = s.source := rfl
@[simp] theorem respond_draws (s : State) (st : Status) (v : Option Word) : (respond st v s).draws = s.draws := rfl

@[simp] theorem reject_build (s : State) (st : Status) : (reject st s).build = s.build := rfl
@[simp] theorem reject_num (s : State) (st : Status) : (reject st s).num = s.num := rfl
@[simp] theorem reject_den (s : State) (st : Status) : (reject st s).den = s.den := rfl
@[simp] theorem reject_xh (s : State) (st : Status) : (reject st s).xh = s.xh := rfl
@[simp] theorem reject_yh (s : State) (st : Status) : (reject st s).yh = s.yh := rfl
@[simp] theorem reject_stgNum (s : State) (st : Status) : (reject st s).stgNum = s.stgNum := rfl
@[simp] theorem reject_stgDen (s : State) (st : Status) : (reject st s).stgDen = s.stgDen := rfl
@[simp] theorem reject_configured (s : State) (st : Status) : (reject st s).configured = s.configured := rfl
@[simp] theorem reject_rsp (s : State) (st : Status) : (reject st s).rsp = some ⟨st, none⟩ := rfl
@[simp] theorem reject_inputs (s : State) (st : Status) : (reject st s).inputs = s.inputs := rfl
@[simp] theorem reject_source (s : State) (st : Status) : (reject st s).source = s.source := rfl
@[simp] theorem reject_draws (s : State) (st : Status) : (reject st s).draws = s.draws := rfl

@[simp] theorem fillHistories_build (s : State) (v : Word) : (fillHistories v s).build = s.build := rfl
@[simp] theorem fillHistories_num (s : State) (v : Word) : (fillHistories v s).num = s.num := rfl
@[simp] theorem fillHistories_den (s : State) (v : Word) : (fillHistories v s).den = s.den := rfl
@[simp] theorem fillHistories_xh (s : State) (v : Word) : (fillHistories v s).xh = List.replicate s.build.n v := rfl
@[simp] theorem fillHistories_yh (s : State) (v : Word) : (fillHistories v s).yh = List.replicate s.build.n v := rfl
@[simp] theorem fillHistories_stgNum (s : State) (v : Word) : (fillHistories v s).stgNum = s.stgNum := rfl
@[simp] theorem fillHistories_stgDen (s : State) (v : Word) : (fillHistories v s).stgDen = s.stgDen := rfl
@[simp] theorem fillHistories_configured (s : State) (v : Word) : (fillHistories v s).configured = s.configured := rfl
@[simp] theorem fillHistories_rsp (s : State) (v : Word) : (fillHistories v s).rsp = s.rsp := rfl
@[simp] theorem fillHistories_inputs (s : State) (v : Word) : (fillHistories v s).inputs = s.inputs := rfl
@[simp] theorem fillHistories_source (s : State) (v : Word) : (fillHistories v s).source = s.source := rfl
@[simp] theorem fillHistories_draws (s : State) (v : Word) : (fillHistories v s).draws = s.draws := rfl

@[simp] theorem offer_build (s : State) (w : Cmd) (d : Word) : (offer w d s).build = s.build := rfl
@[simp] theorem offer_num (s : State) (w : Cmd) (d : Word) : (offer w d s).num = s.num := rfl
@[simp] theorem offer_den (s : State) (w : Cmd) (d : Word) : (offer w d s).den = s.den := rfl
@[simp] theorem offer_xh (s : State) (w : Cmd) (d : Word) : (offer w d s).xh = s.xh := rfl
@[simp] theorem offer_yh (s : State) (w : Cmd) (d : Word) : (offer w d s).yh = s.yh := rfl
@[simp] theorem offer_stgNum (s : State) (w : Cmd) (d : Word) : (offer w d s).stgNum = s.stgNum := rfl
@[simp] theorem offer_stgDen (s : State) (w : Cmd) (d : Word) : (offer w d s).stgDen = s.stgDen := rfl
@[simp] theorem offer_configured (s : State) (w : Cmd) (d : Word) : (offer w d s).configured = s.configured := rfl
@[simp] theorem offer_rsp (s : State) (w : Cmd) (d : Word) : (offer w d s).rsp = s.rsp := rfl
@[simp] theorem offer_inputs (s : State) (w : Cmd) (d : Word) : (offer w d s).inputs = .command w d :: s.inputs := rfl
@[simp] theorem offer_source (s : State) (w : Cmd) (d : Word) : (offer w d s).source = s.source := rfl
@[simp] theorem offer_draws (s : State) (w : Cmd) (d : Word) : (offer w d s).draws = s.draws := rfl

@[simp] theorem hardwareReset_build (s : State) : (hardwareReset s).build = s.build := rfl
@[simp] theorem hardwareReset_num (s : State) : (hardwareReset s).num = List.replicate s.build.n posZero := rfl
@[simp] theorem hardwareReset_den (s : State) : (hardwareReset s).den = List.replicate s.build.n posZero := rfl
@[simp] theorem hardwareReset_xh (s : State) : (hardwareReset s).xh = List.replicate s.build.n posZero := rfl
@[simp] theorem hardwareReset_yh (s : State) : (hardwareReset s).yh = List.replicate s.build.n posZero := rfl
@[simp] theorem hardwareReset_stgNum (s : State) : (hardwareReset s).stgNum = List.replicate s.build.n none := rfl
@[simp] theorem hardwareReset_stgDen (s : State) : (hardwareReset s).stgDen = List.replicate s.build.n none := rfl
@[simp] theorem hardwareReset_configured (s : State) : (hardwareReset s).configured = false := rfl
@[simp] theorem hardwareReset_rsp (s : State) : (hardwareReset s).rsp = none := rfl
@[simp] theorem hardwareReset_inputs (s : State) : (hardwareReset s).inputs = s.inputs := rfl
@[simp] theorem hardwareReset_source (s : State) : (hardwareReset s).source = s.source := rfl
@[simp] theorem hardwareReset_draws (s : State) : (hardwareReset s).draws = s.draws := rfl

@[simp] theorem State.powerOn_build (b : Build) (k : Nat) : (State.powerOn b k).build = b := rfl
@[simp] theorem State.powerOn_num (b : Build) (k : Nat) : (State.powerOn b k).num = List.replicate b.n posZero := rfl
@[simp] theorem State.powerOn_den (b : Build) (k : Nat) : (State.powerOn b k).den = List.replicate b.n posZero := rfl
@[simp] theorem State.powerOn_xh (b : Build) (k : Nat) : (State.powerOn b k).xh = List.replicate b.n posZero := rfl
@[simp] theorem State.powerOn_yh (b : Build) (k : Nat) : (State.powerOn b k).yh = List.replicate b.n posZero := rfl
@[simp] theorem State.powerOn_stgNum (b : Build) (k : Nat) : (State.powerOn b k).stgNum = List.replicate b.n none := rfl
@[simp] theorem State.powerOn_stgDen (b : Build) (k : Nat) : (State.powerOn b k).stgDen = List.replicate b.n none := rfl
@[simp] theorem State.powerOn_configured (b : Build) (k : Nat) : (State.powerOn b k).configured = false := rfl
@[simp] theorem State.powerOn_rsp (b : Build) (k : Nat) : (State.powerOn b k).rsp = none := rfl
@[simp] theorem State.powerOn_inputs (b : Build) (k : Nat) : (State.powerOn b k).inputs = [] := rfl
@[simp] theorem State.powerOn_source (b : Build) (k : Nat) : (State.powerOn b k).source = k := rfl
@[simp] theorem State.powerOn_draws (b : Build) (k : Nat) : (State.powerOn b k).draws = 0 := rfl

end Sys2Proof.Machine
end

