-- ==== Sys2Proof/Laws/Ops.lean ====
section
/-! SUPPORT. One lemma for each shared operation: the staging bank read whole, the commit, the data path, the status codes. -/

namespace Sys2Proof.Machine

/-- The staged values are `b` exactly where every entry of the bank holds the entry of `b`. -/
theorem stagedValues_eq_some_iff (l : List (Option Word)) (b : List Word) :
    stagedValues l = some b ↔ l = b.map some := by
  induction l generalizing b with
  | nil => cases b <;> simp [stagedValues]
  | cons o rest ih =>
    cases o with
    | none => cases b <;> simp [stagedValues]
    | some v =>
      cases b with
      | nil => simp [stagedValues]
      | cons w ws =>
        simp only [stagedValues, Option.map_eq_some_iff, List.map_cons, List.cons.injEq, Option.some.injEq]
        constructor
        · rintro ⟨a, ha, rfl, rfl⟩
          exact ⟨rfl, (ih _).1 ha⟩
        · rintro ⟨rfl, h⟩
          exact ⟨ws, (ih _).2 h, rfl, rfl⟩

/-- The staged values are missing exactly where some entry has not been written. -/
theorem stagedValues_eq_none_iff (l : List (Option Word)) : stagedValues l = none ↔ none ∈ l := by
  induction l with
  | nil => simp [stagedValues]
  | cons o rest ih => cases o <;> simp [stagedValues, ih]

@[simp] theorem stagedValues_map_some (b : List Word) : stagedValues (b.map some) = some b :=
  (stagedValues_eq_some_iff _ _).2 rfl

theorem exists_map_some {l : List (Option Word)} (h : none ∉ l) : ∃ b : List Word, l = b.map some := by
  cases hb : stagedValues l with
  | none => exact (h ((stagedValues_eq_none_iff l).1 hb)).elim
  | some b => exact ⟨b, (stagedValues_eq_some_iff l b).1 hb⟩

/-- A commit is turned away exactly where the staging bank is incomplete. -/
theorem commit_eq_none_iff (s : State) : commit s = none ↔ ¬ StageComplete s := by
  unfold commit
  cases hb : stagedValues s.stgNum with
  | none => simp [(stagedValues_eq_none_iff _).1 hb]
  | some b =>
    cases ha : stagedValues s.stgDen with
    | none => simp [(stagedValues_eq_none_iff _).1 ha]
    | some a =>
      have h1 : none ∉ s.stgNum := fun h => by simp [(stagedValues_eq_none_iff _).2 h] at hb
      have h2 : none ∉ s.stgDen := fun h => by simp [(stagedValues_eq_none_iff _).2 h] at ha
      simp [h1, h2]

/-- Everything a commit can do: the staged values become the live set, and `configured` is set. -/
theorem commit_eq_some_iff (s t : State) : commit s = some t ↔
    ∃ b a : List Word, s.stgNum = b.map some ∧ s.stgDen = a.map some ∧ t = (s.withCoeffs b a).setConfigured := by
  unfold commit
  constructor
  · intro h
    split at h
    · rename_i b a hb ha
      exact ⟨b, a, (stagedValues_eq_some_iff _ _).1 hb, (stagedValues_eq_some_iff _ _).1 ha,
        (Option.some.inj h).symm⟩
    · exact nomatch h
  · rintro ⟨b, a, hb, ha, rfl⟩
    simp [hb, ha]

theorem commit_of_staged {s : State} {b a : List Word} (hb : s.stgNum = b.map some) (ha : s.stgDen = a.map some) :
    commit s = some (s.withCoeffs b a).setConfigured := (commit_eq_some_iff s _).2 ⟨b, a, hb, ha, rfl⟩

/-- The data path carries a `W`-bit word. -/
theorem fits_portWord (f : Format) (d : Word) : f.Fits (portWord f d) := by
  have h1 := f.bitsOf_lt d
  have h2 := f.width_le
  unfold Format.Fits portWord
  rw [BitVec.toNat_ofNat, Nat.mod_eq_of_lt (by omega)]
  exact h1

/-- The data path leaves a `W`-bit word as it is. -/
theorem portWord_of_fits {f : Format} {d : Word} (h : f.Fits d) : portWord f d = d := by
  unfold portWord
  rw [Format.bitsOf_of_fits h]
  simp

@[simp] theorem ofCode_code (st : Status) : Status.ofCode st.code = some st := by cases st <;> rfl

/-- A host that reads a response of the engine gets that response. -/
@[simp] theorem read_wire (r : Response) : r.wire.read = .next r := by
  simp [WireResponse.read, Response.wire]

theorem fits_nanDraw (s : State) : s.build.fmt.Fits (nanDraw s) := Format.fits_quietNaN _ _

@[simp] theorem isNaN_nanDraw (s : State) : s.build.fmt.isNaN (nanDraw s) = true := Format.isNaN_quietNaN _ _

/-- `NaNDraw` is a quiet-NaN encoding of the format (R11). -/
theorem isQuietNaN_nanDraw (s : State) : s.build.fmt.isQuietNaN (nanDraw s) = true := by
  have hlt : ∀ f : Format, ∀ b : Word,
      2 ^ (f.fracBits - 1) + f.bitsOf b % 2 ^ (f.fracBits - 1) < 2 ^ f.fracBits := by
    intro f b
    have : f.bitsOf b % 2 ^ (f.fracBits - 1) < 2 ^ (f.fracBits - 1) := Nat.mod_lt _ (Nat.two_pow_pos _)
    have : 2 ^ (f.fracBits - 1) + 2 ^ (f.fracBits - 1) = 2 ^ f.fracBits := by cases f <;> decide
    omega
  have h := hlt s.build.fmt (Config.nanBits s.source s.draws)
  simp only [Format.isQuietNaN, isNaN_nanDraw, Bool.true_and, decide_eq_true_eq]
  unfold nanDraw
  rw [Format.magOf_quietNaN, Format.infMag_eq, Nat.add_assoc, Nat.mul_add_mod_self_right, Nat.mod_eq_of_lt h]
  omega

end Sys2Proof.Machine
end

