-- ==== Sys2Proof/Laws/Exec.lean ====
section
/-! SUPPORT. What each meaning can do, said once: the equations of the two outcomes of a command that can be rejected, and
that `exec` always answers a next state with a response. -/

namespace Sys2Proof.Machine

theorem execStageNum_inRange {s : State} {k : Nat} (v : Word) (h : k < s.build.n) :
    execStageNum k v s = .next (respond .ok none (s.stageNumAt k v)) := by
  simp [execStageNum, indexInRange, h]

theorem execStageNum_outOfRange {s : State} {k : Nat} (v : Word) (h : s.build.n ≤ k) :
    execStageNum k v s = .next (reject .indexRange s) := by
  simp [execStageNum, indexInRange, Nat.not_lt_of_le h]

theorem execStageDen_inRange {s : State} {k : Nat} (v : Word) (h : k < s.build.n) :
    execStageDen k v s = .next (respond .ok none (s.stageDenAt k v)) := by
  simp [execStageDen, indexInRange, h]

theorem execStageDen_outOfRange {s : State} {k : Nat} (v : Word) (h : s.build.n ≤ k) :
    execStageDen k v s = .next (reject .indexRange s) := by
  simp [execStageDen, indexInRange, Nat.not_lt_of_le h]

theorem execConstruct_incomplete {s : State} (h : ¬ StageComplete s) :
    execConstruct s = .next (reject .stageIncomplete s) := by
  simp [execConstruct, (commit_eq_none_iff s).2 h]

theorem execConstruct_complete {s : State} {b a : List Word} (hb : s.stgNum = b.map some) (ha : s.stgDen = a.map some) :
    execConstruct s = .next (respond .ok none (fillHistories posZero (s.withCoeffs b a).setConfigured)) := by
  simp [execConstruct, commit_of_staged hb ha]

theorem execSetCoeffs_incomplete {s : State} (h : ¬ StageComplete s) :
    execSetCoeffs s = .next (reject .stageIncomplete s) := by
  simp [execSetCoeffs, (commit_eq_none_iff s).2 h]

theorem execSetCoeffs_complete {s : State} {b a : List Word} (hb : s.stgNum = b.map some) (ha : s.stgDen = a.map some) :
    execSetCoeffs s = .next (respond .ok none (s.withCoeffs b a).setConfigured) := by
  simp [execSetCoeffs, commit_of_staged hb ha]

theorem execFilter_notConfigured {s : State} (v : Word) (h : s.configured = false) :
    execFilter v s = .next (reject .notConfigured s) := by
  simp [execFilter, h]

theorem execFilter_configured {s : State} (v : Word) (h : s.configured = true) :
    execFilter v s = .next (respond .ok (some (filterResult v s))
      (s.withHistories (shiftIn v s.xh) (shiftIn (filterResult v s) s.yh)).nextDraw) := by
  simp [execFilter, h]

/-- FILTER answers a word of the format, and `NaNDraw` where that word is a NaN. -/
theorem filterResult_good (v : Word) (s : State) :
    s.build.fmt.GoodResult (nanDraw s) (filterResult v s) := filterOutput_good (fits_nanDraw s) _ _ _ _ _ _

/-! exec is the meaning of its arm. -/

@[simp] theorem exec_construct (s : State) : exec .construct s = execConstruct s := rfl
@[simp] theorem exec_filter (v : Word) (s : State) : exec (.filter v) s = execFilter v s := rfl
@[simp] theorem exec_reset (s : State) : exec .reset s = execReset s := rfl
@[simp] theorem exec_fill (v : Word) (s : State) : exec (.fill v) s = execFill v s := rfl
@[simp] theorem exec_setCoeffs (s : State) : exec .setCoeffs s = execSetCoeffs s := rfl
@[simp] theorem exec_getLast (s : State) : exec .getLast s = execGetLast s := rfl
@[simp] theorem exec_stageNum (k : Nat) (v : Word) (s : State) : exec (.stageNum k v) s = execStageNum k v s := rfl
@[simp] theorem exec_stageDen (k : Nat) (v : Word) (s : State) : exec (.stageDen k v) s = execStageDen k v s := rfl

/-- Every way a command can end: rejected, nothing but the response written, or performed. -/
theorem exec_cases (i : Instr) (s : State) :
    (∃ st, st ≠ .ok ∧ exec i s = .next (reject st s)) ∨ ∃ t v, exec i s = .next (respond .ok v t) := by
  cases i with
  | construct =>
    by_cases h : StageComplete s
    · obtain ⟨b, hb⟩ := exists_map_some h.1
      obtain ⟨a, ha⟩ := exists_map_some h.2
      exact .inr ⟨_, _, execConstruct_complete hb ha⟩
    · exact .inl ⟨_, by decide, execConstruct_incomplete h⟩
  | filter v =>
    cases h : s.configured with
    | false => exact .inl ⟨_, by decide, execFilter_notConfigured v h⟩
    | true => exact .inr ⟨_, _, execFilter_configured v h⟩
  | reset => exact .inr ⟨_, _, rfl⟩
  | fill v => exact .inr ⟨_, _, rfl⟩
  | setCoeffs =>
    by_cases h : StageComplete s
    · obtain ⟨b, hb⟩ := exists_map_some h.1
      obtain ⟨a, ha⟩ := exists_map_some h.2
      exact .inr ⟨_, _, execSetCoeffs_complete hb ha⟩
    · exact .inl ⟨_, by decide, execSetCoeffs_incomplete h⟩
  | getLast => exact .inr ⟨_, _, rfl⟩
  | stageNum k v =>
    rcases Nat.lt_or_ge k s.build.n with h | h
    · exact .inr ⟨_, _, execStageNum_inRange v h⟩
    · exact .inl ⟨_, by decide, execStageNum_outOfRange v h⟩
  | stageDen k v =>
    rcases Nat.lt_or_ge k s.build.n with h | h
    · exact .inr ⟨_, _, execStageDen_inRange v h⟩
    · exact .inl ⟨_, by decide, execStageDen_outOfRange v h⟩

/-- One outcome has one next state. -/
theorem next_unique {o : Host.Outcome State Fault Refusal} {t u : State} (h : o = .next t) (h' : o = .next u) :
    t = u := Host.Outcome.next.inj (h.symm.trans h')

/-- Everything a command can do, one case for each way it can end. -/
theorem exec_inversion {i : Instr} {s t : State} (h : exec i s = .next t) :
    (∃ st, st ≠ .ok ∧ t = reject st s) ∨
    (∃ b a, i = .construct ∧ s.stgNum = b.map some ∧ s.stgDen = a.map some ∧
      t = respond .ok none (fillHistories posZero (s.withCoeffs b a).setConfigured)) ∨
    (∃ v, i = .filter v ∧ s.configured = true ∧ t = respond .ok (some (filterResult v s))
      (s.withHistories (shiftIn v s.xh) (shiftIn (filterResult v s) s.yh)).nextDraw) ∨
    (i = .reset ∧ t = respond .ok (some posZero) (fillHistories posZero s)) ∨
    (∃ v, i = .fill v ∧ t = respond .ok (some v) (fillHistories v s)) ∨
    (∃ b a, i = .setCoeffs ∧ s.stgNum = b.map some ∧ s.stgDen = a.map some ∧
      t = respond .ok none (s.withCoeffs b a).setConfigured) ∨
    (i = .getLast ∧ t = respond .ok (some (lastOutput s)) s) ∨
    (∃ k v, i = .stageNum k v ∧ k < s.build.n ∧ t = respond .ok none (s.stageNumAt k v)) ∨
    (∃ k v, i = .stageDen k v ∧ k < s.build.n ∧ t = respond .ok none (s.stageDenAt k v)) := by
  cases i with
  | construct =>
    by_cases hc : StageComplete s
    · obtain ⟨b, hb⟩ := exists_map_some hc.1
      obtain ⟨a, ha⟩ := exists_map_some hc.2
      exact .inr (.inl ⟨b, a, rfl, hb, ha, next_unique h (execConstruct_complete hb ha)⟩)
    · exact .inl ⟨_, by decide, next_unique h (execConstruct_incomplete hc)⟩
  | filter v =>
    cases hc : s.configured with
    | false => exact .inl ⟨_, by decide, next_unique h (execFilter_notConfigured v hc)⟩
    | true => exact .inr (.inr (.inl ⟨v, rfl, rfl, next_unique h (execFilter_configured v hc)⟩))
  | reset => exact .inr (.inr (.inr (.inl ⟨rfl, next_unique h rfl⟩)))
  | fill v => exact .inr (.inr (.inr (.inr (.inl ⟨v, rfl, next_unique h rfl⟩))))
  | setCoeffs =>
    by_cases hc : StageComplete s
    · obtain ⟨b, hb⟩ := exists_map_some hc.1
      obtain ⟨a, ha⟩ := exists_map_some hc.2
      exact .inr (.inr (.inr (.inr (.inr (.inl
        ⟨b, a, rfl, hb, ha, next_unique h (execSetCoeffs_complete hb ha)⟩)))))
    · exact .inl ⟨_, by decide, next_unique h (execSetCoeffs_incomplete hc)⟩
  | getLast => exact .inr (.inr (.inr (.inr (.inr (.inr (.inl ⟨rfl, next_unique h rfl⟩))))))
  | stageNum k v =>
    rcases Nat.lt_or_ge k s.build.n with hc | hc
    · exact .inr (.inr (.inr (.inr (.inr (.inr (.inr (.inl
        ⟨k, v, rfl, hc, next_unique h (execStageNum_inRange v hc)⟩)))))))
    · exact .inl ⟨_, by decide, next_unique h (execStageNum_outOfRange v hc)⟩
  | stageDen k v =>
    rcases Nat.lt_or_ge k s.build.n with hc | hc
    · exact .inr (.inr (.inr (.inr (.inr (.inr (.inr (.inr
        ⟨k, v, rfl, hc, next_unique h (execStageDen_inRange v hc)⟩)))))))
    · exact .inl ⟨_, by decide, next_unique h (execStageDen_outOfRange v hc)⟩

end Sys2Proof.Machine
end

