-- ==== Sys2Proof/Laws/Step.lean ====
section
/-! SUPPORT. What one step can do, said once: for each kind of input at the port, its equation. -/

namespace Sys2Proof.Machine

theorem takeInput_nil {s : State} (h : s.inputs = []) : takeInput s = .idle := by simp [takeInput, h]

theorem takeInput_command {s : State} {w : Cmd} {d : Word} {rest : List Input} (h : s.inputs = .command w d :: rest) :
    takeInput s = .command w (portWord s.build.fmt d) (s.withInputs rest) := by
  simp [takeInput, h]

theorem takeInput_hardwareReset {s : State} {c : Option (Cmd × Word)} {rest : List Input}
    (h : s.inputs = .hardwareReset c :: rest) : takeInput s = .hardwareReset (s.withInputs rest) := by
  simp [takeInput, h]

theorem step_of_no_input {s : State} (hl : s.build.Legal) (h : s.inputs = []) : step s = .next s := by
  simp [step, hl, takeInput_nil h]

theorem step_of_command {s : State} {w : Cmd} {d : Word} {rest : List Input} (hl : s.build.Legal)
    (h : s.inputs = .command w d :: rest) :
    step s = answer w (portWord s.build.fmt d) (s.withInputs rest) := by
  simp [step, hl, takeInput_command h]

theorem step_offer {s : State} (w : Cmd) (d : Word) (hl : s.build.Legal) :
    step (offer w d s) = answer w (portWord s.build.fmt d) s :=
  step_of_command (s := offer w d s) hl rfl

theorem answer_of_decode {w : Cmd} {d : Word} {i : Instr} (h : decode w d = .ok i) (s : State) :
    answer w d s = exec i s := by
  simp [answer, h]

theorem step_of_hardwareReset {s : State} {c : Option (Cmd × Word)} {rest : List Input} (hl : s.build.Legal)
    (h : s.inputs = .hardwareReset c :: rest) : step s = .next (hardwareReset (s.withInputs rest)) := by
  simp [step, hl, takeInput_hardwareReset h]

theorem step_of_illegal {s : State} (hl : ¬ s.build.Legal) : step s = .refused .unsupportedBuild := by
  simp [step, hl]

/-- Everything a step to a next state can be. -/
theorem step_inversion {s t : State} (h : step s = .next t) : s.build.Legal ∧
    ((s.inputs = [] ∧ t = s) ∨
     (∃ w d rest, s.inputs = .command w d :: rest ∧
       answer w (portWord s.build.fmt d) (s.withInputs rest) = .next t) ∨
     (∃ c rest, s.inputs = .hardwareReset c :: rest ∧ t = hardwareReset (s.withInputs rest))) := by
  by_cases hl : s.build.Legal
  · refine ⟨hl, ?_⟩
    rcases hi : s.inputs with _ | ⟨x, rest⟩
    · exact .inl ⟨rfl, (next_unique (step_of_no_input hl hi) h).symm⟩
    · cases x with
      | command w d => exact .inr (.inl ⟨w, d, rest, rfl, (step_of_command hl hi).symm.trans h⟩)
      | hardwareReset c => exact .inr (.inr ⟨c, rest, rfl, next_unique h (step_of_hardwareReset hl hi)⟩)
  · rw [step_of_illegal hl] at h
    exact nomatch h

/-- Every way a command word can be answered: rejected, nothing but the response written, or performed. -/
theorem answer_cases (w : Cmd) (d : Word) (s : State) :
    (∃ st, st ≠ .ok ∧ answer w d s = .next (reject st s)) ∨
    ∃ i t v, decode w d = .ok i ∧ exec i s = .next (respond .ok v t) ∧ answer w d s = .next (respond .ok v t) := by
  unfold answer
  cases hd : decode w d with
  | ok i =>
    rcases exec_cases i s with ⟨st, hs, h⟩ | ⟨t, v, h⟩
    · exact .inl ⟨st, hs, h⟩
    · exact .inr ⟨i, t, v, rfl, h, h⟩
  | error r => exact .inl ⟨_, by cases r <;> decide, rfl⟩

/-! Runs of the machine behind the host's interface. -/

@[simp] theorem core_run_zero (s : State) : core.run 0 s = .next s := rfl

theorem core_run_next {k : Nat} {s u : State} (h : step s = .next u) : core.run (k + 1) s = core.run k u := by
  refine (Host.Core.run.eq_2 core s k).trans ?_
  rw [show core.step s = .next u from h]

/-- A run of one step more is a step and then the run. -/
theorem core_run_succ_inversion {k : Nat} {s t : State} (h : core.run (k + 1) s = .next t) :
    ∃ u, step s = .next u ∧ core.run k u = .next t := by
  replace h := (Host.Core.run.eq_2 core s k).symm.trans h
  cases hs : step s with
  | next u =>
    rw [show core.step s = .next u from hs] at h
    exact ⟨u, rfl, h⟩
  | fault r =>
    rw [show core.step s = .fault r from hs] at h
    exact nomatch h
  | refused r =>
    rw [show core.step s = .refused r from hs] at h
    exact nomatch h

end Sys2Proof.Machine
end

