-- ==== Sys2Proof/Laws/Cascade.lean ====
section
/-! SUPPORT. One transaction of a cascade, said once. -/

namespace Sys2Proof.Machine

/-- The host issues an instruction whose words decode to it, and reads the response `exec` gives. -/
theorem issue_of (i : Instr) (s : State) (hl : s.build.Legal) (hd : decode (encode i).1 (encode i).2 = .ok i) (hp : portWord s.build.fmt (encode i).2 = (encode i).2) {t : State} {r : Response}
   (he : exec i s = .next t) (hr : t.rsp = some r) : issue i s = .next (t, some r) := by
  have hw : r.wire.read = .next r := by cases r with | mk st v => cases st <;> rfl
  unfold issue transact
  rw [step_offer _ _ hl, hp, answer_of_decode hd, he]
  simp only [hr, hw]

end Sys2Proof.Machine
end

