-- ==== Sys2Proof/Laws/Circular.lean ====
section
/-! SUPPORT. The logical sequences of a ring. -/

namespace Sys2Proof.Machine

theorem ringView_length (buf n h) : (ringView buf n h).length = n := by simp [ringView]

theorem ringView_get (buf : List Word) (n h k : Nat) (hk : k < n) : (ringView buf n h)[k]? = some (ringAt buf n h k) := by
  simp [ringView, hk]

theorem ringView_replicate (n h : Nat) (v : Word) (hn : 0 < n) : ringView (List.replicate n v) n h = List.replicate n v := by
  apply List.ext_getElem?
  intro k
  rcases Nat.lt_or_ge k n with hk | hk
  · rw [ringView_get _ _ _ _ hk, List.getElem?_replicate, if_pos hk]
    simp [ringAt, Nat.mod_lt _ hn]
  · rw [List.getElem?_eq_none (by simp [ringView_length, hk]), List.getElem?_eq_none (by simp [hk])]

/-- A step of the head to older entries. -/

theorem headBefore_index (n h0 k : Nat) (hn : 0 < n) (hk : k + 1 < n) : ((h0 + n - 1) % n + (k + 1)) % n = (h0 + k) % n ∧ (h0 + k) % n ≠ (h0 + n - 1) % n := by
  constructor
  · rw [Nat.mod_add_mod, show h0 + n - 1 + (k + 1) = (h0 + k) + n by omega, Nat.add_mod_right]
  · intro e
    have h1 : (h0 + k) ≡ (h0 + (n - 1)) [MOD n] := by rw [show h0 + (n - 1) = h0 + n - 1 by omega]; exact e
    have h2 := Nat.ModEq.add_left_cancel' h0 h1
    unfold Nat.ModEq at h2
    rw [Nat.mod_eq_of_lt (by omega), Nat.mod_eq_of_lt (by omega)] at h2
    omega

/-- Inserting before the head is a shift of the logical sequence (R33, R13). -/

theorem ringView_insert (buf : List Word) (n h0 : Nat) (v : Word) (hn : 0 < n) (hl : buf.length = n) :
   ringView (buf.set (headBefore n h0) v) n (headBefore n h0) = shiftIn v (ringView buf n h0) := by
  have hh : headBefore n h0 < n := Nat.mod_lt _ hn
  apply List.ext_getElem?
  intro k
  rcases Nat.lt_or_ge k n with hk | hk
  · rw [ringView_get _ _ _ _ hk]
    cases k with
    | zero =>
      rw [shiftIn_head]
      unfold ringAt
      rw [Nat.add_zero, Nat.mod_eq_of_lt hh]
      simp [hl, hh]
    | succ k =>
      rw [shiftIn_succ _ _ _ (by rw [ringView_length]; exact hk), ringView_get _ _ _ _ (by omega)]
      obtain ⟨e1, e2⟩ := headBefore_index n h0 k hn hk
      unfold ringAt
      rw [show (headBefore n h0 + (k + 1)) % n = (h0 + k) % n from e1]
      rw [List.getD_eq_getElem?_getD, List.getD_eq_getElem?_getD, List.getElem?_set_ne (by unfold headBefore; exact fun h => e2 h.symm)]
  · rw [List.getElem?_eq_none (by simp [ringView_length, hk])]
    rw [List.getElem?_eq_none]
    rw [shiftIn_length]
    · rw [ringView_length]; exact hk
    · intro e; have := ringView_length buf n h0; rw [e] at this; simp at this; omega

/-- The feedback a ring reads is the logical output history (R118). -/

theorem ring_feedback (buf : List Word) (n h0 : Nat) (hn : 0 < n) :
   ((List.range (n - 1)).map fun k => ringAt buf n (headBefore n h0) (k + 1)) = (ringView buf n h0).take (n - 1) := by
  apply List.ext_getElem?
  intro k
  rcases Nat.lt_or_ge k (n - 1) with hk | hk
  · rw [List.getElem?_take, if_pos hk, ringView_get _ _ _ _ (by omega)]
    simp only [List.getElem?_map, List.getElem?_range hk, Option.map_some]
    unfold ringAt
    rw [show (headBefore n h0 + (k + 1)) % n = (h0 + k) % n from (headBefore_index n h0 k hn (by omega)).1]
  · rw [List.getElem?_eq_none (by simp; omega), List.getElem?_eq_none (by simp [ringView_length]; omega)]

end Sys2Proof.Machine
end

