-- ==== Sys2Proof/Laws/Designer.lean ====
section
/-! SUPPORT. The expansion of a root list: its length, and that it is monic (R69). -/

namespace Sys2Proof.Machine

theorem real64_one : real64 1 = 0x3FF0000000000000#64 := by decide +kernel

theorem mulRoot_length (A r) (l : List Cplx) : ∀ p, (mulRoot A r p l).length = l.length + 1 := by
  induction l with
  | nil => intro p; rfl
  | cons c cs ih => intro p; simp [mulRoot, ih]

theorem mulRoot_last (A r) (l : List Cplx) : ∀ p, (mulRoot A r p l).getLast? = some (l.getLast?.getD p) := by
  induction l with
  | nil => intro p; rfl
  | cons c cs ih => intro p; rw [mulRoot, List.getLast?_cons, ih, List.getLast?_cons]; simp

theorem expandRoots_aux (A) (roots : List Cplx) : ∀ c : List Cplx, (roots.foldl (fun c r => mulRoot A r (Cplx.ofReal posZero) c) c).length = c.length + roots.length ∧ (c ≠ [] → (roots.foldl (fun c r => mulRoot A r (Cplx.ofReal posZero) c) c).getLast? = c.getLast?) := by
  induction roots with
  | nil => intro c; simp
  | cons r rs ih =>
    intro c
    obtain ⟨a, b⟩ := ih (mulRoot A r (Cplx.ofReal posZero) c)
    simp only [List.foldl_cons]
    refine ⟨by rw [a, mulRoot_length]; simp; omega, fun hc => ?_⟩
    rw [b (by intro e; have := congrArg List.length e; rw [mulRoot_length] at this; simp at this), mulRoot_last]
    cases h : c.getLast? with
    | none => simp at h; exact absurd h hc
    | some x => rfl

theorem expandRoots_length (A) (r : List Cplx) : (expandRoots A r).length = r.length + 1 := by
  rw [expandRoots, (expandRoots_aux A r _).1]; simp; omega

theorem expandRoots_getLast (A) (r : List Cplx) : (expandRoots A r).getLast? = some (Cplx.ofReal (real64 1)) := by
  rw [expandRoots, (expandRoots_aux A r _).2 (by simp)]; rfl

end Sys2Proof.Machine
end

