-- ==== Sys2Proof/Laws/Draw.lean ====
section
/-! SUPPORT. How a FILTER output depends on the NaN draw: so that its value can be computed with a concrete draw. -/

namespace Sys2Proof.Machine

/-- The same operation with two draws: the same word, or each its own draw. -/
def SameOrDraw (d d' a a' : Word) : Prop := a = a' ∨ (a = d ∧ a' = d')

theorem addVal_sameOrDraw (f : Format) (d d' : Word) (x y : FVal) :
    SameOrDraw d d' (f.addVal d x y) (f.addVal d' x y) := by
  cases x <;> cases y <;> simp only [Format.addVal] <;> first | exact .inl rfl | exact .inr ⟨rfl, rfl⟩ | skip
  split
  · exact .inl rfl
  · exact .inr ⟨rfl, rfl⟩

theorem divVal_sameOrDraw (f : Format) (d d' : Word) (x y : FVal) :
    SameOrDraw d d' (f.divVal d x y) (f.divVal d' x y) := by
  cases x <;> cases y <;> simp only [Format.divVal] <;> first | exact .inl rfl | exact .inr ⟨rfl, rfl⟩ | skip
  split
  · split
    · exact .inr ⟨rfl, rfl⟩
    · exact .inl rfl
  · exact .inl rfl

theorem roundVal_sameOrDraw (f : Format) (d d' : Word) (x : FVal) :
    SameOrDraw d d' (f.roundVal d x) (f.roundVal d' x) := by
  cases x <;> first | exact .inl rfl | exact .inr ⟨rfl, rfl⟩

theorem addVal_nan_left (f : Format) (d : Word) (y : FVal) : f.addVal d .nan y = d := by cases y <;> rfl

theorem addVal_nan_right (f : Format) (d : Word) (x : FVal) : f.addVal d x .nan = d := by cases x <;> rfl

section WithTwoDraws

variable {f : Format} {d d' : Word} (hd : f.isNaN d = true) (hd' : f.isNaN d' = true)
include hd hd'

theorem addVal_lift {a a' : Word} (h : SameOrDraw d d' a a') {b b' : Word} (hb : SameOrDraw d d' b b') (neg : Bool) :
    SameOrDraw d d' (f.addVal d (f.unpack a) (if neg then (f.unpack b).negate else f.unpack b))
      (f.addVal d' (f.unpack a') (if neg then (f.unpack b').negate else f.unpack b')) := by
  rcases h with rfl | ⟨rfl, rfl⟩
  · rcases hb with rfl | ⟨rfl, rfl⟩
    · exact addVal_sameOrDraw _ _ _ _ _
    · rw [Format.unpack_of_nan hd, Format.unpack_of_nan hd']
      cases neg <;> exact .inr ⟨addVal_nan_right _ _ _, addVal_nan_right _ _ _⟩
  · rw [Format.unpack_of_nan hd, Format.unpack_of_nan hd']
    exact .inr ⟨addVal_nan_left _ _ _, addVal_nan_left _ _ _⟩

theorem fadd_sameOrDraw {a a' : Word} (h : SameOrDraw d d' a a') {b b' : Word} (hb : SameOrDraw d d' b b') :
    SameOrDraw d d' (f.fadd d a b) (f.fadd d' a' b') := addVal_lift hd hd' h hb false

theorem fsub_sameOrDraw {a a' : Word} (h : SameOrDraw d d' a a') {b b' : Word} (hb : SameOrDraw d d' b b') :
    SameOrDraw d d' (f.fsub d a b) (f.fsub d' a' b') := addVal_lift hd hd' h hb true

theorem macAdd_sameOrDraw (fused : Bool) {a a' : Word} (h : SameOrDraw d d' a a') (c v : Word) :
    SameOrDraw d d' (macAdd (Arith.ieee f d) fused a c v) (macAdd (Arith.ieee f d') fused a' c v) := by
  cases fused
  · exact fadd_sameOrDraw hd hd' h (roundVal_sameOrDraw _ _ _ _)
  · rcases h with rfl | ⟨rfl, rfl⟩
    · exact addVal_sameOrDraw _ _ _ _ _
    · refine .inr ⟨?_, ?_⟩
      · show f.addVal _ _ (f.unpack _) = _
        rw [Format.unpack_of_nan hd, addVal_nan_right]
      · show f.addVal _ _ (f.unpack _) = _
        rw [Format.unpack_of_nan hd', addVal_nan_right]

theorem macSub_sameOrDraw (fused : Bool) {a a' : Word} (h : SameOrDraw d d' a a') (c v : Word) :
    SameOrDraw d d' (macSub (Arith.ieee f d) fused a c v) (macSub (Arith.ieee f d') fused a' c v) := by
  cases fused
  · exact fsub_sameOrDraw hd hd' h (roundVal_sameOrDraw _ _ _ _)
  · exact macAdd_sameOrDraw hd hd' true h (f.fneg c) v

theorem macSum_sameOrDraw (fused : Bool) (cs vs : List Word) {a a' : Word} (h : SameOrDraw d d' a a') :
    SameOrDraw d d' (macSum (Arith.ieee f d) fused a cs vs) (macSum (Arith.ieee f d') fused a' cs vs) := by
  unfold macSum
  induction cs.zip vs generalizing a a' with
  | nil => exact h
  | cons cv rest ih => exact ih (macAdd_sameOrDraw hd hd' fused h _ _)

theorem macDiff_sameOrDraw (fused : Bool) (cs vs : List Word) {a a' : Word} (h : SameOrDraw d d' a a') :
    SameOrDraw d d' (macDiff (Arith.ieee f d) fused a cs vs) (macDiff (Arith.ieee f d') fused a' cs vs) := by
  unfold macDiff
  induction cs.zip vs generalizing a a' with
  | nil => exact h
  | cons cv rest ih => exact ih (macSub_sameOrDraw hd hd' fused h _ _)

theorem filterAcc_sameOrDraw (fused : Bool) (g : FbGrouping) (num den xs yh : List Word) :
    SameOrDraw d d' (filterAcc (Arith.ieee f d) fused g num den xs yh)
      (filterAcc (Arith.ieee f d') fused g num den xs yh) := by
  have h := macSum_sameOrDraw hd hd' fused num xs (.inl rfl : SameOrDraw d d' posZero posZero)
  cases g
  · exact macDiff_sameOrDraw hd hd' fused _ _ h
  · exact fsub_sameOrDraw hd hd' h (macSum_sameOrDraw hd hd' fused _ _ (.inl rfl))

/-- A FILTER output depends on the draw in one way: with another draw it is the same word, or each is its own draw. -/
theorem filterOutput_sameOrDraw (fused : Bool) (g : FbGrouping) (num den xs yh : List Word) :
    SameOrDraw d d' (filterOutput (Arith.ieee f d) fused g num den xs yh)
      (filterOutput (Arith.ieee f d') fused g num den xs yh) := by
  have h := filterAcc_sameOrDraw hd hd' fused g num den xs yh
  show SameOrDraw d d' (f.divVal d (f.unpack _) _) (f.divVal d' (f.unpack _) _)
  rcases h with h | ⟨h, h'⟩
  · rw [h]
    exact divVal_sameOrDraw _ _ _ _ _
  · rw [h, h', Format.unpack_of_nan hd, Format.unpack_of_nan hd']
    exact .inr ⟨rfl, rfl⟩

/-- An output that is no NaN for one draw is the output for every draw: so it can be computed with a concrete one. -/
theorem filterOutput_of_draw (fused : Bool) (g : FbGrouping) (num den xs yh : List Word) {w : Word}
    (h : filterOutput (Arith.ieee f d) fused g num den xs yh = w) (hw : f.isNaN w = false) :
    filterOutput (Arith.ieee f d') fused g num den xs yh = w := by
  rcases filterOutput_sameOrDraw hd hd' fused g num den xs yh with h' | ⟨h', -⟩
  · rw [← h', h]
  · rw [h] at h'
    rw [h', hd] at hw
    exact nomatch hw

end WithTwoDraws

end Sys2Proof.Machine
end

