-- ==== Sys2Proof/Laws/PerInstr.lean ====
section
/-! SUPPORT. Statements about every instruction as syntax, one lemma per constructor (LAWS.json). -/

/-- The command word the encoder writes has its reserved fields zero, and `IDX` zero unless the command is a STAGE command
(R50). -/
def Sys2Proof.Laws.ReservedZero.Statement (i : Sys2Proof.Instr) : Prop :=
  ∀ f : Sys2Proof.Format, i.WellFormed f = true →
    Sys2Proof.rsv0Field (Sys2Proof.encode i).1 = 0 ∧ Sys2Proof.rsv1Field (Sys2Proof.encode i).1 = 0 ∧
      (Sys2Proof.opUsesIdx (Sys2Proof.opField (Sys2Proof.encode i).1) = false →
        Sys2Proof.idxField (Sys2Proof.encode i).1 = 0)

namespace Sys2Proof.Laws.ReservedZero

theorem construct : Statement .construct := fun _ _ => by decide

theorem filter (sample : Word) : Statement (.filter sample) := fun _ _ =>
  ⟨show rsv0Field 0x00000002#32 = 0 by decide, show rsv1Field 0x00000002#32 = 0 by decide,
    fun _ => show idxField 0x00000002#32 = 0 by decide⟩

theorem reset : Statement .reset := fun _ _ => by decide

theorem fill (value : Word) : Statement (.fill value) := fun _ _ =>
  ⟨show rsv0Field 0x00000004#32 = 0 by decide, show rsv1Field 0x00000004#32 = 0 by decide,
    fun _ => show idxField 0x00000004#32 = 0 by decide⟩

theorem setCoeffs : Statement .setCoeffs := fun _ _ => by decide

theorem getLast : Statement .getLast := fun _ _ => by decide

/-- The number in the word of a STAGE command with an 8-bit index. -/
theorem stageWord_toNat (op : Cmd) (idx : Nat) (ho : op.toNat < 16) (h : idx < 256) :
    (op + BitVec.ofNat 32 (idx * 2 ^ 8)).toNat = op.toNat + idx * 256 := by
  rw [BitVec.toNat_add, BitVec.toNat_ofNat]
  omega

theorem stageNum (idx : Nat) (coeff : Word) : Statement (.stageNum idx coeff) := by
  intro f h
  have hk : idx < 256 := by
    simp only [Instr.WellFormed, Bool.and_eq_true, decide_eq_true_eq] at h
    exact h.1
  have e : (encode (.stageNum idx coeff)).1.toNat = 7 + idx * 256 := stageWord_toNat 7#32 idx (by decide) hk
  refine ⟨?_, ?_, fun ho => ?_⟩
  · unfold rsv0Field field; rw [e]; omega
  · unfold rsv1Field field; rw [e]; omega
  · have : opField (encode (.stageNum idx coeff)).1 = 7 := by unfold opField field; rw [e]; omega
    rw [this] at ho
    exact absurd ho (by decide)

theorem stageDen (idx : Nat) (coeff : Word) : Statement (.stageDen idx coeff) := by
  intro f h
  have hk : idx < 256 := by
    simp only [Instr.WellFormed, Bool.and_eq_true, decide_eq_true_eq] at h
    exact h.1
  have e : (encode (.stageDen idx coeff)).1.toNat = 8 + idx * 256 := stageWord_toNat 8#32 idx (by decide) hk
  refine ⟨?_, ?_, fun ho => ?_⟩
  · unfold rsv0Field field; rw [e]; omega
  · unfold rsv1Field field; rw [e]; omega
  · have : opField (encode (.stageDen idx coeff)).1 = 8 := by unfold opField field; rw [e]; omega
    rw [this] at ho
    exact absurd ho (by decide)

end Sys2Proof.Laws.ReservedZero
end

