-- ==== Sys2Proof/Laws/Pseudo.lean ====
section
/-! SUPPORT. Runs of instructions, one instruction at a time. -/

namespace Sys2Proof.Machine

@[simp] theorem runInstrs_nil (s : State) : runInstrs [] s = .next s := rfl

theorem runInstrs_cons {i : Instr} {is : List Instr} {s t : State} (h : exec i s = .next t) :
    runInstrs (i :: is) s = runInstrs is t := by
  simp [runInstrs, h]

@[simp] theorem runInstrs_singleton (i : Instr) (s : State) : runInstrs [i] s = exec i s := by
  simp only [runInstrs]
  cases exec i s <;> rfl

theorem runInstrs_append {is js : List Instr} {s t : State} (h : runInstrs is s = .next t) :
    runInstrs (is ++ js) s = runInstrs js t := by
  induction is generalizing s with
  | nil =>
    cases h
    rfl
  | cons i is ih =>
    simp only [runInstrs] at h
    cases hx : exec i s with
    | next u =>
      rw [hx] at h
      rw [List.cons_append, runInstrs_cons hx]
      exact ih h
    | fault _ =>
      rw [hx] at h
      exact nomatch h
    | refused _ =>
      rw [hx] at h
      exact nomatch h

/-- A run of one instruction more is that instruction and then the run. -/
theorem runInstrs_cons_inversion {i : Instr} {is : List Instr} {s t : State} (h : runInstrs (i :: is) s = .next t) :
    ∃ u, exec i s = .next u ∧ runInstrs is u = .next t := by
  simp only [runInstrs] at h
  cases hx : exec i s with
  | next u =>
    rw [hx] at h
    exact ⟨u, rfl, h⟩
  | fault _ =>
    rw [hx] at h
    exact nomatch h
  | refused _ =>
    rw [hx] at h
    exact nomatch h

end Sys2Proof.Machine
end

