-- ==== Sys2Proof/Laws/Rounding.lean ====
section
/-! SUPPORT. Rounding in exact arithmetic: what the integer operations of the rounding give, and the value of an encoding. -/

namespace Sys2Proof

/-- The rounded quotient is within one half, and even where it is exactly one half off. -/
theorem rneDiv_spec (n d : Nat) (hd : 0 < d) :
    |(rneDiv n d : ℚ) - n / d| ≤ 1 / 2 ∧ (|(rneDiv n d : ℚ) - n / d| = 1 / 2 → rneDiv n d % 2 = 0) := by
  have hdq : (0 : ℚ) < d := by exact_mod_cast hd
  have hdm : (n : ℚ) = d * (n / d : ℕ) + (n % d : ℕ) := by exact_mod_cast (Nat.div_add_mod n d).symm
  have hr : n % d < d := Nat.mod_lt _ hd
  set k := n / d with hk
  set r := n % d with hrr
  have hnd : (n : ℚ) / d = k + r / d := by rw [hdm]; field_simp
  have hr0 : (0 : ℚ) ≤ r / d := by positivity
  have hr1 : (r : ℚ) / d < 1 := by rw [div_lt_one hdq]; exact_mod_cast hr
  unfold rneDiv
  rw [← hk, ← hrr]
  split
  · rename_i h
    have hge : (1 / 2 : ℚ) ≤ r / d := by
      rw [le_div_iff₀ hdq]
      have : d ≤ 2 * r := by omega
      have : (d : ℚ) ≤ 2 * r := by exact_mod_cast this
      linarith
    push_cast
    rw [hnd]
    constructor
    · rw [abs_le]; constructor <;> linarith
    · intro h'
      have : (r : ℚ) / d = 1 / 2 := by
        rcases abs_eq (by norm_num : (0:ℚ) ≤ 1/2) |>.1 h' with h' | h' <;> linarith
      rw [div_eq_iff hdq.ne'] at this
      have : (2 * r : ℚ) = d := by linarith
      have : 2 * r = d := by exact_mod_cast this
      omega
  · rename_i h
    have hle : (r : ℚ) / d ≤ 1 / 2 := by
      rw [div_le_iff₀ hdq]
      have : 2 * r ≤ d := by omega
      have : 2 * (r : ℚ) ≤ d := by exact_mod_cast this
      linarith
    rw [hnd]
    constructor
    · rw [abs_le]; constructor <;> linarith
    · intro h'
      have : (r : ℚ) / d = 1 / 2 := by
        rcases abs_eq (by norm_num : (0:ℚ) ≤ 1/2) |>.1 h' with h' | h' <;> linarith
      rw [div_eq_iff hdq.ne'] at this
      have : (2 * r : ℚ) = d := by linarith
      have : 2 * r = d := by exact_mod_cast this
      omega

/-- The same for a quotient scaled by a power of two. -/
theorem rneScaled_spec (n d : Nat) (k : Int) (hd : 0 < d) :
    |(rneScaled n d k : ℚ) - n / d * 2 ^ (-k)| ≤ 1 / 2 ∧
      (|(rneScaled n d k : ℚ) - n / d * 2 ^ (-k)| = 1 / 2 → rneScaled n d k % 2 = 0) := by
  cases k with
  | ofNat k =>
    have h := rneDiv_spec n (d * 2 ^ k) (by positivity)
    have e : (n : ℚ) / (d * 2 ^ k : ℕ) = n / d * 2 ^ (-(Int.ofNat k)) := by
      rw [Int.ofNat_eq_natCast, zpow_neg, zpow_natCast]; push_cast; rw [div_mul_eq_div_div]; rfl
    rw [e] at h
    exact h
  | negSucc k =>
    have h := rneDiv_spec (n * 2 ^ (k + 1)) d hd
    have e : ((n * 2 ^ (k + 1) : ℕ) : ℚ) / d = n / d * 2 ^ (-(Int.negSucc k)) := by
      rw [Int.neg_negSucc]; push_cast; rw [show ((k : ℤ) + 1) = ((k + 1 : ℕ) : ℤ) by push_cast; rfl, zpow_natCast]; ring
    rw [e] at h
    exact h

/-- A number within one half of `y` is at least as near to `y` as every other integer, and a tie is exactly one half. -/
theorem nearest_of_half {r : ℕ} {y : ℚ} (h : |(r : ℚ) - y| ≤ 1 / 2) (K : ℤ) (hK : K ≠ r) : |(r : ℚ) - y| ≤ |(K : ℚ) - y| ∧ (|(r : ℚ) - y| = |(K : ℚ) - y| → |(r : ℚ) - y| = 1 / 2) := by
  have h1 : (1 : ℚ) ≤ |(K : ℚ) - r| := by
    have : (1 : ℤ) ≤ |K - r| := Int.one_le_abs (sub_ne_zero.2 hK)
    have : ((1 : ℤ) : ℚ) ≤ ((|K - r| : ℤ) : ℚ) := by exact_mod_cast this
    simpa using this
  have h2 : |(K : ℚ) - r| ≤ |(K : ℚ) - y| + |(r : ℚ) - y| := by
    have := abs_sub_le (K : ℚ) y r
    rwa [abs_sub_comm y (r : ℚ)] at this
  constructor
  · linarith
  · intro h3; linarith

/-- `ratLog2` is the exponent of the highest bit. -/
theorem ratLog2_spec (n d : Nat) (hn : n ≠ 0) (hd : d ≠ 0) :
    (2 : ℚ) ^ ratLog2 n d ≤ n / d ∧ (n : ℚ) / d < 2 ^ (ratLog2 n d + 1) := by
  have hdq : (0 : ℚ) < d := by exact_mod_cast Nat.pos_of_ne_zero hd
  have a1 : 2 ^ Nat.log2 n ≤ n := Nat.log2_self_le hn
  have a2 : n < 2 ^ (Nat.log2 n + 1) := Nat.lt_log2_self
  have b1 : 2 ^ Nat.log2 d ≤ d := Nat.log2_self_le hd
  have b2 : d < 2 ^ (Nat.log2 d + 1) := Nat.lt_log2_self
  set A := Nat.log2 n
  set B := Nat.log2 d
  have a1' : (2 : ℚ) ^ (A : ℤ) ≤ n := by rw [zpow_natCast]; exact_mod_cast a1
  have a2' : (n : ℚ) < 2 ^ ((A : ℤ) + 1) := by
    rw [show (A : ℤ) + 1 = ((A + 1 : ℕ) : ℤ) by push_cast; rfl, zpow_natCast]; exact_mod_cast a2
  have b1' : (2 : ℚ) ^ (B : ℤ) ≤ d := by rw [zpow_natCast]; exact_mod_cast b1
  have b2' : (d : ℚ) < 2 ^ ((B : ℤ) + 1) := by
    rw [show (B : ℤ) + 1 = ((B + 1 : ℕ) : ℤ) by push_cast; rfl, zpow_natCast]; exact_mod_cast b2
  have two : (2 : ℚ) ≠ 0 := by norm_num
  have hi : (n : ℚ) / d < 2 ^ ((A : ℤ) - B + 1) := by
    rw [div_lt_iff₀ hdq]
    calc (n : ℚ) < 2 ^ ((A : ℤ) + 1) := a2'
      _ = 2 ^ ((A : ℤ) - B + 1) * 2 ^ (B : ℤ) := by rw [← zpow_add₀ two]; congr 1; ring
      _ ≤ _ := by gcongr
  have lo : (2 : ℚ) ^ ((A : ℤ) - B - 1) ≤ n / d := by
    rw [le_div_iff₀ hdq]
    calc (2 : ℚ) ^ ((A : ℤ) - B - 1) * d ≤ 2 ^ ((A : ℤ) - B - 1) * 2 ^ ((B : ℤ) + 1) := by gcongr
      _ = 2 ^ (A : ℤ) := by rw [← zpow_add₀ two]; congr 1; ring
      _ ≤ _ := a1'
  unfold ratLog2
  simp only
  rcases ht : ((A : ℤ) - B) with k | k
  · simp only [show Nat.log2 n = A from rfl, show Nat.log2 d = B from rfl, ht]
    rw [ht] at hi lo
    split
    · rename_i h
      refine ⟨?_, hi⟩
      rw [le_div_iff₀ hdq, Int.ofNat_eq_natCast, zpow_natCast, mul_comm]; exact_mod_cast h
    · rename_i h
      refine ⟨lo, ?_⟩
      rw [div_lt_iff₀ hdq, sub_add_cancel, Int.ofNat_eq_natCast, zpow_natCast, mul_comm]
      have : n < d * 2 ^ k := by omega
      exact_mod_cast this
  · simp only [show Nat.log2 n = A from rfl, show Nat.log2 d = B from rfl, ht]
    rw [ht] at hi lo
    have e : (2 : ℚ) ^ (Int.negSucc k) = 1 / 2 ^ (k + 1) := by
      rw [Int.negSucc_eq, zpow_neg, one_div, show ((k : ℤ) + 1) = ((k + 1 : ℕ) : ℤ) by push_cast; rfl, zpow_natCast]
    split
    · rename_i h
      refine ⟨?_, hi⟩
      rw [e, div_le_div_iff₀ (by positivity) hdq, one_mul]; exact_mod_cast h
    · rename_i h
      refine ⟨lo, ?_⟩
      rw [sub_add_cancel, e, div_lt_div_iff₀ hdq (by positivity), one_mul]
      have : n * 2 ^ (k + 1) < d := by omega
      exact_mod_cast this

/-- The value of finite magnitude bits. -/
def Format.magVal (f : Format) (k : Nat) : ℚ :=
  if k / 2 ^ f.fracBits = 0 then k * 2 ^ f.lsbExp
  else (2 ^ f.fracBits + k % 2 ^ f.fracBits : ℕ) * 2 ^ (f.lsbExp + (k / 2 ^ f.fracBits : ℕ) - 1)

theorem Format.toRat_eq {f : Format} {w : Word} (h : f.isNonFinite w = false) :
    f.toRat w = some ((if f.signOf w then -1 else 1) * f.magVal (f.magOf w)) := by
  unfold Format.toRat
  rw [Format.unpack_of_finite h]
  unfold Format.unpackFinite Format.magVal
  split <;> simp only [FVal.toRat, mul_assoc]

theorem Format.toRat_none {f : Format} {w : Word} (h : f.isNonFinite w = true) : f.toRat w = none := by
  unfold Format.toRat
  rcases Format.nonFinite_cases h with h | h <;> rw [h] <;> rfl

theorem Format.toRat_some {f : Format} {w : Word} {x : ℚ} (h : f.toRat w = some x) :
    f.magOf w < f.infMag ∧ x = (if f.signOf w then -1 else 1) * f.magVal (f.magOf w) := by
  cases hf : f.isNonFinite w with
  | false =>
    rw [Format.toRat_eq hf] at h
    exact ⟨by simpa [Format.isNonFinite] using hf, (Option.some.inj h).symm⟩
  | true => rw [Format.toRat_none hf] at h; exact nomatch h

/-- Magnitude bits written as an exponent step `E` and a significand `M`: the carry of `M` into `E` keeps the value. -/
theorem Format.magVal_eq (f : Format) (E M : Nat) (hM : M ≤ 2 * 2 ^ f.fracBits) (h : E = 0 ∨ 2 ^ f.fracBits ≤ M) :
    f.magVal (E * 2 ^ f.fracBits + M) = M * 2 ^ (f.lsbExp + E) := by
  have hP : 0 < 2 ^ f.fracBits := Nat.two_pow_pos _
  unfold Format.magVal
  have hPq : ((2 ^ f.fracBits : ℕ) : ℚ) ≠ 0 := by positivity
  generalize hp : 2 ^ f.fracBits = P at *
  rw [mul_comm E P, Nat.mul_add_div hP, Nat.mul_add_mod]
  rcases Nat.lt_or_ge M P with h1 | h1
  · have : E = 0 := by omega
    subst this
    rw [Nat.div_eq_of_lt h1]; simp
  · rcases Nat.lt_or_ge M (2 * P) with h2 | h2
    · have e1 : M / P = 1 := by rw [Nat.div_eq_iff hP]; omega
      have e2 : M % P = M - P := by rw [Nat.mod_eq_sub_div_mul, e1]; omega
      rw [e1, e2, if_neg (by omega), show P + (M - P) = M by omega]
      push_cast; congr 2; ring
    · have e0 : M = 2 * P := by omega
      subst e0
      have e1 : 2 * P / P = 2 := Nat.mul_div_cancel _ hP
      have e2 : 2 * P % P = 0 := Nat.mul_mod_left _ _
      rw [e1, e2, if_neg (by omega)]
      push_cast
      rw [show f.lsbExp + ((E : ℤ) + 2) - 1 = (f.lsbExp + E) + 1 by ring, zpow_add_one₀ (by norm_num)]; ring

/-- All magnitude bits are so written. -/
theorem Format.mag_decomp (f : Format) (k : Nat) : ∃ E M, k = E * 2 ^ f.fracBits + M ∧ M < 2 * 2 ^ f.fracBits ∧ (E = 0 ∨ 2 ^ f.fracBits ≤ M) := by
  have hP : 0 < 2 ^ f.fracBits := Nat.two_pow_pos _
  generalize 2 ^ f.fracBits = P at *
  have := Nat.div_add_mod k P
  have hm := Nat.mod_lt k hP
  rcases Nat.eq_zero_or_pos (k / P) with h | h
  · exact ⟨0, k, by omega, by rw [h] at this; omega, .inl rfl⟩
  · refine ⟨k / P - 1, P + k % P, ?_, by omega, .inr (by omega)⟩
    rw [Nat.sub_mul, one_mul, mul_comm]
    have : P ≤ P * (k / P) := Nat.le_mul_of_pos_right _ h
    omega

theorem Format.magVal_zero (f : Format) : f.magVal 0 = 0 := by simp [Format.magVal]

theorem Format.magVal_nonneg (f : Format) (k : Nat) : 0 ≤ f.magVal k := by
  unfold Format.magVal
  split <;> positivity

/-- The value of a packed finite magnitude. -/
theorem Format.toRat_pack (f : Format) (neg : Bool) {k : Nat} (h : k < f.infMag) :
    f.toRat (f.pack neg k) = some ((if neg then -1 else 1) * f.magVal k) := by
  have hk := Nat.lt_trans h f.infMag_lt_signMag
  rw [Format.toRat_eq (by simp [Format.isNonFinite, f.magOf_pack neg hk, h]), f.signOf_pack neg hk, f.magOf_pack neg hk]

end Sys2Proof
end

