-- ==== Sys2Proof/Tests/Slice0.lean ====
section
/-! SUPPORT. The tests: expected values are those of spec/95_test_vectors.md (vectors V<n>, sections 2.1, 2.5, programs) or
of the rule named. The second half shows, for each statement with hypotheses, a state and operands that meet them all. -/

namespace Sys2Proof.Tests

open Sys2Proof Sys2Proof.Machine Sys2Proof.Spec

/-! ### Helpers -/

/-- The state after, where there is one. -/
def after (o : Host.Outcome State Fault Refusal) : Option State :=
  match o with
  | .next t => some t
  | .fault _ => none
  | .refused _ => none

/-- The status and value answered. -/
def answered (o : Host.Outcome State Fault Refusal) : Option Response := (after o).bind (·.rsp)

/-- A configured binary32 engine with these coefficients and histories, as a commit of them leaves it. -/
def engine (n : Nat) (num den xh yh : List Word) : State :=
  { State.powerOn (single n) 0 with
      num := num, den := den, xh := xh, yh := yh, stgNum := num.map some, stgDen := den.map some, configured := true }

/-- The engine of V1: unity DC gain. -/
def v1 (xh yh : List Word) : State :=
  engine 2 [0x3E800000#64, 0x3E800000#64] [0x3F800000#64, 0xBF000000#64] xh yh

/-- The same engine, nothing run yet. -/
def v1Fresh : State := v1 [0#64, 0#64] [0#64, 0#64]

/-- One coefficient `c` over `d`. -/
def gain (c d : Word) : State := engine 1 [c] [d] [0#64] [0#64]

/-- The same engine with free values of its own. -/
def other (source : Nat) (s : State) : State := { s with source := source }

/-- An engine of `n` coefficients after power-on, and the input it takes next. -/
def fresh (n : Nat) (is : List Input) : State := (State.powerOn (single n) 0).withInputs is

/-! ### WellFormed: each check refuses an ill-formed term -/

theorem test_wellFormed_accepts_widest : Instr.WellFormed .binary32 (.stageDen 255 0xFFFFFFFF#64) = true ∧
    Instr.WellFormed .binary64 (.filter 0xFFFFFFFFFFFFFFFF#64) = true := by decide

theorem test_wellFormed_refuses_wide_filter : Instr.WellFormed .binary32 (.filter 0x100000000#64) = false := by decide

theorem test_wellFormed_refuses_wide_fill : Instr.WellFormed .binary32 (.fill 0x100000000#64) = false := by decide

theorem test_wellFormed_refuses_wide_stageNum : Instr.WellFormed .binary32 (.stageNum 0 0x100000000#64) = false := by decide

theorem test_wellFormed_refuses_wide_stageDen : Instr.WellFormed .binary32 (.stageDen 0 0x100000000#64) = false := by decide

theorem test_wellFormed_refuses_index_256 : Instr.WellFormed .binary64 (.stageNum 256 0#64) = false ∧
    Instr.WellFormed .binary64 (.stageDen 256 0#64) = false := by decide

/-! ### Decode: words written out from R50 and R53 as RSV1 (16), IDX (8), RSV0 (4), OP (4) -/

theorem test_decode_construct : decode 0b0000000000000000_00000000_0000_0001#32 7#64 = .ok .construct := by decide

theorem test_decode_filter : decode 0b0000000000000000_00000000_0000_0010#32 7#64 = .ok (.filter 7#64) := by decide

theorem test_decode_reset : decode 0b0000000000000000_00000000_0000_0011#32 7#64 = .ok .reset := by decide

theorem test_decode_fill : decode 0b0000000000000000_00000000_0000_0100#32 7#64 = .ok (.fill 7#64) := by decide

theorem test_decode_setCoeffs : decode 0b0000000000000000_00000000_0000_0101#32 7#64 = .ok .setCoeffs := by decide

theorem test_decode_getLast : decode 0b0000000000000000_00000000_0000_0110#32 7#64 = .ok .getLast := by decide

theorem test_decode_stageNum : decode 0b0000000000000000_10000001_0000_0111#32 7#64 = .ok (.stageNum 129 7#64) := by decide

theorem test_decode_stageDen : decode 0b0000000000000000_00000010_0000_1000#32 7#64 = .ok (.stageDen 2 7#64) := by decide

/-- R103: the opcode is checked before the reserved fields. -/
theorem test_decode_priority : decode 0b0000000000000000_00000001_0001_1001#32 7#64 = .error .illegalOpcode ∧
    decode 0b0000000000000001_00000011_0000_0111#32 7#64 = .error .reservedField ∧
    decode 0b0000000000000000_00000000_0001_0011#32 7#64 = .error .reservedField := by decide

/-- 95_test_vectors.md section 2.2, V15: the two words of `STAGE.DEN 1, -0.5`. -/
theorem test_encode_stageDen : encode (.stageDen 1 0xBF000000#64) = (0x00000108#32, 0xBF000000#64) := by decide

theorem test_decodeTableWord : decodeTableWord 32 0x00000207 = some (.stageNum 2 0#64) ∧
    decodeTableWord 64 0x3F80000000000002 = some (.filter 0x3F800000#64) ∧ decodeTableWord 32 0x00000009 = none := by decide

/-! ### The commands, one step each -/

/-- V4: `den[0]` is a zero: infinities of the sign of the sum, every status OK (R87). -/
theorem test_filter_zero_divisor : answered (exec (.filter 0x3F800000#64) (gain 0x3F800000#64 0#64)) =
      some ⟨.ok, some 0x7F800000#64⟩ ∧
    answered (exec (.filter 0xBF800000#64) (gain 0x3F800000#64 0#64)) = some ⟨.ok, some 0xFF800000#64⟩ := by decide

/-- V10: the third output of the two groupings differs in the last bit (R84). -/
theorem test_filter_grouping :
    let s : State := engine 3 [0xBF0ADFAE#64, 0x3F63FA85#64, 0x3F4D87E6#64] [0x3F800000#64, 0xBF705682#64, 0xBF72F8C3#64]
      [0x3F60D829#64, 0x3DA9A020#64, 0#64] [0xBEE3C70D#64, 0xBD38090E#64, 0#64]
    answered (exec (.filter 0xBE734B31#64) s) = some ⟨.ok, some 0x3F0469E4#64⟩ ∧
    answered (exec (.filter 0xBE734B31#64) { s with build := ⟨3, .binary32, .grouped, false⟩ }) =
      some ⟨.ok, some 0x3F0469E3#64⟩ := by decide

/-- V8, first command: the bits of the data word are kept, in every entry. -/
theorem test_fill : (after (exec (.fill 0x7FC00001#64) v1Fresh)).map (fun t => (t.xh, t.yh, t.rsp)) =
    some ([0x7FC00001#64, 0x7FC00001#64], [0x7FC00001#64, 0x7FC00001#64], some ⟨.ok, some 0x7FC00001#64⟩) := by decide

/-- V19. -/
theorem test_reset : (after (exec .reset (v1 [1#64, 2#64] [3#64, 4#64]))).map
    (fun t => (t.xh, t.yh, t.rsp, t.configured)) =
    some ([0#64, 0#64], [0#64, 0#64], some ⟨.ok, some 0#64⟩, true) := by decide

/-- P1, last command: the newest output, not the oldest. -/
theorem test_getLast : answered (exec .getLast (v1 [0#64, 0#64] [0x3D900000#64, 0x3EC00000#64])) =
    some ⟨.ok, some 0x3D900000#64⟩ := by decide

/-- V16: a staged value waits for a commit. -/
theorem test_stageNum : (after (exec (.stageNum 0 0x3F400000#64) v1Fresh)).map (fun t => (t.stgNum, t.num)) =
    some ([some 0x3F400000#64, some 0x3E800000#64], [0x3E800000#64, 0x3E800000#64]) := by decide

/-- P1: `STAGE.DEN 3` with `N = 3`. -/
theorem test_stageDen_range : answered (exec (.stageDen 3 0x41100000#64) (fresh 3 [])) = some ⟨.indexRange, none⟩ ∧
    answered (exec (.stageDen 2 0x41100000#64) (fresh 3 [])) = some ⟨.ok, none⟩ := by decide

/-- V14: a commit with an entry unwritten, and FILTER before any commit. -/
theorem test_construct_incomplete : answered (exec .construct (fresh 2 [])) = some ⟨.stageIncomplete, none⟩ ∧
    answered (exec (.filter 0x3F800000#64) (fresh 2 [])) = some ⟨.notConfigured, none⟩ := by decide

/-- V17: a commit reloads the set and zero-fills the histories. -/
theorem test_construct : (after (exec .construct (v1 [1#64, 2#64] [3#64, 4#64]))).map (fun t => (t.num, t.xh, t.yh)) =
    some ([0x3E800000#64, 0x3E800000#64], [0#64, 0#64], [0#64, 0#64]) := by decide

/-- V9: SET_COEFFS keeps the histories. -/
theorem test_setCoeffs : (after (exec .setCoeffs
      { v1 [1#64, 2#64] [3#64, 4#64] with stgNum := [some 0x3F800000#64, some 0#64] })).map
      (fun t => (t.num, t.den, t.xh, t.yh)) =
    some ([0x3F800000#64, 0#64], [0x3F800000#64, 0xBF000000#64], [1#64, 2#64], [3#64, 4#64]) := by decide

/-! ### The step -/

/-- A rejected word leaves its status and nothing else (R102), and the port keeps the low `W` bits of the data word. -/
theorem test_step_rejects_and_narrows :
    after (step (offer 0x00000013#32 5#64 v1Fresh)) = some { v1Fresh with rsp := some ⟨.reservedField, none⟩ } ∧
    answered (step (offer 0x00000004#32 0x140800000#64 v1Fresh)) = some ⟨.ok, some 0x40800000#64⟩ := by decide

/-- R113: hardware reset, whatever command is in flight. -/
theorem test_step_hardwareReset : after (step { v1 [1#64, 2#64] [3#64, 4#64] with
      inputs := [.hardwareReset (some (0x00000001#32, 0#64))], rsp := some ⟨.ok, none⟩ }) =
    some (State.powerOn (single 2) 0) := by decide

theorem test_withFetchWord : after (step (State.reset.withFetchWord 32 0x00000207)) =
    some { State.reset with stgNum := [none, none, some 0#64], rsp := some ⟨.ok, none⟩ } := by decide

/-! ### Host sequences, the assembler, the designer -/

/-- V23, second step: `(y_0, y_1) = (0.625, 0.25)`. -/
theorem test_cascade :
    let s0 := v1 [0x3F800000#64, 0#64] [0x3E800000#64, 0#64]
    let s1 := v1 [0x3E800000#64, 0#64] [0x3D800000#64, 0#64]
    (match cFilter 0x3F800000#64 [s0, s1] with
      | .next c => some (c.sections.map (·.rsp), c.output)
      | .fault _ => none
      | .refused _ => none) =
    some ([some ⟨.ok, some 0x3F200000#64⟩, some ⟨.ok, some 0x3E800000#64⟩], some 0x3E800000#64) := by decide

/-- R97: commands of the host between the section commands: the FILL of section 1 is what its FILTER then finds, and the
CONSTRUCT of section 0 comes too late for the step's FILTER of it. With `v1`, FILL 0 leaves a FILTER of 0.625 at 0.15625. -/
theorem test_cascade_amid :
    let s0 := v1 [0x3F800000#64, 0#64] [0x3E800000#64, 0#64]
    let s1 := v1 [0x3E800000#64, 0#64] [0x3D800000#64, 0#64]
    (match cFilterAmid 0 0x3F800000#64 [[], [(1, .fill 0#64), (0, .construct)]] [s0, s1] with
      | .next c => some (c.sections.map (·.yh), c.output)
      | .fault _ => none
      | .refused _ => none) =
    some ([[0#64, 0#64], [0x3E200000#64, 0#64]], some 0x3E200000#64) := by decide +kernel

/-- R57: lines of the syntax (the first is V15's), a comment, and the words they stand for. -/
theorem test_assemble : assemble .binary32 2 "STAGE.DEN 1, -0.5 ; comment\nFILTER 0x3F800000\nFILL +inf".toList =
    some [(0x00000108#32, 0xBF000000#64), (0x00000002#32, 0x3F800000#64), (0x00000004#32, 0x7F800000#64)] := by decide

/-- A host library for the tests: `tan` is 1 everywhere, as at a quarter of the sample rate, `sin` is 0 and `cos` is 1. -/
def flatLib : HostLib where
  tan := fun _ => 0x3FF0000000000000#64
  sin := fun _ => 0#64
  cos := fun _ => 0x3FF0000000000000#64
  sqrt := fun x => x
  atan2 := fun _ _ => 0#64
  hypot := fun x _ => x
  nan := 0x7FF8000000000000#64
  nyquist := fun _ _ _ _ => 0#64

/-- A library whose `cos` is 1 at 0 and -1 elsewhere, as at the one pole angle of order 1: that pole is at -1. -/
def halfLib : HostLib := { flatLib with cos := fun x => if x = 0#64 then 0x3FF0000000000000#64 else 0xBFF0000000000000#64 }

/-- The designer with no tolerance set (R69). -/
def plain : DesignerParams := ⟨.warped, .source, none⟩

/-- A call at a sample time of 1 s, with edges of 0.5 and 1 rad/s. -/
def call (order : Nat) (t : FilterType) : DesignCall :=
  ⟨order, t, 0x3FF0000000000000#64, 0x3FE0000000000000#64, 0x3FF0000000000000#64⟩

/-- A call with a second edge of 4 rad/s, above half of the sample rate. -/
def callAbove : DesignCall := { call 1 .bandpass with edge2 := 0x4010000000000000#64 }

/-- S1. -/
theorem test_numCoefficients : numCoefficients 1 .lowpass = 2 ∧ numCoefficients 2 .lowpass = 3 ∧
    numCoefficients 1 .bandpass = 3 ∧ numCoefficients 2 .bandpass = 5 := by decide

/-- R59: the second edge defaults to 0, and a low-pass leaves it out. -/
theorem test_second_edge : (({ call 1 .bandpass with edge2 := 5#64 } : DesignCall).normal.edge2,
    ({ call 1 .lowpass with edge2 := 5#64 } : DesignCall).normal.edge2,
    ({ order := 1, type := .lowpass, sampleTime := 1#64, edge1 := 2#64 } : DesignCall).edge2) = (5#64, 0#64, 0#64) := by decide

/-- S7: the zeros of a band-pass alternate. -/
theorem test_bandpass_zeros :
    discreteZeros flatLib plain (call 2 .bandpass) = [plusOne, minusOne, plusOne, minusOne] := by decide

/-- Section 2.5, the band-pass row: the numerator is a multiple of `z^2 - 1` (R69; here the constant term first). -/
theorem test_expandRoots : (expandRoots flatLib.arith (discreteZeros flatLib plain (call 1 .bandpass))).map Cplx.re =
    [0xBFF0000000000000#64, 0#64, 0x3FF0000000000000#64] := by decide +kernel

/-- Section 2.5, first row: the designed coefficients in binary32 (R72). -/
theorem test_narrow : narrowCoeff .binary32 0xBFD2C732519BA211#64 = 0xBE963993#64 ∧
    narrowCoeff .binary32 0x3FD69C66D7322EF8#64 = 0x3EB4E337#64 := by decide

/-! ### Witnesses: the hypotheses of each statement, met together -/

theorem inv_v1 {x0 x1 y0 y1 : Word} (h : AllFit .binary32 [x0, x1, y0, y1]) (is : List Input) :
    EngineInv ((v1 [x0, x1] [y0, y1]).withInputs is) := by
  have h0 : Format.Fits .binary32 x0 ∧ Format.Fits .binary32 x1 ∧ Format.Fits .binary32 y0 ∧
      Format.Fits .binary32 y1 := by simpa [AllFit] using h
  refine ⟨(by decide : ShapeOk v1Fresh), ?_, fun r hr => (nomatch hr), fun _ => ?_⟩
  · simp [WordsOk, AllFit, StagedFit, State.withInputs, v1, engine, single, State.powerOn, h0]
    simp [Format.width]
  · simp [StageComplete, State.withInputs, v1, engine]

theorem inv_v1Fresh : EngineInv v1Fresh :=
  inv_v1 (x0 := 0#64) (x1 := 0#64) (y0 := 0#64) (y1 := 0#64) (by simp [AllFit, Format.width]) []

theorem inv_fresh : EngineInv (fresh 3 []) := by
  refine ⟨by decide, ?_, fun r hr => (nomatch hr), fun h => (nomatch h)⟩
  simp [WordsOk, AllFit, StagedFit, State.withInputs, fresh, single, State.powerOn, posZero, Format.width]

theorem inv_other (k : Nat) {s : State} (h : EngineInv s) : EngineInv (other k s) := h

theorem witness_DecodeOfEncode_and_AssembleOfRender : Instr.WellFormed .binary32 (.stageNum 255 0xFFFFFFFF#64) = true ∧
    Instr.WellFormed .binary64 (.fill 0xFFFFFFFFFFFFFFFF#64) = true := by decide

theorem witness_EncodeOfDecode : decode 0x0000FF08#32 0xFFFFFFFF#64 = .ok (.stageDen 255 0xFFFFFFFF#64) ∧
    Format.Fits .binary32 0xFFFFFFFF#64 := by decide

theorem witness_EveryWordSelectsOneRowOrIsRejected : 0x00000001#32 &&& 0xFFFFFFFF#32 = 0x00000001#32 ∧
    0x00000002#32 &&& 0xFFFFFFFF#32 = 0x00000002#32 ∧ 0x00000003#32 &&& 0xFFFFFFFF#32 = 0x00000003#32 ∧
    0x00000004#32 &&& 0xFFFFFFFF#32 = 0x00000004#32 ∧ 0x00000005#32 &&& 0xFFFFFFFF#32 = 0x00000005#32 ∧
    0x00000006#32 &&& 0xFFFFFFFF#32 = 0x00000006#32 ∧ 0x0000FF07#32 &&& 0xFFFF00FF#32 = 0x00000007#32 ∧
    0x0000FF08#32 &&& 0xFFFF00FF#32 = 0x00000008#32 := by decide

/-- One state for each status: R103 in order. -/
theorem witness_StatusOfEveryCommand :
    let s (n : Nat) (w : Cmd) : State := fresh n [.command w 0#64]
    (∀ n ∈ [1, 2, 256], ∀ w, (s n w).build.Legal ∧ (s n w).inputs = .command w 0#64 :: []) ∧
    statusOf (s 1 0#32) 0x00000119#32 = .illegalOpcode ∧ statusOf (s 1 0#32) 0x00010107#32 = .reservedField ∧
    statusOf (s 1 0#32) 0x00000102#32 = .reservedField ∧ statusOf (s 1 0#32) 0x00000107#32 = .indexRange ∧
    statusOf (s 256 0#32) 0x0000FF07#32 = .ok ∧ statusOf (s 1 0#32) 0x00000002#32 = .notConfigured ∧
    statusOf (s 1 0#32) 0x00000005#32 = .stageIncomplete ∧ statusOf v1Fresh 0x00000005#32 = .ok := by
  refine ⟨fun n hn w => ⟨?_, rfl⟩, ?_⟩
  · have : n = 1 ∨ n = 2 ∨ n = 256 := by simpa using hn
    rcases this with rfl | rfl | rfl
    · exact (by decide : (single 1).Legal)
    · exact (by decide : (single 2).Legal)
    · exact (by decide : (single 256).Legal)
  · decide

theorem witness_StepRunsTheDecodedInstruction :
    let s := v1Fresh.withInputs [.command 0x00000108#32 5#64, .command 0x00000013#32 5#64]
    s.build.Legal ∧ s.inputs = .command 0x00000108#32 5#64 :: [.command 0x00000013#32 5#64] ∧
    decode 0x00000108#32 (portWord s.build.fmt 5#64) = .ok (.stageDen 1 5#64) ∧
    decode 0x00000013#32 (portWord s.build.fmt 5#64) = .error .reservedField ∧
    decodeTableWord 64 0x3F80000000000002 = some (.filter 0x3F800000#64) ∧
    Instr.WellFormed s.build.fmt (.filter 0x3F800000#64) = true ∧ v1Fresh.inputs = [] := by decide

theorem witness_EveryInputIsAnswered :
    let s := fresh 2 [.command 0x00000004#32 5#64, .hardwareReset none]
    s.build.Legal ∧ s.inputs = .command 0x00000004#32 5#64 :: [.hardwareReset none] := by decide

theorem witness_LaterInputsDoNotAffectAStep :
    let s := fresh 2 [.command 0x00000004#32 5#64, .hardwareReset none]
    s.inputs = .command 0x00000004#32 5#64 :: [.hardwareReset none] ∧ ∃ t, step s = .next t := ⟨rfl, _, rfl⟩

theorem witness_RejectedCommandWritesNothing :
    let s := fresh 2 [.command 0x00000002#32 5#64, .command 0x00000003#32 0#64]
    s.build.Legal ∧ ∃ t, step s = .next t ∧ t.rsp = some ⟨.notConfigured, none⟩ ∧ Status.notConfigured ≠ .ok :=
  ⟨by decide, _, rfl, rfl, by decide⟩

theorem witness_StepKeepsTheInvariant :
    let s := (v1 [0x3F800000#64, 0#64] [0x3E800000#64, 0#64]).withInputs [.command 0x00000002#32 0x3F800000#64]
    EngineInv s ∧ ∃ t, step s = .next t := 
  ⟨inv_v1 (by simp [AllFit, Format.width]) _, _, rfl⟩

theorem witness_PowerOnMeetsTheInvariant : (single 1).Legal ∧ (single 256).Legal := by decide

theorem witness_NothingStopsTheMachine : (fresh 256 []).build.Legal ∧ ¬ (fresh 0 []).build.Legal ∧
    ¬ (fresh 257 []).build.Legal := by decide

theorem witness_BuildParametersNeverChange : ∃ t, core.run 2 (fresh 2 [.hardwareReset none]) = .next t := ⟨_, rfl⟩

theorem witness_HardwareResetState :
    let s := { v1 [1#64, 2#64] [3#64, 4#64] with inputs := [.hardwareReset (some (0x00000001#32, 0#64))] }
    s.build.Legal ∧ s.inputs = .hardwareReset (some (0x00000001#32, 0#64)) :: [] ∧
    ∃ u, exec (.filter 0#64) (State.powerOn s.build s.source) = .next u := ⟨by decide, rfl, _, rfl⟩

theorem witness_DataWordUse : v1Fresh.build.Legal ∧ v1Fresh.build.fmt.Fits 0xFFFFFFFF#64 ∧
    0x0000FF07#32 &&& 0xFFFF00FF#32 = 0x00000007#32 ∧ 0x0000FF08#32 &&& 0xFFFF00FF#32 = 0x00000008#32 := by decide

theorem witness_StageNumEffect_and_StageDenEffect : (0x00000207#32 &&& 0xFFFF00FF#32 = 0x00000007#32) ∧
    (0x00000208#32 &&& 0xFFFF00FF#32 = 0x00000008#32) ∧ v1Fresh.build.n ≤ 2 ∧ 1 < v1Fresh.build.n ∧
    (fresh 3 []).build = single 3 ∧ (fresh 3 []).stgNum.length = 3 ∧ (fresh 3 []).stgDen.length = 3 := by decide

theorem witness_ConstructEffect_and_SetCoeffsEffect : none ∈ (fresh 2 []).stgNum ∧ none ∈ (fresh 2 []).stgDen ∧
    v1Fresh.stgNum = [0x3E800000#64, 0x3E800000#64].map some ∧
    v1Fresh.stgDen = [0x3F800000#64, 0xBF000000#64].map some ∧
    v1Fresh.build = single 2 ∧ v1Fresh.stgNum.length = 2 ∧ v1Fresh.stgDen.length = 2 := by decide

theorem witness_SetCoeffsEffect_example :
    let s := v1 [0x3F800000#64, 0x3F800000#64] [0x3F200000#64, 0x3E800000#64]
    s.build = single 2 ∧ s.stgNum.length = 2 ∧ s.stgDen.length = 2 ∧ s.xh = [0x3F800000#64, 0x3F800000#64] ∧
    s.yh = [0x3F200000#64, 0x3E800000#64] := by decide

theorem witness_FilterEffect :
    let s := v1 [0x3F800000#64, 0#64] [0x3E800000#64, 0#64]
    (fresh 2 []).configured = false ∧ ShapeOk s ∧ ShapeOk (gain 0#64 0#64) ∧ s.configured = true ∧ s.build = single 2 ∧
    s.num = [0x3E800000#64, 0x3E800000#64] ∧ s.den = [0x3F800000#64, 0xBF000000#64] ∧
    s.xh = [0x3F800000#64, 0#64] ∧ s.yh = [0x3E800000#64, 0#64] := by decide

/-- Words of every opcode that decode rejects: a reserved field or a stray index. -/
theorem witness_reservedField_clauses : (0x00010001#32).extractLsb' 0 4 = 1#4 ∧ 0x00010001#32 ≠ 0x00000001#32 ∧
    (0x00000102#32).extractLsb' 0 4 = 2#4 ∧ 0x00000102#32 ≠ 0x00000002#32 ∧ (0x00000013#32).extractLsb' 0 4 = 3#4 ∧
    0x00000013#32 ≠ 0x00000003#32 ∧ (0x80000004#32).extractLsb' 0 4 = 4#4 ∧ 0x80000004#32 ≠ 0x00000004#32 ∧
    (0x00000015#32).extractLsb' 0 4 = 5#4 ∧ 0x00000015#32 ≠ 0x00000005#32 ∧ (0x00008006#32).extractLsb' 0 4 = 6#4 ∧
    0x00008006#32 ≠ 0x00000006#32 ∧ (0x00010307#32).extractLsb' 0 4 = 7#4 ∧ (0x00010307#32).extractLsb' 16 16 ≠ 0#16 ∧
    (0x00000318#32).extractLsb' 0 4 = 8#4 ∧ (0x00000318#32).extractLsb' 4 4 ≠ 0#4 := by decide

/-- Staging before a FILTER, and a non-finite FILL. -/
theorem witness_StageNumEffect_and_FillEffect_runs :
    (∃ t u, exec (.stageNum 1 5#64) v1Fresh = .next u ∧ exec (.filter 0x3F800000#64) v1Fresh = .next t) ∧
    ShapeOk v1Fresh ∧ 2 ≤ v1Fresh.build.n ∧ v1Fresh.configured = true ∧
    v1Fresh.build.fmt.isNonFinite (v1Fresh.den.headD posZero) = false ∧
    v1Fresh.build.fmt.isNonFinite 0x7FC00001#64 = true := ⟨⟨_, _, rfl, rfl⟩, by decide⟩

theorem witness_ResetEffect_FillEffect : v1Fresh.build.Legal ∧ v1Fresh.build = single 2 ∧ v1Fresh.configured = true ∧
    v1Fresh.num = [0x3E800000#64, 0x3E800000#64] ∧ v1Fresh.den = [0x3F800000#64, 0xBF000000#64] ∧
    (after (exec .reset v1Fresh)).isSome = true := by decide

theorem witness_GetLastEffect : v1Fresh.yh[0]? = some 0#64 ∧
    (∃ t, exec (.filter 0x3F800000#64) v1Fresh = .next t ∧ t.rsp = some ⟨.ok, some 0x3E800000#64⟩) ∧
    (∃ t u, exec .setCoeffs v1Fresh = .next t ∧ exec .getLast t = .next u) ∧
    (∃ t, exec .construct v1Fresh = .next t ∧ t.rsp = some ⟨.ok, none⟩) ∧
    (v1 [0x3F800000#64, 0x3F800000#64] [0x3F200000#64, 0x3E800000#64]).build = single 2 :=
  ⟨rfl, ⟨_, rfl, by decide⟩, ⟨_, _, rfl, rfl⟩, ⟨_, rfl, rfl⟩, rfl⟩

/-- Every command completes on one state, each as no other form: the clauses of the frame and of idempotence. -/
theorem witness_FrameOfEveryCommand_and_AllButFilterAreIdempotent : ∀ i ∈ [Instr.construct, .filter 1#64, .reset, .fill 1#64,
      .setCoeffs, .getLast, .stageNum 1 7#64, .stageDen 1 7#64],
    answered (exec i v1Fresh) ≠ none := by decide

theorem witness_StagingIsInvisibleUntilCommit : ∃ t, exec (.filter 0x3F800000#64) v1Fresh = .next t := ⟨_, rfl⟩

theorem witness_CoefficientsUnobservableBeforeCommit :
    let s := { v1Fresh with configured := false }
    s.configured = false ∧ ∃ t, exec .construct s = .next t ∧ t.configured = true := ⟨rfl, _, rfl, rfl⟩

theorem witness_OldestOutputIsNeverRead : ShapeOk v1Fresh ∧ 2 ≤ v1Fresh.build.n ∧ v1Fresh.configured = true ∧
    ∃ t, exec (.filter 0x3F800000#64) v1Fresh = .next t := ⟨by decide, by decide, rfl, _, rfl⟩

theorem witness_StagingOrderDoesNotMatter :
    let is : List Instr := [.stageNum 0 1#64, .stageDen 0 2#64]
    let js : List Instr := [.stageDen 0 2#64, .stageNum 0 1#64]
    is.Perm js ∧ (is.map stageTarget).Nodup ∧
    (∀ i ∈ is, ∃ bank k, stageTarget i = some (bank, k) ∧ k < v1Fresh.build.n) := by
  refine ⟨List.Perm.swap _ _ _, by decide, fun i hi => ?_⟩
  have : i = .stageNum 0 1#64 ∨ i = .stageDen 0 2#64 := by simpa using hi
  rcases this with rfl | rfl
  · exact ⟨_, _, rfl, by decide⟩
  · exact ⟨_, _, rfl, by decide⟩

theorem witness_LoadSequencesLoadTheSet : ShapeOk (fresh 2 []) ∧ [1#64, 2#64].length = (fresh 2 []).build.n := by decide

theorem witness_FilterIsTheDifferenceEquation : [(3 : ℚ), 2].length = 2 := rfl

/-- The accumulator `y[n] = x[n] + y[n-1]` on a step: `y[n] = n + 1`. -/
theorem witness_TransferFunctionOfASection : [(1 : ℚ), 0].length = [(1 : ℚ), -1].length ∧ [(1 : ℚ), -1].getD 0 0 ≠ 0 ∧
    Runs false .perTerm [(1 : ℚ), 0] [1, -1] (fun _ => 1) (fun n => n + 1) := by
  refine ⟨rfl, by norm_num, fun n => ?_⟩
  cases n <;> simp [filterOutput, filterAcc, subtractFeedback, macSum, macDiff, macAdd, macSub, Arith.exact, recent, past,
    List.range_succ]
  ring

/-- The accumulator twice. -/
theorem witness_TransferFunctionOfACascade :
    let signal : Nat → Nat → ℚ := fun i n => if i = 0 then 1 else if i = 1 then n + 1 else (n + 1) * (n + 2) / 2
    ∀ i c, [([(1 : ℚ), 0], [(1 : ℚ), -1]), ([1, 0], [1, -1])][i]? = some c → c.1.length = c.2.length ∧ c.2.getD 0 0 ≠ 0 ∧
      Runs true .grouped c.1 c.2 (signal i) (signal (i + 1)) := by
  intro signal i c h
  have hi : (i = 0 ∨ i = 1) ∧ c = ([(1 : ℚ), 0], [(1 : ℚ), -1]) := by
    match i, h with
    | 0, h => exact ⟨.inl rfl, (Option.some.inj h).symm⟩
    | 1, h => exact ⟨.inr rfl, (Option.some.inj h).symm⟩
  obtain ⟨h01, rfl⟩ := hi
  refine ⟨rfl, by norm_num, fun n => ?_⟩
  rcases h01 with rfl | rfl <;> cases n <;>
    simp [signal, filterOutput, filterAcc, subtractFeedback, macSum, macAdd, Arith.exact, recent, past,
      List.range_succ] <;> ring

theorem witness_DcSeedingInExactArithmetic : [(1 / 4 : ℚ), 1 / 4].length = 2 ∧ [(1 : ℚ), -1 / 2].length = 2 ∧
    [(1 : ℚ), -1 / 2].getD 0 0 ≠ 0 ∧ [(1 / 4 : ℚ), 1 / 4].sum = [(1 : ℚ), -1 / 2].sum := by norm_num

theorem toRat_one : Format.toRat .binary32 0x3F800000#64 = some 1 := by
  have h : Format.unpack .binary32 0x3F800000#64 = .fin false (2 ^ 23) (-23) := by decide
  rw [Format.toRat, h]
  norm_num [FVal.toRat]

theorem toRat_two : Format.toRat .binary32 0x40000000#64 = some 2 := by
  have h : Format.unpack .binary32 0x40000000#64 = .fin false (2 ^ 23) (-22) := by decide
  rw [Format.toRat, h]
  norm_num [FVal.toRat]

theorem witness_ArithmeticIsCorrectlyRounded : Format.toRat .binary32 0x3F800000#64 = some 1 ∧
    Format.toRat .binary32 0x40000000#64 = some 2 ∧ (2 : ℚ) ≠ 0 := ⟨toRat_one, toRat_two, by norm_num⟩

theorem witness_RoundingIsNearestEven : (3 : ℕ) ≠ 0 := by decide

/-- Each kind of operand a clause asks for: infinities of both signs, a number, a zero. -/
theorem witness_ArithmeticOnInfinities :
    IsInf .binary32 0x7F800000#64 ∧ IsInf .binary32 0xFF800000#64 ∧
    Format.signOf .binary32 0x7F800000#64 ≠ Format.signOf .binary32 0xFF800000#64 ∧
    Format.isNonFinite .binary32 0x00000001#64 = false ∧ Format.isZero .binary32 0x00000001#64 = false ∧
    Format.isNaN .binary32 0x00000001#64 = false ∧ Format.isNaN .binary32 0xFF800000#64 = false ∧
    Format.isZero .binary32 0xFF800000#64 = false ∧ Format.isZero .binary32 0x80000000#64 = true := by unfold IsInf; decide

theorem witness_InvalidOperationsGiveTheDraw : Format.isNaN .binary32 0x7FC00000#64 = true ∧
    IsInf .binary32 0x7F800000#64 ∧ IsInf .binary32 0xFF800000#64 ∧
    Format.signOf .binary32 0x7F800000#64 ≠ Format.signOf .binary32 0xFF800000#64 ∧
    (Format.signOf .binary32 0x7F800000#64 ^^ Format.signOf .binary32 0x3F800000#64) ≠
      Format.signOf .binary32 0xFF800000#64 ∧
    Format.isZero .binary32 0x80000000#64 = true := by unfold IsInf; decide

/-- Every coefficient and every history entry is 1: the products are 1, the sums 1 and 2, the result 1, whatever the roundings. -/
theorem witness_FilterAgreesWithExactArithmetic (fused : Bool) (g : FbGrouping) :
    let ones : List Word := [0x3F800000#64, 0x3F800000#64]
    let onesQ : List ℚ := [1, 1]
    onesQ.length = 2 ∧ ones.map (Format.toRat .binary32) = onesQ.map some ∧ onesQ.getD 0 0 ≠ 0 ∧
    IntermediatesRepresentable .binary32 fused g 2 (onesQ.getD · 0) (onesQ.getD · 0) (onesQ.getD · 0)
      (onesQ.getD · 0) := by
  have h1 : Representable .binary32 1 := ⟨_, toRat_one⟩
  have h2 : Representable .binary32 2 := ⟨_, toRat_two⟩
  refine ⟨rfl, by simp [toRat_one], by norm_num, fun k hk => ?_, fun k hk => ?_, fun _ => ?_, ?_⟩
  · have : k = 0 ∨ k = 1 := by omega
    rcases this with rfl | rfl <;> norm_num [Finset.sum_range_succ, h1, h2]
  · have : k = 0 := by omega
    subst this
    norm_num [Finset.sum_range_succ, h1]
  · norm_num [Finset.sum_range_succ, h1]
  · norm_num [Finset.sum_range_succ, h1]

/-- V4, third step: the sum and `den[0]` are zeros, and the result is a NaN. -/
theorem witness_FilterNaNIsTheDraw : ∃ t y, exec (.filter 0#64) (gain 0x3F800000#64 0#64) = .next t ∧
    t.rsp = some ⟨.ok, some y⟩ ∧ Format.isNaN .binary32 y = true :=
  ⟨_, nanDraw (gain 0x3F800000#64 0#64), rfl, rfl, isNaN_nanDraw (gain 0x3F800000#64 0#64)⟩

/-- V4: each of its clauses. -/
theorem witness_ZeroDivisor :
    let s := gain 0x3F800000#64 0#64
    let acc (v : Word) : Word := filterAcc (Arith.ieee .binary32 0x7FC00000#64) false .perTerm s.num s.den (shiftIn v s.xh) s.yh
    s.configured = true ∧ s.build.fmt.isZero (s.den.headD posZero) = true ∧
    s.build.fmt.isZero (acc 0x3F800000#64) = false ∧ s.build.fmt.isNaN (acc 0x3F800000#64) = false ∧
    s.build.fmt.isZero (acc 0#64) = true ∧ s.build.fmt.isNaN (acc 0x7FC00000#64) = true := by decide

theorem witness_NonFiniteOutputsLatch :
    let s := v1 [0#64, 0#64] [0x7F800000#64, 0#64]
    ShapeOk s ∧ 2 ≤ s.build.n ∧ s.configured = true ∧ s.build.fmt.isNonFinite (s.den.headD posZero) = false ∧
    0 < s.build.n - 1 ∧ s.yh[0]? = some 0x7F800000#64 ∧ s.build.fmt.isNonFinite 0x7F800000#64 = true := by decide

/-- V13 with N = 2: zeros of both signs. -/
theorem witness_ZeroInputGivesZeroOutput :
    ShapeOk v1Fresh ∧ v1Fresh.configured = true ∧ (∀ c ∈ v1Fresh.num ++ v1Fresh.den, v1Fresh.build.fmt.isNonFinite c = false) ∧
    v1Fresh.build.fmt.flt posZero (v1Fresh.den.headD posZero) = true ∧ v1Fresh.xh = List.replicate v1Fresh.build.n posZero ∧
    v1Fresh.yh = List.replicate v1Fresh.build.n posZero ∧
    (∀ z ∈ [0#64, 0x80000000#64], v1Fresh.build.fmt.isZero z = true) :=
  ⟨by decide, rfl, by simp [v1Fresh, v1, engine, single, State.powerOn, Format.isNonFinite, Format.magOf, Format.bitsOf,
    Format.width, Format.signMag, Format.infMag, Format.expBits, Format.fracBits], by decide, rfl, rfl,
    by simp [v1Fresh, v1, engine, single, State.powerOn, Format.isZero, Format.magOf, Format.bitsOf, Format.width,
      Format.signMag]⟩

/-- V5: a `-0` sample; a product that underflows, which counts in the unfused build; and a negative `den[0]`. -/
theorem witness_ZeroProductsGiveASignedZero (draw : Word) :
    (∀ fused, ∀ p ∈ [0x3F800000#64].zip [0x80000000#64], ZeroProduct .binary32 draw fused p.1 p.2) ∧
    ZeroProduct .binary32 draw false 0x00000001#64 0x3F000000#64 ∧
    (∀ fused, ∀ p ∈ ([0xBF800000#64] : List Word).tail.zip [0x3F800000#64], ZeroProduct .binary32 draw fused p.1 p.2) ∧
    Format.flt .binary32 posZero 0x3F800000#64 = true ∧ Format.flt .binary32 0xBF800000#64 posZero = true := by
  have h : ∀ fused, ZeroProduct .binary32 draw fused 0x3F800000#64 0x80000000#64 := fun fused => by
    cases fused
    · exact (by decide : Format.isZero .binary32 (Format.roundVal .binary32 0#64 (.fin true 0 (-172))) = true)
    · simp only [ZeroProduct, if_true]
      decide
  refine ⟨fun fused => by simpa using h fused, ?_, by simp, by decide, by decide⟩
  exact (by decide : Format.isZero .binary32 (Format.roundVal .binary32 0#64 (.fin false (2 ^ 23) (-173))) = true)

theorem witness_SingleCoefficientFilter :
    let s := gain 0x40400000#64 0x40000000#64
    ShapeOk s ∧ s.build.n = 1 ∧ s.configured = true ∧ s.num = [0x40400000#64] ∧ s.den = [0x40000000#64] ∧
    Format.Fits .binary32 0xFFFFFFFF#64 ∧ Format.isNaN .binary32 0xFF800000#64 = false := by decide

theorem witness_RingRefinesTheEngine :
    let c : RingEngine := ⟨v1Fresh, ⟨[1#64, 2#64], [3#64, 4#64], 1⟩⟩
    c.Ok ∧ ShapeOk c.view := by decide

theorem witness_CascadeStepIsTheHostSequence : IsCascade .binary32 [v1Fresh, other 1 v1Fresh] ∧
    (∀ s ∈ [v1Fresh, other 1 v1Fresh], EngineInv s ∧ s.configured = true) ∧ Format.Fits .binary32 0xFFFFFFFF#64 :=
  ⟨by decide, by simpa using ⟨⟨inv_v1Fresh, (rfl : v1Fresh.configured = true)⟩, inv_other 1 inv_v1Fresh,
    (rfl : (other 1 v1Fresh).configured = true)⟩, by decide⟩

theorem witness_CascadeStopsAtTheFirstRejection :
    IsCascade .binary32 ([v1Fresh] ++ other 1 (fresh 3 []) :: [other 2 v1Fresh]) ∧
    (∀ x ∈ [v1Fresh] ++ other 1 (fresh 3 []) :: [other 2 v1Fresh], EngineInv x) ∧
    (∀ x ∈ [v1Fresh], x.configured = true) ∧ (other 1 (fresh 3 [])).configured = false :=
  ⟨by decide, by simpa using And.intro inv_v1Fresh (And.intro (inv_other 1 inv_fresh) (inv_other 2 inv_v1Fresh)),
    by decide, rfl⟩

theorem witness_CascadeResetAndFill : IsCascade .binary32 [v1Fresh, other 1 (fresh 3 [])] ∧
    (∀ s ∈ [v1Fresh, other 1 (fresh 3 [])], s.build.Legal) ∧ Format.Fits .binary32 0xFFFFFFFF#64 := by decide

/-- Both cases of the last clause: section 0 is configured, section 1 is not, after a FILL of it. -/
theorem witness_CascadeCommandsObeyTheirOwnRules :
    let ss := [v1Fresh, other 1 (fresh 3 [])]
    IsCascade .binary32 ss ∧ (∀ s ∈ ss, EngineInv s) ∧ Format.Fits .binary32 0xFFFFFFFF#64 ∧
    (∀ c ∈ [(1, Instr.fill 5#64)], c.2.WellFormed .binary32 = true) ∧
    ∃ ts rs s0 s1, hostRun [(1, .fill 5#64)] ss = .next (ts, rs) ∧ ts[0]? = some s0 ∧ s0.configured = true ∧
      ts[1]? = some s1 ∧ s1.configured = false :=
  ⟨by decide, by simpa using And.intro inv_v1Fresh (inv_other 1 inv_fresh), by decide, by decide,
    _, _, _, _, rfl, rfl, rfl, rfl, rfl⟩

theorem witness_DesignHasTheRightLengths_and_DesignLeadingDenominatorIsOne :
    (call 1 .lowpass).aboveNyquist flatLib = false ∧
    (match design flatLib plain (call 1 .lowpass) with | .ok _ => true | .error _ => false) = true := by decide +kernel

theorem witness_DesignRefusesInvalidCalls : Format.binary64.fle 0x8000000000000000#64 posZero = true ∧
    FilterType.bandstop.isBand = true ∧ Format.binary64.fle 0x3FE0000000000000#64 0x3FE0000000000000#64 = true ∧
    plain.imagTol = none ∧ (call 1 .bandstop).order ≠ 0 ∧
    Format.binary64.flt posZero (call 1 .bandstop).sampleTime = true ∧
    Format.binary64.fle (call 1 .bandstop).edge2 (call 1 .bandstop).edge1 = false := by decide +kernel

/-- Sets of the right lengths, and a call above the limit. -/
theorem witness_ResultAboveNyquistIsAnySet :
    (∀ P c, (nyquistSet flatLib P c).num.length = numCoefficients c.order c.type ∧
      (nyquistSet flatLib P c).den.length = numCoefficients c.order c.type) ∧
    callAbove.order ≠ 0 ∧ Format.binary64.flt posZero callAbove.sampleTime = true ∧
    Format.binary64.fle callAbove.edge2 callAbove.edge1 = false ∧ callAbove.aboveNyquist flatLib = true :=
  ⟨fun P c => by simp [nyquistSet], by decide +kernel⟩

theorem toRat64_zero : Format.toRat .binary64 0#64 = some 0 := by
  have h : Format.unpack .binary64 0#64 = .fin false 0 (-1074) := by decide
  rw [Format.toRat, h]
  norm_num [FVal.toRat]

theorem toRat64_half : Format.toRat .binary64 0x3FE0000000000000#64 = some (1 / 2) := by
  have h : Format.unpack .binary64 0x3FE0000000000000#64 = .fin false (2 ^ 52) (-53) := by decide
  rw [Format.toRat, h]
  norm_num [FVal.toRat]

theorem toRat64_one : Format.toRat .binary64 0x3FF0000000000000#64 = some 1 := by
  have h : Format.unpack .binary64 0x3FF0000000000000#64 = .fin false (2 ^ 52) (-52) := by decide
  rw [Format.toRat, h]
  norm_num [FVal.toRat]

theorem toRat64_two : Format.toRat .binary64 0x4000000000000000#64 = some 2 := by
  have h : Format.unpack .binary64 0x4000000000000000#64 = .fin false (2 ^ 52) (-51) := by decide
  rw [Format.toRat, h]
  norm_num [FVal.toRat]

/-- A first-order low-pass whose pole lands at 0: numerator `(z + 1)/2`, denominator `z`, and a gain before scaling of 2. -/
theorem witness_DesignHasUnityGain :
    let c := call 1 .lowpass
    let bn := (expandRoots halfLib.arith (discreteZeros halfLib plain c)).map Cplx.re
    let a := (expandRoots halfLib.arith (discretePoles halfLib plain c)).map Cplx.re
    let num : List Word := [0x3FE0000000000000#64, 0x3FE0000000000000#64]
    let den : List Word := [0x3FF0000000000000#64, 0#64]
    design halfLib plain c = .ok ⟨num, den⟩ ∧ c.aboveNyquist halfLib = false ∧
    Format.binary64.toRat (referenceFrequency halfLib plain c) = some 0 ∧ Format.binary64.toRat c.sampleTime = some 1 ∧
    GainComputedWell halfLib (referenceFrequency halfLib plain c) c.sampleTime bn a (((0 * 1 : ℚ)) : ℝ) [1, 1] [0, 1] 2 ∧
    num.map Format.binary64.toRat = ([1 / 2, 1 / 2] : List ℚ).map some ∧
    den.map Format.binary64.toRat = ([1, 0] : List ℚ).map some := by
  have hbn : (expandRoots halfLib.arith (discreteZeros halfLib plain (call 1 .lowpass))).map Cplx.re =
      [0x3FF0000000000000#64, 0x3FF0000000000000#64] := by decide +kernel
  have ha : (expandRoots halfLib.arith (discretePoles halfLib plain (call 1 .lowpass))).map Cplx.re =
      [0#64, 0x3FF0000000000000#64] := by decide +kernel
  have hb1 : onCircle 0 [1, 1] = 2 := by norm_num [onCircle, Finset.sum_range_succ]
  have ha1 : onCircle 0 [0, 1] = 1 := by norm_num [onCircle, Finset.sum_range_succ]
  have hd : design halfLib plain (call 1 .lowpass) =
      .ok ⟨[0x3FE0000000000000#64, 0x3FE0000000000000#64], [0x3FF0000000000000#64, 0#64]⟩ := by
    have hr : (match design halfLib plain (call 1 .lowpass) with
        | .ok r => some r
        | .error _ => none) =
        some ⟨[0x3FE0000000000000#64, 0x3FE0000000000000#64], [0x3FF0000000000000#64, 0#64]⟩ := by decide +kernel
    cases h : design halfLib plain (call 1 .lowpass) with
    | ok r => rw [h] at hr; exact congrArg _ (Option.some.inj hr)
    | error e => rw [h] at hr; exact nomatch hr
  refine ⟨hd, by decide +kernel, toRat64_zero, toRat64_one, ?_, by simp [toRat64_half], by simp [toRat64_one, toRat64_zero]⟩
  simp only [mul_one, Rat.cast_zero]
  refine ⟨by rw [hbn]; simp [toRat64_one], by rw [ha]; simp [toRat64_one, toRat64_zero], ?_, ?_, ?_, ?_, ?_⟩
  · rw [hbn, ha, show gainAt halfLib (referenceFrequency halfLib plain (call 1 .lowpass)) (call 1 .lowpass).sampleTime
      [0x3FF0000000000000#64, 0x3FF0000000000000#64] [0#64, 0x3FF0000000000000#64] = 0x4000000000000000#64 by decide +kernel]
    exact toRat64_two
  · rw [hb1, ha1]
    norm_num
  · rw [exactGain, hb1, ha1]
    norm_num
  · rw [hb1]
    norm_num
  · have : ∀ b ∈ ([1, 1] : List ℚ), b = 1 := by simp
    intro b hb
    rw [this b hb]
    refine .inr (le_trans (zpow_le_zpow_right₀ (by norm_num) (show (-1022 : ℤ) ≤ -1 by norm_num)) ?_)
    norm_num

end Sys2Proof.Tests
end

-- ==== Proofs: the accepted command words, and the use of the data word ====
section
/-! PROOFS. Which instruction each row of the match and mask table (R54) decodes to, and what one step does with the data word
of an accepted command. -/

namespace Sys2Proof

/-! The six full-mask rows of R54: one command word each, the data word an operand or dropped. -/

@[simp] theorem decode_constructWord (d : Word) : decode 0x00000001#32 d = .ok .construct := rfl
@[simp] theorem decode_filterWord (d : Word) : decode 0x00000002#32 d = .ok (.filter d) := rfl
@[simp] theorem decode_resetWord (d : Word) : decode 0x00000003#32 d = .ok .reset := rfl
@[simp] theorem decode_fillWord (d : Word) : decode 0x00000004#32 d = .ok (.fill d) := rfl
@[simp] theorem decode_setCoeffsWord (d : Word) : decode 0x00000005#32 d = .ok .setCoeffs := rfl
@[simp] theorem decode_getLastWord (d : Word) : decode 0x00000006#32 d = .ok .getLast := rfl

/-- A word that a STAGE row of R54 selects is accepted, as the opcode map's instruction for its index (R53). -/
theorem decode_of_stageMask {w : Cmd} {d : Word} {op : Nat} {i : Instr} (ho : op < 16) (hu : opUsesIdx op = true)
    (hw : w &&& 0xFFFF00FF#32 = BitVec.ofNat 32 op) (hi : opcodeMap op (idxField w) d = some i) :
    decode w d = .ok i := by
  obtain ⟨hop, hrsv0, hrsv1⟩ := and_stageMask w op ho hw
  rw [decode_eq_ok_iff, hop]
  exact ⟨hi, hrsv0, hrsv1, by simp [hu]⟩

theorem decode_stageNumWord {w : Cmd} (d : Word) (hw : w &&& 0xFFFF00FF#32 = 0x00000007#32) :
    decode w d = .ok (.stageNum (w.extractLsb' 8 8).toNat d) :=
  decode_of_stageMask (op := 7) (by decide) rfl hw (by rw [idxField_eq]; rfl)

theorem decode_stageDenWord {w : Cmd} (d : Word) (hw : w &&& 0xFFFF00FF#32 = 0x00000008#32) :
    decode w d = .ok (.stageDen (w.extractLsb' 8 8).toNat d) :=
  decode_of_stageMask (op := 8) (by decide) rfl hw (by rw [idxField_eq]; rfl)

end Sys2Proof

namespace Sys2Proof.Machine

/-- An accepted command with a `W`-bit data word runs the instruction decoded from exactly that word: the port drops no bit. -/
theorem step_offer_of_fits {s : State} {w : Cmd} {d : Word} {i : Instr} (hl : s.build.Legal) (hf : s.build.fmt.Fits d)
    (hd : decode w d = .ok i) : step (offer w d s) = exec i s := by
  rw [step_offer w d hl, portWord_of_fits hf, answer_of_decode hd]

/-- A command word that decodes to one instruction whatever the data word is, steps the same whatever the data word is. -/
theorem step_offer_data_irrel {s : State} {w : Cmd} {i : Instr} (hl : s.build.Legal) (hd : ∀ d, decode w d = .ok i)
    (d d' : Word) : step (offer w d s) = step (offer w d' s) := by
  have hstep (x : Word) : step (offer w x s) = exec i s := by
    rw [step_offer w x hl, answer_of_decode (hd _)]
  rw [hstep d, hstep d']

/-- Settles O16: the four commands that carry an operand run on the data word as offered (`step_offer_of_fits`); the other
four decode to one instruction for every data word (`step_offer_data_irrel`). -/
theorem dataWordUse : Obligations.DataWordUse := by
  unfold Obligations.DataWordUse
  constructor
  · intro s d hl hf
    exact ⟨step_offer_of_fits hl hf (decode_filterWord d), step_offer_of_fits hl hf (decode_fillWord d),
      fun w => ⟨fun hw => step_offer_of_fits hl hf (decode_stageNumWord d hw),
        fun hw => step_offer_of_fits hl hf (decode_stageDenWord d hw)⟩⟩
  · intro s d d' hl
    exact ⟨step_offer_data_irrel hl decode_constructWord d d', step_offer_data_irrel hl decode_resetWord d d',
      step_offer_data_irrel hl decode_setCoeffsWord d d', step_offer_data_irrel hl decode_getLastWord d d'⟩

end Sys2Proof.Machine
end

-- ==== Proofs: rejected command words, and runs of staging commands ====
section
/-! PROOFS. Which words of an assigned opcode the decoder rejects (R55), said of the bit fields of R50; that FILTER depends on
no staging entry (R29); and what the staging commands of a coefficient set leave, and the pseudo-commands made of them (R58). -/

namespace Sys2Proof

/-- A word of a full-mask opcode (R54) is accepted only as its match value: any other is rejected (R55). -/
theorem decode_of_ne_match {w : Cmd} (d : Word) {op : Nat} (h1 : 1 ≤ op) (h6 : op ≤ 6)
    (ho : w.extractLsb' 0 4 = BitVec.ofNat 4 op) (hw : w ≠ BitVec.ofNat 32 op) : decode w d = .error .reservedField := by
  have hop : opField w = op := by
    rw [opField_eq, ho, BitVec.toNat_ofNat, Nat.mod_eq_of_lt (by omega)]
  refine decode_other_reserved (by omega) (by omega) fun h => hw (BitVec.eq_of_toNat_eq ?_)
  rw [h, hop, BitVec.toNat_ofNat, Nat.mod_eq_of_lt (by omega)]

/-- A STAGE word with a reserved field that is not zero is rejected (R55). -/
theorem decode_stage_of_reserved {w : Cmd} (d : Word) (ho : w.extractLsb' 0 4 = 7#4 ∨ w.extractLsb' 0 4 = 8#4)
    (hr : w.extractLsb' 4 4 ≠ 0#4 ∨ w.extractLsb' 16 16 ≠ 0#16) : decode w d = .error .reservedField := by
  apply decode_stage_reserved
  · rw [opField_eq]
    exact ho.imp (fun h => by rw [h]; rfl) fun h => by rw [h]; rfl
  · rw [rsv0Field_eq, rsv1Field_eq]
    exact hr.imp (fun h h0 => h (BitVec.eq_of_toNat_eq h0)) fun h h0 => h (BitVec.eq_of_toNat_eq h0)

end Sys2Proof

namespace Sys2Proof.Machine

/-! FILTER reads no staging entry and not the response last given. -/

/-- FILTER after a change of the staging bank and of the response gives what it gave before, the staging bank kept. -/
theorem execFilter_of_staging {s t : State} {x : Word} (h : execFilter x s = .next t) (stgNum stgDen : List (Option Word))
    (rsp : Option Response) : execFilter x { s with stgNum := stgNum, stgDen := stgDen, rsp := rsp } =
      .next { t with stgNum := stgNum, stgDen := stgDen } := by
  rcases Bool.eq_false_or_eq_true s.configured with hc | hc
  · obtain rfl := next_unique h (execFilter_configured x hc)
    exact execFilter_configured x hc
  · obtain rfl := next_unique h (execFilter_notConfigured x hc)
    exact execFilter_notConfigured x hc

theorem execFilter_keeps_staging {s t : State} {x : Word} (h : execFilter x s = .next t) :
    t.stgNum = s.stgNum ∧ t.stgDen = s.stgDen := by
  have ht := next_unique h (execFilter_of_staging h s.stgNum s.stgDen s.rsp)
  exact ⟨(congrArg State.stgNum ht :), (congrArg State.stgDen ht :)⟩

/-- STAGE_NUM writes no field but the numerator bank and the response, whether it is performed or rejected. -/
theorem execStageNum_frame {s t : State} {k : Nat} {v : Word} (h : execStageNum k v s = .next t) :
    t = { s with stgNum := t.stgNum, rsp := t.rsp } := by
  rcases Nat.lt_or_ge k s.build.n with hk | hk
  · obtain rfl := next_unique h (execStageNum_inRange v hk)
    rfl
  · obtain rfl := next_unique h (execStageNum_outOfRange v hk)
    rfl

/-- STAGE_DEN writes no field but the denominator bank and the response, whether it is performed or rejected. -/
theorem execStageDen_frame {s t : State} {k : Nat} {v : Word} (h : execStageDen k v s = .next t) :
    t = { s with stgDen := t.stgDen, rsp := t.rsp } := by
  rcases Nat.lt_or_ge k s.build.n with hk | hk
  · obtain rfl := next_unique h (execStageDen_inRange v hk)
    rfl
  · obtain rfl := next_unique h (execStageDen_outOfRange v hk)
    rfl

/-! The staging commands of a sequence of values, for either bank: `put` writes the bank as a whole, `stage` one entry. -/

/-- Staging a sequence of values from index `k` to the end of a bank writes those entries, keeps the ones before, and
changes nothing else but the response. -/
theorem runInstrs_stageFrom {stage : Nat → Word → Instr} {put : List (Option Word) → State → State}
    (hstage : ∀ k v l s, k < s.build.n →
      exec (stage k v) (put l s) = .next (put (l.set k (some v)) (respond .ok none s)))
    (vs : List Word) (k : Nat) (l : List (Option Word)) (s : State)
    (hl : k + vs.length = l.length) (hn : l.length ≤ s.build.n) :
    ∃ r, runInstrs (stageFrom stage k vs) (put l s) = .next (put (l.take k ++ vs.map some) (s.withRsp r)) := by
  induction vs generalizing k l s with
  | nil =>
    have htake : l.take k = l := List.take_of_length_le hl.ge
    exact ⟨s.rsp, by rw [htake, List.map_nil, List.append_nil]; rfl⟩
  | cons v vs ih =>
    rw [List.length_cons] at hl
    have hk : k < l.length := by omega
    have htake : (l.set k (some v)).take (k + 1) = l.take k ++ [some v] := by
      simp [List.take_add_one, List.take_set_of_le, hk]
    obtain ⟨r, hr⟩ := ih (k + 1) (l.set k (some v)) (respond .ok none s) (by simp; omega) (by simpa using hn)
    refine ⟨r, ?_⟩
    rw [stageFrom, runInstrs_cons (hstage k v l s (by omega)), hr, htake, List.append_assoc]
    rfl

/-- The staging commands of a whole set leave exactly that set in the staging bank, and change nothing else but the response. -/
theorem runInstrs_stageSet {s : State} {b a : List Word} (hb : b.length = s.build.n) (ha : a.length = s.build.n)
    (hnum : s.stgNum.length = s.build.n) (hden : s.stgDen.length = s.build.n) :
    ∃ r, runInstrs (stageSet b a) s = .next { s with stgNum := b.map some, stgDen := a.map some, rsp := r } := by
  obtain ⟨r, hr⟩ := runInstrs_stageFrom (stage := .stageNum) (put := fun l s => { s with stgNum := l })
    (fun k v l s hk => execStageNum_inRange v hk) b 0 s.stgNum s (by omega) hnum.le
  obtain ⟨r', hr'⟩ := runInstrs_stageFrom (stage := .stageDen) (put := fun l s => { s with stgDen := l })
    (fun k v l s hk => execStageDen_inRange v hk) a 0 s.stgDen { s with stgNum := b.map some, rsp := r } (by omega) hden.le
  exact ⟨r', (runInstrs_append hr).trans hr'⟩

/-- `LOADCOEF` (R58) loads the set it names and zero-fills both histories. -/
theorem runInstrs_loadCoef {s : State} {b a : List Word} (hb : b.length = s.build.n) (ha : a.length = s.build.n)
    (hnum : s.stgNum.length = s.build.n) (hden : s.stgDen.length = s.build.n) :
    runInstrs (loadCoef b a) s = .next { s with
      num := b, den := a, xh := List.replicate s.build.n posZero, yh := List.replicate s.build.n posZero,
      stgNum := b.map some, stgDen := a.map some, configured := true, rsp := some ⟨.ok, none⟩ } := by
  obtain ⟨r, hr⟩ := runInstrs_stageSet hb ha hnum hden
  rw [loadCoef, runInstrs_append hr, runInstrs_singleton, exec_construct, execConstruct_complete rfl rfl]
  rfl

/-- `SWAPCOEF` (R58) loads the set it names and keeps both histories. -/
theorem runInstrs_swapCoef {s : State} {b a : List Word} (hb : b.length = s.build.n) (ha : a.length = s.build.n)
    (hnum : s.stgNum.length = s.build.n) (hden : s.stgDen.length = s.build.n) :
    runInstrs (swapCoef b a) s = .next { s with
      num := b, den := a, stgNum := b.map some, stgDen := a.map some, configured := true, rsp := some ⟨.ok, none⟩ } := by
  obtain ⟨r, hr⟩ := runInstrs_stageSet hb ha hnum hden
  rw [swapCoef, runInstrs_append hr, runInstrs_singleton, exec_setCoeffs, execSetCoeffs_complete rfl rfl]
  rfl

/-- A FILTER result that is no NaN can be computed with any NaN in the place of the engine's own draw. -/
theorem filterResult_of_draw {s : State} {v w d : Word} (hd : s.build.fmt.isNaN d = true)
    (h : filterOutput (Arith.ieee s.build.fmt d) s.build.macFused s.build.fbGrouping s.num s.den (shiftIn v s.xh) s.yh = w)
    (hw : s.build.fmt.isNaN w = false) : filterResult v s = w :=
  filterOutput_of_draw hd (isNaN_nanDraw s) _ _ _ _ _ _ h hw

end Sys2Proof.Machine
end

-- ==== Proofs: loading coefficients ====
section
/-! PROOFS. The effects of STAGE_NUM, STAGE_DEN, CONSTRUCT and SET_COEFFS (41_coefficient_load.md, R77 to R80). -/

namespace Sys2Proof.Machine

/-- The second of two STAGE_NUM of one entry overwrites what the first wrote. -/
theorem runInstrs_stageNum_twice {s : State} {k : Nat} (u v : Word) (hk : k < s.build.n) :
    runInstrs [.stageNum k u, .stageNum k v] s = exec (.stageNum k v) s := by
  have hu : exec (.stageNum k u) s = .next (respond .ok none (s.stageNumAt k u)) := execStageNum_inRange u hk
  rw [runInstrs_cons hu, runInstrs_singleton, exec_stageNum, exec_stageNum, execStageNum_inRange v hk,
    execStageNum_inRange v (s := respond .ok none (s.stageNumAt k u)) hk]
  simp [State.stageNumAt, respond, State.withRsp]

/-- The second of two STAGE_DEN of one entry overwrites what the first wrote. -/
theorem runInstrs_stageDen_twice {s : State} {k : Nat} (u v : Word) (hk : k < s.build.n) :
    runInstrs [.stageDen k u, .stageDen k v] s = exec (.stageDen k v) s := by
  have hu : exec (.stageDen k u) s = .next (respond .ok none (s.stageDenAt k u)) := execStageDen_inRange u hk
  rw [runInstrs_cons hu, runInstrs_singleton, exec_stageDen, exec_stageDen, execStageDen_inRange v hk,
    execStageDen_inRange v (s := respond .ok none (s.stageDenAt k u)) hk]
  simp [State.stageDenAt, respond, State.withRsp]

/-- Settles O18. Each clause is one fact about the decoder or about STAGE_NUM: its two outcomes, the overwriting of an entry
(`runInstrs_stageNum_twice`), and that FILTER reads no staging entry (`execFilter_of_staging`). -/
theorem stageNumEffect : Obligations.StageNumEffect := by
  unfold Obligations.StageNumEffect
  refine ⟨fun w d hw => decode_stageNumWord d hw, fun w d ho hr => decode_stage_of_reserved d (.inl ho) hr,
    fun s k v hk => execStageNum_outOfRange v hk, fun s k v hk => execStageNum_inRange v hk,
    fun s k u v hk => runInstrs_stageNum_twice u v hk, ?_, ?_⟩
  · intro s t u k v x hu ht
    obtain ⟨-, hden⟩ := execFilter_keeps_staging ht
    rw [execStageNum_frame hu]
    simpa only [exec_filter, hden] using execFilter_of_staging ht u.stgNum t.stgDen u.rsp
  · intro s hb hl
    have hk : 2 < s.build.n := by rw [hb]; decide
    refine ⟨respond .ok none (s.stageNumAt 2 0x3E800000#64), ?_, ?_, rfl⟩
    · rw [step_offer_of_fits (by rw [hb]; decide) (by rw [hb]; decide) (decode_stageNumWord _ (by decide))]
      exact execStageNum_inRange _ hk
    · simp [hl]

/-- Settles O19. Each clause is one fact about the decoder or about STAGE_DEN, as for STAGE_NUM. -/
theorem stageDenEffect : Obligations.StageDenEffect := by
  unfold Obligations.StageDenEffect
  refine ⟨fun w d hw => decode_stageDenWord d hw, fun w d ho hr => decode_stage_of_reserved d (.inr ho) hr,
    fun s k v hk => execStageDen_outOfRange v hk, fun s k v hk => execStageDen_inRange v hk,
    fun s k u v hk => runInstrs_stageDen_twice u v hk, ?_, ?_⟩
  · intro s t u k v x hu ht
    obtain ⟨hnum, -⟩ := execFilter_keeps_staging ht
    rw [execStageDen_frame hu]
    simpa only [exec_filter, hnum] using execFilter_of_staging ht t.stgNum u.stgDen u.rsp
  · intro s hb hl
    have hk : 0 < s.build.n := by rw [hb]; decide
    refine ⟨respond .ok none (s.stageDenAt 0 0x3F800000#64), ?_, ?_, rfl⟩
    · rw [step_offer_of_fits (by rw [hb]; decide) (by rw [hb]; decide) (decode_stageDenWord _ (by decide))]
      exact execStageDen_inRange _ hk
    · simp [hl]

theorem not_stageComplete {s : State} (h : none ∈ s.stgNum ∨ none ∈ s.stgDen) : ¬ StageComplete s :=
  fun ⟨hnum, hden⟩ => h.elim hnum hden

/-- CONSTRUCT leaves a state that a second CONSTRUCT leaves as it is, performed or rejected. -/
theorem execConstruct_idempotent {s t : State} (h : execConstruct s = .next t) : execConstruct t = .next t := by
  by_cases hc : StageComplete s
  · obtain ⟨b, hb⟩ := exists_map_some hc.1
    obtain ⟨a, ha⟩ := exists_map_some hc.2
    obtain rfl := next_unique h (execConstruct_complete hb ha)
    exact execConstruct_complete hb ha
  · obtain rfl := next_unique h (execConstruct_incomplete hc)
    exact execConstruct_incomplete hc

/-- Settles O20: the two outcomes of a commit, with the zero-fill; the example is the run of `LOADCOEF`
(`runInstrs_loadCoef`). -/
theorem constructEffect : Obligations.ConstructEffect := by
  unfold Obligations.ConstructEffect
  refine ⟨fun w d hw => ?_, fun w d ho hw => decode_of_ne_match d (op := 1) (by decide) (by decide) ho hw,
    fun s h => execConstruct_incomplete (not_stageComplete h), fun s b a hb ha => execConstruct_complete hb ha,
    fun s t h => execConstruct_idempotent h, fun s hbuild hnum hden => ?_⟩
  · rw [(and_allOnes_mask w _).1 hw, decode_constructWord]
  · have hn : s.build.n = 2 := by rw [hbuild]; rfl
    refine ⟨_, runInstrs_loadCoef hn.symm hn.symm (hnum.trans hn.symm) (hden.trans hn.symm), rfl, rfl, ?_, ?_, rfl⟩
    · exact congrArg (List.replicate · posZero) hn
    · exact congrArg (List.replicate · posZero) hn

/-- Settles O21: the two outcomes of a commit, the histories kept; the example is the run of `SWAPCOEF`
(`runInstrs_swapCoef`), and the FILTER after it is computed with a concrete draw (`filterResult_of_draw`). -/
theorem setCoeffsEffect : Obligations.SetCoeffsEffect := by
  unfold Obligations.SetCoeffsEffect
  refine ⟨fun w d hw => ?_, fun w d ho hw => decode_of_ne_match d (op := 5) (by decide) (by decide) ho hw,
    fun s h => execSetCoeffs_incomplete (not_stageComplete h), fun s b a hb ha => execSetCoeffs_complete hb ha,
    fun s hbuild hnum hden hx hy => ?_⟩
  · rw [(and_allOnes_mask w _).1 hw, decode_setCoeffsWord]
  · have hn : s.build.n = 2 := by rw [hbuild]; rfl
    refine ⟨_, _, runInstrs_swapCoef hn.symm hn.symm (hnum.trans hn.symm) (hden.trans hn.symm), rfl, rfl,
      execFilter_configured _ rfl, ?_⟩
    rw [filterResult_of_draw (w := 0x40000000#64) (d := 0x7FC00000#64) (by rw [hbuild]; decide)
      (by simp only [hbuild, hx, hy]; decide) (by rw [hbuild]; decide)]
    simp [hx, hy, shiftIn]

end Sys2Proof.Machine
end

-- ==== Proofs: the filter step ====
section
/-! PROOFS. FILTER (42_filter_step.md, R82): the sums of the model, taken over the coefficient and history lists, are the index
loops of the pseudo-code, and so its output is theirs. -/

namespace Sys2Proof.Spec

/-- The body at index 0 may be taken out of a loop first: the rest is the loop from index 1. -/
theorem upto_succ_first {V : Type} (n : Nat) (body : Nat → V → V) (acc : V) :
    upto (n + 1) body acc = upto n (fun k => body (k + 1)) (body 0 acc) := by
  induction n with
  | zero => rfl
  | succ n ih => exact congrArg (body (n + 1)) ih

end Sys2Proof.Spec

namespace Sys2Proof.Machine

open Spec

/-- A fold over two lists side by side is the loop over their common indices, reading entry `k` of each. -/
theorem foldl_zip_eq_upto {V : Type} (f : V → V → V → V) (d : V) (cs vs : List V) (acc : V) :
    (cs.zip vs).foldl (fun a cv => f a cv.1 cv.2) acc =
      upto (min cs.length vs.length) (fun k a => f a (cs.getD k d) (vs.getD k d)) acc := by
  induction cs generalizing vs acc with
  | nil => simp [upto]
  | cons c cs ih =>
    cases vs with
    | nil => simp [upto]
    | cons v vs =>
      rw [List.length_cons, List.length_cons, Nat.add_min_add_right, upto_succ_first]
      exact ih vs (f acc c v)

/-- The feed-forward sum of R82 is its loop over `k = 0 .. n-1`. -/
theorem macSum_eq_upto {V : Type} (A : Arith V) (fused : Bool) {n : Nat} {num xs : List V} (hnum : num.length = n)
    (hxs : xs.length = n) (acc : V) :
    macSum A fused acc num xs = upto n (fun k a => macAdd A fused a (num.getD k A.zero) (xs.getD k A.zero)) acc := by
  rw [macSum, foldl_zip_eq_upto (macAdd A fused) A.zero, hnum, hxs, min_self]

/-- A fold over the feedback of R82, `den[1..n-1]` and `yh[0..n-2]`, is the loop that reads `den[j+1]` and `yh[j]`. -/
theorem foldl_feedback_eq_upto {V : Type} (f : V → V → V → V) (d : V) {n : Nat} {den yh : List V} (hden : den.length = n)
    (hyh : yh.length = n) (acc : V) :
    (den.tail.zip yh).foldl (fun a cv => f a cv.1 cv.2) acc =
      upto (n - 1) (fun j a => f a (den.getD (j + 1) d) (yh.getD j d)) acc := by
  have hmin : min den.tail.length yh.length = n - 1 := by
    rw [List.length_tail, hden, hyh]
    exact min_eq_left (Nat.sub_le n 1)
  rw [foldl_zip_eq_upto f d, hmin]
  simp only [List.getD_eq_getElem?_getD, List.getElem?_tail]

/-- One FILTER of the model computes the pseudo-code of R82, for both groupings, fused or not, over any arithmetic. -/
theorem filterOutput_eq_output {V : Type} (A : Arith V) (fused : Bool) (g : FbGrouping) {n : Nat} {num den xs yh : List V}
    (hnum : num.length = n) (hden : den.length = n) (hxs : xs.length = n) (hyh : yh.length = n) :
    filterOutput A fused g num den xs yh = output A fused g n num den xs yh := by
  have hhead : den.headD A.zero = den.getD 0 A.zero := by cases den <;> rfl
  rw [filterOutput, filterAcc, macSum_eq_upto A fused hnum hxs, hhead]
  cases g with
  | perTerm =>
    rw [subtractFeedback, macDiff, foldl_feedback_eq_upto (macSub A fused) A.zero hden hyh]
    rfl
  | grouped =>
    rw [subtractFeedback, macSum, foldl_feedback_eq_upto (macAdd A fused) A.zero hden hyh]
    rfl

/-- The shift of a history of `n` entries is R13's, by the build's `n`. -/
theorem shiftIn_eq_shift {n : Nat} {s : List Word} (h : s.length = n) (v : Word) : shiftIn v s = shift n v s := by
  rw [shiftIn, shift, h]

theorem shift_length {n : Nat} {s : List Word} (hn : 1 ≤ n) (h : s.length = n) (v : Word) : (shift n v s).length = n := by
  rw [shift, List.length_cons, List.length_take]
  omega

/-- FILTER in a configured engine of the shape of R19: the histories and the value of R82's loops, and nothing else but the
response and the count of draws. -/
theorem execFilter_eq_loops {s : State} (v : Word) (hshape : ShapeOk s) (hc : s.configured = true) :
    let xs := shift s.build.n v s.xh
    let y := output (arithOf s) s.build.macFused s.build.fbGrouping s.build.n s.num s.den xs s.yh
    execFilter v s = .next { s with
      xh := xs, yh := shift s.build.n y s.yh, rsp := some ⟨.ok, some y⟩, draws := s.draws + 1 } := by
  intro xs y
  obtain ⟨⟨hn, -⟩, hnum, hden, hxh, hyh, -, -⟩ := hshape
  have hy : filterResult v s = y := by
    rw [filterResult, shiftIn_eq_shift hxh]
    exact filterOutput_eq_output (arithOf s) _ _ hnum hden (shift_length hn hxh v) hyh
  rw [execFilter_configured v hc, hy, shiftIn_eq_shift hxh, shiftIn_eq_shift hyh]
  rfl

/-- Settles O22: the decoder's two clauses, the rejection before a commit, and the step by the index loops
(`execFilter_eq_loops`); the example is computed with a concrete draw (`filterResult_of_draw`). -/
theorem filterEffect : Obligations.FilterEffect := by
  unfold Obligations.FilterEffect
  refine ⟨fun w d hw => ?_, fun w d ho hw => decode_of_ne_match d (op := 2) (by decide) (by decide) ho hw,
    fun s v hc => execFilter_notConfigured v hc, fun s v hshape hc => execFilter_eq_loops v hshape hc,
    fun s hbuild hc hnum hden hx hy => ?_⟩
  · rw [(and_allOnes_mask w _).1 hw, decode_filterWord]
  · have hresult : filterResult 0x3F800000#64 s = 0x3F200000#64 :=
      filterResult_of_draw (d := 0x7FC00000#64) (by rw [hbuild]; decide)
        (by simp only [hbuild, hnum, hden, hx, hy]; decide) (by rw [hbuild]; decide)
    refine ⟨_, (step_offer_of_fits (by rw [hbuild]; decide) (by rw [hbuild]; decide) (decode_filterWord _)).trans
      (execFilter_configured _ hc), ?_⟩
    simp [hresult, hx, hy, shiftIn]

end Sys2Proof.Machine
end

-- ==== Proofs: non-finite outputs latch ====
section
/-! PROOFS. A NaN or an infinity among the outputs that FILTER feeds back makes its output non-finite, and that output is then
fed back in turn (R88): so every later output is non-finite. -/

namespace Sys2Proof.Machine

/-- A property that one element of a list brings about, and that every element keeps, holds of a fold over the list. -/
theorem foldl_of_mem {α β : Type} {f : β → α → β} {P : β → Prop} {x : α} {l : List α} (hx : x ∈ l)
    (enter : ∀ b, P (f b x)) (keep : ∀ b a, P b → P (f b a)) (b : β) : P (l.foldl f b) := by
  obtain ⟨l₁, l₂, rfl⟩ := List.append_of_mem hx
  rw [List.foldl_append, List.foldl_cons]
  exact List.foldlRecOn l₂ f (enter _) fun b hb a _ => keep b a hb

section NonFinite

variable {f : Format} {draw : Word} (hdraw : f.isNaN draw = true)
include hdraw

theorem fadd_nonFinite {a b : Word} (h : f.isNonFinite a = true ∨ f.isNonFinite b = true) :
    f.isNonFinite (f.fadd draw a b) = true :=
  Format.addVal_nonFinite hdraw (h.imp (f.unpack_nonFinite_iff a).2 (f.unpack_nonFinite_iff b).2)

theorem fsub_nonFinite {a b : Word} (h : f.isNonFinite a = true ∨ f.isNonFinite b = true) :
    f.isNonFinite (f.fsub draw a b) = true :=
  Format.addVal_nonFinite hdraw (h.imp (f.unpack_nonFinite_iff a).2
    fun hb => (FVal.negate_nonFinite _).2 ((f.unpack_nonFinite_iff b).2 hb))

theorem fmul_nonFinite_right (c : Word) {v : Word} (h : f.isNonFinite v = true) :
    f.isNonFinite (f.fmul draw c v) = true :=
  Format.roundVal_nonFinite hdraw (mulVal_nonFinite (.inr ((f.unpack_nonFinite_iff v).2 h)))

theorem fma_nonFinite {a v : Word} (c : Word) (h : f.isNonFinite a = true ∨ f.isNonFinite v = true) :
    f.isNonFinite (f.fma draw c v a) = true :=
  Format.addVal_nonFinite hdraw (h.symm.imp
    (fun hv => mulVal_nonFinite (.inr ((f.unpack_nonFinite_iff v).2 hv))) (f.unpack_nonFinite_iff a).2)

theorem fdiv_nonFinite {a b : Word} (ha : f.isNonFinite a = true) (hb : f.isNonFinite b = false) :
    f.isNonFinite (f.fdiv draw a b) = true :=
  Format.divVal_nonFinite hdraw ((f.unpack_nonFinite_iff a).2 ha) fun h => by
    rw [(f.unpack_nonFinite_iff b).1 h] at hb
    exact nomatch hb

theorem macAdd_nonFinite (fused : Bool) {a v : Word} (c : Word) (h : f.isNonFinite a = true ∨ f.isNonFinite v = true) :
    f.isNonFinite (macAdd (Arith.ieee f draw) fused a c v) = true := by
  cases fused with
  | false => exact fadd_nonFinite hdraw (h.imp_right (fmul_nonFinite_right hdraw c))
  | true => exact fma_nonFinite hdraw c h

theorem macSub_nonFinite (fused : Bool) {a v : Word} (c : Word) (h : f.isNonFinite a = true ∨ f.isNonFinite v = true) :
    f.isNonFinite (macSub (Arith.ieee f draw) fused a c v) = true := by
  cases fused with
  | false => exact fsub_nonFinite hdraw (h.imp_right (fmul_nonFinite_right hdraw c))
  | true => exact fma_nonFinite hdraw (f.fneg c) h

/-- Subtracting the feedback of a non-finite output leaves no finite accumulator, for both groupings. -/
theorem subtractFeedback_nonFinite (fused : Bool) (g : FbGrouping) {den yh : List Word} {c w : Word}
    (hcw : (c, w) ∈ den.tail.zip yh) (hw : f.isNonFinite w = true) (acc : Word) :
    f.isNonFinite (subtractFeedback (Arith.ieee f draw) fused g acc den yh) = true := by
  cases g with
  | perTerm =>
    exact foldl_of_mem (P := (f.isNonFinite · = true)) hcw (fun _ => macSub_nonFinite hdraw fused c (.inr hw))
      (fun _ cv ha => macSub_nonFinite hdraw fused cv.1 (.inl ha)) acc
  | grouped =>
    exact fsub_nonFinite hdraw (.inr (foldl_of_mem (P := (f.isNonFinite · = true)) hcw
      (fun _ => macAdd_nonFinite hdraw fused c (.inr hw))
      (fun _ cv ha => macAdd_nonFinite hdraw fused cv.1 (.inl ha)) posZero))

/-- One FILTER with a finite `den[0]` and a non-finite entry among `yh[0..n-2]` answers a non-finite value. -/
theorem filterOutput_nonFinite (fused : Bool) (g : FbGrouping) (num xs : List Word) {den yh : List Word} {k : Nat}
    {w : Word} (hdiv : f.isNonFinite (den.headD posZero) = false) (hk : k < den.length - 1) (hyh : yh[k]? = some w)
    (hw : f.isNonFinite w = true) :
    f.isNonFinite (filterOutput (Arith.ieee f draw) fused g num den xs yh) = true := by
  have hk' : k < den.tail.length := by rwa [List.length_tail]
  have hcw : (den.tail[k], w) ∈ den.tail.zip yh :=
    List.mem_of_getElem? (List.getElem?_zip_eq_some.2 ⟨List.getElem?_eq_getElem hk', hyh⟩)
  exact fdiv_nonFinite hdraw (subtractFeedback_nonFinite hdraw fused g hcw hw _) hdiv

end NonFinite

/-- The premise of R88: a configured engine with a finite `den[0]`, and a non-finite output that a FILTER feeds back. That one
exists needs two coefficients or more. -/
structure Latched (s : State) : Prop where
  configured : s.configured = true
  divisor : s.build.fmt.isNonFinite (s.den.headD posZero) = false
  feedback : ∃ k w, k < s.den.length - 1 ∧ s.yh[k]? = some w ∧ s.build.fmt.isNonFinite w = true

theorem Latched.filterResult_nonFinite {s : State} (h : Latched s) (v : Word) :
    s.build.fmt.isNonFinite (filterResult v s) = true := by
  obtain ⟨k, w, hk, hyh, hw⟩ := h.feedback
  exact filterOutput_nonFinite (isNaN_nanDraw s) _ _ _ _ h.divisor hk hyh hw

/-- FILTER keeps the premise of R88: its own non-finite output is now the most recent one. -/
theorem Latched.filter {s : State} (h : Latched s) (v : Word) :
    Latched (respond .ok (some (filterResult v s))
      (s.withHistories (shiftIn v s.xh) (shiftIn (filterResult v s) s.yh)).nextDraw) := by
  obtain ⟨k, w, hk, -, -⟩ := h.feedback
  exact ⟨h.configured, h.divisor, 0, filterResult v s, Nat.zero_lt_of_lt hk, shiftIn_head _ _, h.filterResult_nonFinite v⟩

/-- R88 over any run of FILTER: the last one answers a non-finite value, and its sample is in the input history. -/
theorem Latched.runInstrs_filter {s : State} (h : Latched s) (vs : List Word) (v : Word) :
    ∃ t y, runInstrs ((vs ++ [v]).map .filter) s = .next t ∧ t.rsp = some ⟨.ok, some y⟩ ∧
      s.build.fmt.isNonFinite y = true ∧ t.xh[0]? = some v := by
  induction vs generalizing s with
  | nil =>
    exact ⟨_, _, (runInstrs_singleton _ s).trans (execFilter_configured v h.configured), rfl,
      h.filterResult_nonFinite v, shiftIn_head _ _⟩
  | cons u vs ih =>
    obtain ⟨t, y, hrun, hrest⟩ := ih (h.filter u)
    exact ⟨t, y, (runInstrs_cons (i := .filter u) (execFilter_configured u h.configured)).trans hrun, hrest⟩

end Sys2Proof.Machine
end

-- ==== Proofs: the history operations ====
section
/-! PROOFS. The effects of RESET, FILL and GET_LAST (43_history_ops.md, R93 to R95). -/

namespace Sys2Proof.Machine

/-! What each command leaves in `yh[0]`, the entry GET_LAST reads. -/

theorem execGetLast_of_head {s : State} {y : Word} (h : s.yh[0]? = some y) :
    execGetLast s = .next (respond .ok (some y) s) := by
  have hy : lastOutput s = y := by rw [lastOutput, List.headD_eq_head?_getD, List.head?_eq_getElem?, h, Option.getD_some]
  rw [execGetLast, hy]

/-- The most recent output after both histories are filled with `+0`, whatever `N` is. -/
theorem lastOutput_fillHistories_posZero (s : State) : lastOutput (fillHistories posZero s) = posZero := by
  rw [lastOutput, fillHistories_yh]
  cases s.build.n <;> rfl

theorem fillHistories_yh_head {s : State} (h : 1 ≤ s.build.n) (v : Word) : (fillHistories v s).yh[0]? = some v := by
  rw [fillHistories_yh, List.getElem?_replicate_of_lt h]

/-- A FILTER that answers a value puts it in `yh[0]`. -/
theorem execFilter_yh_head {s t : State} {v y : Word} (h : execFilter v s = .next t) (hr : t.rsp = some ⟨.ok, some y⟩) :
    t.yh[0]? = some y := by
  rcases Bool.eq_false_or_eq_true s.configured with hc | hc
  · obtain rfl := next_unique h (execFilter_configured v hc)
    cases hr
    exact shiftIn_head _ _
  · obtain rfl := next_unique h (execFilter_notConfigured v hc)
    exact nomatch hr

/-- SET_COEFFS keeps the output history, performed or rejected. -/
theorem execSetCoeffs_yh {s t : State} (h : execSetCoeffs s = .next t) : t.yh = s.yh := by
  by_cases hc : StageComplete s
  · obtain ⟨b, hb⟩ := exists_map_some hc.1
    obtain ⟨a, ha⟩ := exists_map_some hc.2
    obtain rfl := next_unique h (execSetCoeffs_complete hb ha)
    rfl
  · obtain rfl := next_unique h (execSetCoeffs_incomplete hc)
    rfl

/-- A CONSTRUCT that is performed leaves `+0` in `yh[0]`. -/
theorem execConstruct_yh_head {s t : State} (hn : 1 ≤ s.build.n) (h : execConstruct s = .next t)
    (hr : t.rsp = some ⟨.ok, none⟩) : t.yh[0]? = some posZero := by
  by_cases hc : StageComplete s
  · obtain ⟨b, hb⟩ := exists_map_some hc.1
    obtain ⟨a, ha⟩ := exists_map_some hc.2
    obtain rfl := next_unique h (execConstruct_complete hb ha)
    exact fillHistories_yh_head (s := (s.withCoeffs b a).setConfigured) hn posZero
  · obtain rfl := next_unique h (execConstruct_incomplete hc)
    exact nomatch hr

/-- A non-finite FILL meets the premise of R88 where a FILTER feeds back at least one output. -/
theorem latched_fill {s : State} {v : Word} (hden : 2 ≤ s.den.length) (hn : 1 ≤ s.build.n) (hc : s.configured = true)
    (hdiv : s.build.fmt.isNonFinite (s.den.headD posZero) = false) (hv : s.build.fmt.isNonFinite v = true) :
    Latched (respond .ok (some v) (fillHistories v s)) :=
  ⟨hc, hdiv, 0, v, Nat.sub_pos_of_lt hden, fillHistories_yh_head hn v, hv⟩

/-- A section of unity DC gain (C5) with both histories at 4.0 answers 4.0 to the sample 4.0, with no rounding. -/
theorem filterResult_at_dc {s : State} (hbuild : s.build = Spec.single 2) (hnum : s.num = [0x3E800000#64, 0x3E800000#64])
    (hden : s.den = [0x3F800000#64, 0xBF000000#64]) (hx : s.xh = [0x40800000#64, 0x40800000#64])
    (hy : s.yh = [0x40800000#64, 0x40800000#64]) : filterResult 0x40800000#64 s = 0x40800000#64 :=
  filterResult_of_draw (d := 0x7FC00000#64) (by rw [hbuild]; decide)
    (by simp only [hbuild, hnum, hden, hx, hy]; decide) (by rw [hbuild]; decide)

/-- Settles O24: FILL writes both histories, by definition; the FILTER of the example is at the steady state
(`filterResult_at_dc`); the last clause is R88 (`Latched.runInstrs_filter`) from the state a non-finite FILL leaves. -/
theorem fillEffect : Obligations.FillEffect := by
  unfold Obligations.FillEffect
  refine ⟨fun w d hw => ?_, fun w d ho hw => decode_of_ne_match d (op := 4) (by decide) (by decide) ho hw,
    fun s v => rfl, fun s => rfl, fun s hbuild hc hnum hden => ?_, fun s v xs x hshape hn hc hdiv hv => ?_⟩
  · rw [(and_allOnes_mask w _).1 hw, decode_fillWord]
  · have hhist : List.replicate s.build.n 0x40800000#64 = [0x40800000#64, 0x40800000#64] := by rw [hbuild]; rfl
    refine ⟨respond .ok (some 0x40800000#64) (fillHistories 0x40800000#64 s), _,
      step_offer_of_fits (by rw [hbuild]; decide) (by rw [hbuild]; decide) (decode_fillWord _), rfl, hhist, hhist,
      execFilter_configured _ hc, ?_⟩
    exact congrArg (fun y => some (Response.mk .ok (some y)))
      (filterResult_at_dc (s := respond .ok (some 0x40800000#64) (fillHistories 0x40800000#64 s))
        hbuild hnum hden hhist hhist)
  · obtain ⟨hlegal, -, hden, -⟩ := hshape
    obtain ⟨t, y, hrun, hrsp, hy, -⟩ :=
      (latched_fill (hn.trans_eq hden.symm) hlegal.1 hc hdiv hv).runInstrs_filter xs x
    exact ⟨t, y, (runInstrs_cons rfl).trans hrun, hrsp, hy⟩

/-- Settles O23: RESET writes both histories, by definition, whatever they were; what GET_LAST reads after it is
`lastOutput_fillHistories_posZero`. -/
theorem resetEffect : Obligations.ResetEffect := by
  unfold Obligations.ResetEffect
  refine ⟨fun w d hw => ?_, fun w d ho hw => decode_of_ne_match d (op := 3) (by decide) (by decide) ho hw,
    fun s => rfl, fun s t h => ?_, fun s hl => ?_⟩
  · rw [(and_allOnes_mask w _).1 hw, decode_resetWord]
  · obtain rfl := next_unique h rfl
    exact ⟨rfl, _, rfl, congrArg (fun y => some (Response.mk .ok (some y))) (lastOutput_fillHistories_posZero s)⟩
  · exact ⟨_, step_offer_of_fits hl (Format.fits_posZero _) (decode_resetWord _), rfl⟩

/-- Settles O25: GET_LAST answers `yh[0]` (`execGetLast_of_head`), and each of the other clauses says what another command
leaves there. -/
theorem getLastEffect : Obligations.GetLastEffect := by
  unfold Obligations.GetLastEffect
  refine ⟨fun w d hw => ?_, fun w d ho hw => decode_of_ne_match d (op := 6) (by decide) (by decide) ho hw,
    fun s y hy => execGetLast_of_head hy, fun s t v y h hr => ?_, fun s t u y hy ht hu => ?_,
    fun s t v hn => ⟨fun h => ?_, fun h => ?_, fun h hr => execConstruct_yh_head hn h hr, ?_⟩, fun s hbuild hy => ?_⟩
  · rw [(and_allOnes_mask w _).1 hw, decode_getLastWord]
  · have hkeep : respond .ok (some y) t = t := congrArg (fun r => { t with rsp := r }) hr.symm
    rw [exec_getLast, execGetLast_of_head (execFilter_yh_head h hr), hkeep]
  · obtain rfl := next_unique hu (execGetLast_of_head (by rw [execSetCoeffs_yh ht, hy]))
    rfl
  · obtain rfl := next_unique h rfl
    exact fillHistories_yh_head hn posZero
  · obtain rfl := next_unique h rfl
    exact fillHistories_yh_head hn v
  · exact List.getElem?_replicate_of_lt hn
  · refine ⟨_, (step_offer_of_fits (by rw [hbuild]; decide) (Format.fits_posZero _) (decode_getLastWord _)).trans
      (execGetLast_of_head ?_), rfl⟩
    rw [hy]
    rfl

end Sys2Proof.Machine
end

-- ==== Proofs: statuses and rejections ====
section
/-! PROOFS. The status of every command (R101, R103), in two parts: the causes the command word alone shows are the decoder's,
those that depend on the state are the executed command's (`execStatus`). And a rejected command leaves only its response
(R102), which no later command reads (`step_withRsp`). -/

namespace Sys2Proof

/-- The opcodes the map leaves reserved (R53). -/
theorem opcodeMap_eq_none_iff (op idx : Nat) (d : Word) : opcodeMap op idx d = none ↔ op = 0 ∨ 9 ≤ op := by
  unfold opcodeMap
  split <;> simp_all
  omega

end Sys2Proof

namespace Sys2Proof.Machine

/-- The status of an accepted command: causes (3) and (4) of R103, the ones that depend on the state. -/
def execStatus (i : Instr) (s : State) : Status :=
  match i with
  | .construct | .setCoeffs => if ¬ StageComplete s then .stageIncomplete else .ok
  | .filter _ => if s.configured = false then .notConfigured else .ok
  | .stageNum k _ | .stageDen k _ => if s.build.n ≤ k then .indexRange else .ok
  | .reset | .fill _ | .getLast => .ok

/-- `o` is a next state with a response of status `st`, which carries no value where `st` is no OK (R101). -/
def AnswersWith (o : Host.Outcome State Fault Refusal) (st : Status) : Prop :=
  ∃ t v, o = .next t ∧ t.rsp = some ⟨st, v⟩ ∧ (st ≠ .ok → v = none)

theorem answersWith_ok {o : Host.Outcome State Fault Refusal} {v : Option Word} {t : State}
    (h : o = .next (respond .ok v t)) : AnswersWith o .ok := ⟨_, v, h, rfl, fun hne => absurd rfl hne⟩

theorem answersWith_reject {o : Host.Outcome State Fault Refusal} {st : Status} {s : State}
    (h : o = .next (reject st s)) : AnswersWith o st := ⟨_, none, h, rfl, fun _ => rfl⟩

/-- A complete staging bank is a coefficient set (R29). -/
theorem StageComplete.exists_staged {s : State} (h : StageComplete s) :
    ∃ b a : List Word, s.stgNum = b.map some ∧ s.stgDen = a.map some := by
  obtain ⟨hnum, hden⟩ := h
  obtain ⟨b, hb⟩ := exists_map_some hnum
  obtain ⟨a, ha⟩ := exists_map_some hden
  exact ⟨b, a, hb, ha⟩

/-- An accepted command answers with its `execStatus`. -/
theorem exec_answersWith (i : Instr) (s : State) : AnswersWith (exec i s) (execStatus i s) := by
  cases i with
  | construct =>
    simp only [execStatus]
    split_ifs with h
    · obtain ⟨b, a, hb, ha⟩ := StageComplete.exists_staged h
      exact answersWith_ok (execConstruct_complete hb ha)
    · exact answersWith_reject (execConstruct_incomplete h)
  | setCoeffs =>
    simp only [execStatus]
    split_ifs with h
    · obtain ⟨b, a, hb, ha⟩ := StageComplete.exists_staged h
      exact answersWith_ok (execSetCoeffs_complete hb ha)
    · exact answersWith_reject (execSetCoeffs_incomplete h)
  | filter v =>
    simp only [execStatus]
    split_ifs with h
    · exact answersWith_reject (execFilter_notConfigured v h)
    · exact answersWith_ok (execFilter_configured v (Bool.eq_true_of_not_eq_false h))
  | stageNum k v =>
    simp only [execStatus]
    split_ifs with h
    · exact answersWith_reject (execStageNum_outOfRange v h)
    · exact answersWith_ok (execStageNum_inRange v (Nat.lt_of_not_le h))
  | stageDen k v =>
    simp only [execStatus]
    split_ifs with h
    · exact answersWith_reject (execStageDen_outOfRange v h)
    · exact answersWith_ok (execStageDen_inRange v (Nat.lt_of_not_le h))
  | reset | fill | getLast => exact answersWith_ok rfl

/-- R103's chain over the fields of R50 as the decoder reads them, as numbers. -/
theorem statusOf_eq_fields (s : State) (w : Cmd) : Spec.statusOf s w =
    if opField w = 0 ∨ 9 ≤ opField w then .illegalOpcode
    else if rsv0Field w ≠ 0 ∨ rsv1Field w ≠ 0 then .reservedField
    else if opUsesIdx (opField w) = false ∧ idxField w ≠ 0 then .reservedField
    else if opUsesIdx (opField w) = true ∧ s.build.n ≤ idxField w then .indexRange
    else if opField w = 2 ∧ s.configured = false then .notConfigured
    else if (opField w = 1 ∨ opField w = 5) ∧ ¬ StageComplete s then .stageIncomplete
    else .ok := by
  simp [Spec.statusOf, opField_eq, rsv0Field_eq, rsv1Field_eq, idxField_eq, ← BitVec.toNat_inj, opUsesIdx, StageComplete,
    imp_iff_not_or]

/-- A rejected word has the status of its rejection: causes (1) and (2) of R103, before all that depends on the state. -/
theorem statusOf_of_decode_error {w : Cmd} {d : Word} {r : DecodeReject} (h : decode w d = .error r) (s : State) :
    Spec.statusOf s w = rejectStatus r := by
  unfold decode at h
  rw [statusOf_eq_fields]
  split at h
  next hop =>
    cases h
    exact if_pos ((opcodeMap_eq_none_iff _ _ _).1 hop)
  next i hop =>
    rw [if_neg fun hres => nomatch hop.symm.trans ((opcodeMap_eq_none_iff _ _ _).2 hres)]
    split at h
    next hrsv =>
      cases h
      exact if_pos hrsv
    next hrsv =>
      rw [if_neg hrsv]
      split at h
      next hidx =>
        cases h
        exact if_pos hidx
      next => exact nomatch h

/-- An accepted word has the status of the instruction decoded from it: no cause before those of the state applies. -/
theorem statusOf_of_decode_ok {w : Cmd} {d : Word} {i : Instr} (h : decode w d = .ok i) (s : State) :
    Spec.statusOf s w = execStatus i s := by
  obtain ⟨hi, hrsv0, hrsv1, hidx⟩ := (decode_eq_ok_iff w d i).1 h
  have hop : ¬ (opField w = 0 ∨ 9 ≤ opField w) := fun hres =>
    nomatch hi.symm.trans ((opcodeMap_eq_none_iff _ _ _).2 hres)
  rw [statusOf_eq_fields, if_neg hop, if_neg (by simp [hrsv0, hrsv1]), if_neg fun hne => hne.2 (hidx hne.1)]
  rcases opcodeMap_eq_some hi with ⟨ho, rfl⟩ | ⟨ho, rfl⟩ | ⟨ho, rfl⟩ | ⟨ho, rfl⟩ | ⟨ho, rfl⟩ | ⟨ho, rfl⟩ | ⟨ho, rfl⟩ |
    ⟨ho, rfl⟩ <;>
  simp [ho, execStatus, opUsesIdx]

theorem answer_of_decode_error {w : Cmd} {d : Word} {r : DecodeReject} (h : decode w d = .error r) (s : State) :
    answer w d s = .next (reject (rejectStatus r) s) := by
  simp [answer, h]

/-- Every command word is answered with the status R103 gives it. -/
theorem answer_answersWith (w : Cmd) (d : Word) (s : State) : AnswersWith (answer w d s) (Spec.statusOf s w) := by
  cases hd : decode w d with
  | ok i =>
    rw [answer_of_decode hd, statusOf_of_decode_ok hd]
    exact exec_answersWith i s
  | error r =>
    rw [statusOf_of_decode_error hd]
    exact answersWith_reject (answer_of_decode_error hd s)

/-- Settles O4: the step answers the command word (`answer_answersWith`), and taking the input changes nothing the status
depends on; the codes are a finite table. -/
theorem statusOfEveryCommand : Obligations.StatusOfEveryCommand := by
  unfold Obligations.StatusOfEveryCommand
  refine ⟨fun s w d rest hl hin => ?_, rfl, rfl, rfl, rfl, rfl, rfl, fun st => by cases st <;> decide⟩
  rw [step_of_command hl hin]
  exact answer_answersWith w (portWord s.build.fmt d) (s.withInputs rest)

/-! No command reads the response last given: each ends as it did, and puts its own response in place. -/

theorem commit_withRsp (s : State) (r : Option Response) :
    commit (s.withRsp r) = (commit s).map fun t => t.withRsp r := by
  simp only [commit, State.withRsp_stgNum, State.withRsp_stgDen]
  split <;> rfl

theorem exec_withRsp (i : Instr) (s : State) (r : Option Response) : exec i (s.withRsp r) = exec i s := by
  cases i with
  | construct =>
    simp only [exec_construct, execConstruct, commit_withRsp]
    cases commit s <;> rfl
  | setCoeffs =>
    simp only [exec_setCoeffs, execSetCoeffs, commit_withRsp]
    cases commit s <;> rfl
  | filter | reset | fill | getLast | stageNum | stageDen => rfl

theorem answer_withRsp (w : Cmd) (d : Word) (s : State) (r : Option Response) :
    answer w d (s.withRsp r) = answer w d s := by
  cases hd : decode w d with
  | ok i => rw [answer_of_decode hd, answer_of_decode hd, exec_withRsp]
  | error e =>
    rw [answer_of_decode_error hd, answer_of_decode_error hd]
    rfl

/-- A step that takes an input does not depend on the response last given. -/
theorem step_withRsp {s : State} {x : Input} {more : List Input} (hin : s.inputs = x :: more) (r : Option Response) :
    step (s.withRsp r) = step s := by
  by_cases hl : s.build.Legal
  · cases x with
    | command w d =>
      rw [step_of_command hl hin, step_of_command (s := s.withRsp r) hl hin]
      exact answer_withRsp w _ (s.withInputs more) r
    | hardwareReset c =>
      rw [step_of_hardwareReset hl hin, step_of_hardwareReset (s := s.withRsp r) hl hin]
      rfl
  · rw [step_of_illegal hl, step_of_illegal (s := s.withRsp r) hl]

/-- An answer with a status that is no OK is a rejection: the response, and no state written (R102). -/
theorem answer_eq_reject {w : Cmd} {d : Word} {s t : State} {st : Status} {v : Option Word}
    (h : answer w d s = .next t) (hr : t.rsp = some ⟨st, v⟩) (hst : st ≠ .ok) : t = reject st s := by
  rcases answer_cases w d s with ⟨st', -, h'⟩ | ⟨i, u, v', -, -, h'⟩
  · obtain rfl := next_unique h h'
    cases hr
    rfl
  · obtain rfl := next_unique h h'
    cases hr
    exact absurd rfl hst

/-- Settles O10: the answer is a rejection (`answer_eq_reject`), and the response it leaves is not read by the next step
(`step_withRsp`). -/
theorem rejectedCommandWritesNothing : Obligations.RejectedCommandWritesNothing := by
  unfold Obligations.RejectedCommandWritesNothing
  intro s t w d rest st v hl hin h hr hst
  obtain rfl := answer_eq_reject ((step_of_command hl hin).symm.trans h) hr hst
  exact ⟨rfl, fun x more hrest => step_withRsp (s := s.withInputs rest) hrest _⟩

end Sys2Proof.Machine
end


-- ==== Proofs: the opcode table and the encoder ====
section
/-! PROOFS. Decode and encode are inverse on well-formed instructions (R50, R54), and the match and mask table chooses the row of
the decoded instruction. -/

namespace Sys2Proof

/-- The encoder writes its instruction so that the decoder reads it back, for a STAGE command of either bank. -/
theorem decode_stageWord {op : Cmd} {k : Nat} {v : Word} {i : Instr} (hop : op.toNat < 16) (hk : k < 256)
    (hu : opUsesIdx op.toNat = true) (hi : opcodeMap op.toNat k v = some i) :
    decode (op + BitVec.ofNat 32 (k * 2 ^ 8)) v = .ok i := by
  obtain ⟨h0, h1, h2, h3⟩ := stageWord_fields op k hop hk
  rw [decode_eq_ok_iff, h0, h1, h2, h3]
  exact ⟨hi, rfl, rfl, by simp [hu]⟩

/-- The data word of a well-formed instruction fits the format, whether the command uses it or not. -/
theorem fits_encode {f : Format} {i : Instr} (h : i.WellFormed f = true) : f.Fits (encode i).2 := by
  cases i with
  | filter v | fill v => exact of_decide_eq_true h
  | stageNum k v | stageDen k v =>
    simp only [Instr.WellFormed, Bool.and_eq_true, decide_eq_true_eq] at h
    exact h.2
  | construct | reset | setCoeffs | getLast => exact f.fits_posZero

/-- Settles O1: by the constructor; a STAGE command by the fields of its word (`decode_stageWord`). -/
theorem decodeOfEncode : Obligations.DecodeOfEncode := by
  unfold Obligations.DecodeOfEncode
  intro f i h
  cases i with
  | construct | reset | setCoeffs | getLast => rfl
  | filter v => exact decode_filterWord v
  | fill v => exact decode_fillWord v
  | stageNum k v | stageDen k v =>
    simp only [Instr.WellFormed, Bool.and_eq_true, decide_eq_true_eq] at h
    exact decode_stageWord (by decide) h.1 rfl rfl

/-- An accepted word is the one the encoder writes: its four fields leave no bit free (R50). -/
theorem encode_fst_of_decode {w : Cmd} {d : Word} {i : Instr} (h : decode w d = .ok i) : (encode i).1 = w := by
  obtain ⟨hi, hrsv0, hrsv1, hidx⟩ := (decode_eq_ok_iff w d i).1 h
  have hw := toNat_eq_fields w
  have hlt := idxField_lt w
  apply BitVec.eq_of_toNat_eq
  rcases opcodeMap_eq_some hi with ⟨ho, rfl⟩ | ⟨ho, rfl⟩ | ⟨ho, rfl⟩ | ⟨ho, rfl⟩ | ⟨ho, rfl⟩ | ⟨ho, rfl⟩ | ⟨ho, rfl⟩ |
    ⟨ho, rfl⟩
  case inr.inr.inr.inr.inr.inr.inl =>
    exact (Laws.ReservedZero.stageWord_toNat 7#32 _ (by decide) hlt).trans (by rw [BitVec.toNat_ofNat]; omega)
  case inr.inr.inr.inr.inr.inr.inr =>
    exact (Laws.ReservedZero.stageWord_toNat 8#32 _ (by decide) hlt).trans (by rw [BitVec.toNat_ofNat]; omega)
  all_goals
    have h0 := hidx (by rw [ho]; rfl)
    simp only [encode, BitVec.toNat_ofNat]
    omega

/-- Settles O2: the command word is `encode_fst_of_decode`; the data word and the form are read off the opcode map. -/
theorem encodeOfDecode : Obligations.EncodeOfDecode := by
  unfold Obligations.EncodeOfDecode
  intro w d i h
  have hlt := idxField_lt w
  refine ⟨encode_fst_of_decode h, ?_⟩
  obtain ⟨hi, -⟩ := (decode_eq_ok_iff w d i).1 h
  rcases opcodeMap_eq_some hi with ⟨-, rfl⟩ | ⟨-, rfl⟩ | ⟨-, rfl⟩ | ⟨-, rfl⟩ | ⟨-, rfl⟩ | ⟨-, rfl⟩ | ⟨-, rfl⟩ |
    ⟨-, rfl⟩ <;>
  simp +contextual [Instr.WellFormed, encode, hlt]

/-! The match and mask table (R54) and the decoder choose the same row. -/

/-- The row of R54 that belongs to an instruction. -/
def rowOf : Instr → OpcodeRow
  | .construct => ⟨"CONSTRUCT", 0x00000001#32, 0xFFFFFFFF#32⟩
  | .filter _ => ⟨"FILTER", 0x00000002#32, 0xFFFFFFFF#32⟩
  | .reset => ⟨"RESET", 0x00000003#32, 0xFFFFFFFF#32⟩
  | .fill _ => ⟨"FILL", 0x00000004#32, 0xFFFFFFFF#32⟩
  | .setCoeffs => ⟨"SET_COEFFS", 0x00000005#32, 0xFFFFFFFF#32⟩
  | .getLast => ⟨"GET_LAST", 0x00000006#32, 0xFFFFFFFF#32⟩
  | .stageNum _ _ => ⟨"STAGE_NUM", 0x00000007#32, 0xFFFF00FF#32⟩
  | .stageDen _ _ => ⟨"STAGE_DEN", 0x00000008#32, 0xFFFF00FF#32⟩

/-- The mask of a STAGE row clears the index and leaves the opcode. -/
theorem stageWord_and_mask : ∀ k < 256, (0x00000007#32 + BitVec.ofNat 32 (k * 2 ^ 8)) &&& 0xFFFF00FF#32 = 0x00000007#32 ∧
    (0x00000008#32 + BitVec.ofNat 32 (k * 2 ^ 8)) &&& 0xFFFF00FF#32 = 0x00000008#32 := by decide +kernel

/-- An accepted word selects the row of its instruction. -/
theorem rowOf_selects_of_decode {w : Cmd} {d : Word} {i : Instr} (h : decode w d = .ok i) :
    (rowOf i).selects w = true := by
  have hw := encode_fst_of_decode h
  have hlt := idxField_lt w
  obtain ⟨hi, -⟩ := (decode_eq_ok_iff w d i).1 h
  rw [← hw]
  rcases opcodeMap_eq_some hi with ⟨-, rfl⟩ | ⟨-, rfl⟩ | ⟨-, rfl⟩ | ⟨-, rfl⟩ | ⟨-, rfl⟩ | ⟨-, rfl⟩ | ⟨-, rfl⟩ |
    ⟨-, rfl⟩
  case inr.inr.inr.inr.inr.inr.inl => exact beq_iff_eq.2 (stageWord_and_mask _ hlt).1
  case inr.inr.inr.inr.inr.inr.inr => exact beq_iff_eq.2 (stageWord_and_mask _ hlt).2
  all_goals exact beq_iff_eq.2 ((and_allOnes_mask _ _).2 rfl)

/-- A word that selects a row of the table is accepted as an instruction of that row. -/
theorem decode_of_selects {w : Cmd} {r : OpcodeRow} (d : Word) (hr : r ∈ opcodeTable) (h : r.selects w = true) :
    ∃ i, decode w d = .ok i ∧ rowOf i = r := by
  simp only [opcodeTable, List.mem_cons, List.not_mem_nil, or_false] at hr
  rcases hr with rfl | rfl | rfl | rfl | rfl | rfl | rfl | rfl
  case inr.inr.inr.inr.inr.inr.inl => exact ⟨_, decode_stageNumWord d (beq_iff_eq.1 h), rfl⟩
  case inr.inr.inr.inr.inr.inr.inr => exact ⟨_, decode_stageDenWord d (beq_iff_eq.1 h), rfl⟩
  all_goals
    rw [OpcodeRow.selects, beq_iff_eq, and_allOnes_mask] at h
    subst h
    exact ⟨_, rfl, rfl⟩

/-- The rows an accepted word selects are exactly those equal to the row of its instruction. -/
theorem filter_selects_of_decode_ok {w : Cmd} {d : Word} {i : Instr} (h : decode w d = .ok i) :
    opcodeTable.filter (·.selects w) = opcodeTable.filter (· = rowOf i) := by
  refine List.filter_congr fun r hr => ?_
  rw [Bool.eq_iff_iff, decide_eq_true_eq]
  constructor
  · intro hs
    obtain ⟨j, hj, rfl⟩ := decode_of_selects d hr hs
    rw [Except.ok.inj (hj.symm.trans h)]
  · rintro rfl
    exact rowOf_selects_of_decode h

theorem filter_selects_of_decode_error {w : Cmd} {d : Word} {e : DecodeReject} (h : decode w d = .error e) :
    opcodeTable.filter (·.selects w) = [] := by
  refine List.filter_eq_nil_iff.2 fun r hr hs => ?_
  obtain ⟨i, hi, -⟩ := decode_of_selects d hr hs
  exact nomatch hi.symm.trans h

/-- Settles O3: each row decodes to its instruction, and the rows a word selects are those of the instruction decoded from it
(`filter_selects_of_decode_ok`), of which the table has one. -/
theorem everyWordSelectsOneRowOrIsRejected : Obligations.EveryWordSelectsOneRowOrIsRejected := by
  unfold Obligations.EveryWordSelectsOneRowOrIsRejected
  intro w d
  simp only [and_allOnes_mask]
  refine ⟨?_, ?_, ?_, ?_, ?_, ?_, decode_stageNumWord d, decode_stageDenWord d, ?_⟩
  case refine_7 =>
    cases h : decode w d with
    | ok i =>
      rw [filter_selects_of_decode_ok h]
      cases i <;> rfl
    | error e =>
      rw [filter_selects_of_decode_error h]
      rfl
  all_goals
    rintro rfl
    rfl

end Sys2Proof
end


-- ==== Proofs: the assembler ====
section
/-! PROOFS. The assembler reads back the line written for an instruction (R57). -/

namespace Sys2Proof.Machine

/-! The assembler on a rendered line: its tokens, and what each shape of line stands for (R57). -/

/-- A mnemonic is one word of a line: no character of it separates words. -/
def IsMnemonic (m : String) : Prop := m.toList ≠ [] ∧ ∀ c ∈ m.toList, plain c = true

/-- A line of one mnemonic alone. -/
theorem assembleLine_bare (f : Format) (n : Nat) {m : String} (hm : IsMnemonic m) :
    assembleLine f n m.toList = assembleTokens f n [.word m.toList] := by
  rw [assembleLine, tokenize_word _ hm.1 hm.2]

/-- A line of a mnemonic and a raw data word. -/
theorem assembleLine_data (f : Format) (n : Nat) {m : String} (v : Word) (hm : IsMnemonic m) :
    assembleLine f n (m.toList ++ ' ' :: renderWord f v) =
      assembleTokens f n [.word m.toList, .word (renderWord f v)] := by
  rw [assembleLine, tokenize_word_space _ hm.1 hm.2, tokenize_word _ (renderWord_ne_nil f v) (renderWord_plain f v)]

/-- A line of a mnemonic, an index and a raw data word. -/
theorem assembleLine_stage (f : Format) (n : Nat) {m : String} (k : Nat) (v : Word) (hm : IsMnemonic m) :
    assembleLine f n (m.toList ++ ' ' :: (renderIndex k ++ ',' :: ' ' :: renderWord f v)) =
      assembleTokens f n [.word m.toList, .word (renderIndex k), .comma, .word (renderWord f v)] := by
  rw [assembleLine, tokenize_word_space _ hm.1 hm.2, tokenize_word_comma _ (renderIndex_ne_nil k) (renderIndex_plain k),
    tokenize_word _ (renderWord_ne_nil f v) (renderWord_plain f v)]

/-- Settles O6: the tokens of the rendered line are its mnemonic and operands, and each reader gives back what its renderer
wrote (`readReal_renderWord`, `readIndex_renderIndex`). -/
theorem assembleOfRender : Obligations.AssembleOfRender := by
  unfold Obligations.AssembleOfRender
  intro f n i h
  cases i with
  | construct | reset | setCoeffs | getLast =>
    unfold renderLine
    rw [assembleLine_bare, assembleTokens]
    · simp
    · exact ⟨by decide, by simp; decide⟩
  | filter v | fill v =>
    unfold renderLine
    rw [assembleLine_data, assembleTokens, readReal_renderWord f v (of_decide_eq_true h)]
    · simp
    · exact ⟨by decide, by simp; decide⟩
  | stageNum k v | stageDen k v =>
    simp only [Instr.WellFormed, Bool.and_eq_true, decide_eq_true_eq] at h
    unfold renderLine
    rw [assembleLine_stage, assembleTokens, readReal_renderWord f v h.2, readIndex_renderIndex k h.1]
    · simp
    · exact ⟨by decide, by simp; decide⟩

end Sys2Proof.Machine
end


-- ==== Proofs: runs of the machine ====
section
/-! PROOFS. What a command keeps and what it does not read, in one equation for every command (`exec_eq`); that every input is taken
and answered (R42, R104 to R106), and what the step runs. -/

namespace Sys2Proof.Machine

/-! What every command answers and keeps. -/

theorem exec_next (i : Instr) (s : State) : ∃ t, exec i s = .next t := by
  rcases exec_cases i s with ⟨st, -, h⟩ | ⟨t, v, h⟩
  · exact ⟨_, h⟩
  · exact ⟨_, h⟩

theorem answer_next (w : Cmd) (d : Word) (s : State) : ∃ t, answer w d s = .next t := by
  rcases answer_cases w d s with ⟨st, -, h⟩ | ⟨i, t, v, -, -, h⟩
  · exact ⟨_, h⟩
  · exact ⟨_, h⟩

/-- The fields of the interface and of the model that no command writes. -/
theorem exec_keeps_build_source_inputs {i : Instr} {s t : State} (h : exec i s = .next t) :
    t.build = s.build ∧ t.source = s.source ∧ t.inputs = s.inputs := by
  rcases exec_inversion h with ⟨st, -, rfl⟩ | ⟨b, a, -, -, -, rfl⟩ | ⟨v, -, -, rfl⟩ | ⟨-, rfl⟩ | ⟨v, -, rfl⟩ |
    ⟨b, a, -, -, -, rfl⟩ | ⟨-, rfl⟩ | ⟨k, v, -, -, rfl⟩ | ⟨k, v, -, -, rfl⟩ <;>
  exact ⟨rfl, rfl, rfl⟩

theorem answer_keeps_build_inputs {w : Cmd} {d : Word} {s t : State} (h : answer w d s = .next t) :
    t.build = s.build ∧ t.inputs = s.inputs := by
  cases hd : decode w d with
  | ok i =>
    rw [answer_of_decode hd] at h
    obtain ⟨hbuild, -, hinputs⟩ := exec_keeps_build_source_inputs h
    exact ⟨hbuild, hinputs⟩
  | error r =>
    obtain rfl := next_unique h (answer_of_decode_error hd s)
    exact ⟨rfl, rfl⟩

/-- A step in a legal build takes the first input, whatever it is. -/
theorem step_takes_input {s : State} {x : Input} {rest : List Input} (hl : s.build.Legal) (hin : s.inputs = x :: rest) :
    ∃ t, step s = .next t ∧ t.build = s.build ∧ t.inputs = rest := by
  cases x with
  | command w d =>
    obtain ⟨t, ht⟩ := answer_next w (portWord s.build.fmt d) (s.withInputs rest)
    exact ⟨t, (step_of_command hl hin).trans ht, answer_keeps_build_inputs ht⟩
  | hardwareReset c => exact ⟨_, step_of_hardwareReset hl hin, rfl, rfl⟩

theorem step_next {s : State} (hl : s.build.Legal) : ∃ t, step s = .next t := by
  cases hin : s.inputs with
  | nil => exact ⟨s, step_of_no_input hl hin⟩
  | cons x rest =>
    obtain ⟨t, ht, -⟩ := step_takes_input hl hin
    exact ⟨t, ht⟩

theorem step_keeps_build {s t : State} (h : step s = .next t) : t.build = s.build := by
  obtain ⟨-, ⟨-, rfl⟩ | ⟨w, d, rest, -, ha⟩ | ⟨c, rest, -, rfl⟩⟩ := step_inversion h
  · rfl
  · exact (answer_keeps_build_inputs ha).1
  · rfl

/-- Settles O13: every command ends (`exec_cases`), and so does every step of a legal build; any other build is refused. -/
theorem nothingStopsTheMachine : Obligations.NothingStopsTheMachine := by
  unfold Obligations.NothingStopsTheMachine
  exact ⟨exec_next, fun s hl => step_next hl, fun s hl => step_of_illegal hl⟩

/-- Settles O14, by induction on the number of steps. -/
theorem buildParametersNeverChange : Obligations.BuildParametersNeverChange := by
  unfold Obligations.BuildParametersNeverChange
  intro k
  induction k with
  | zero =>
    intro s t h
    rw [next_unique (core_run_zero s) h]
  | succ k ih =>
    intro s t h
    obtain ⟨u, hu, hrun⟩ := core_run_succ_inversion h
    rw [ih u t hrun, step_keeps_build hu]

/-- As many steps as there are inputs take them all. -/
theorem run_takes_all_inputs (is : List Input) : ∀ s : State, s.build.Legal → s.inputs = is →
    ∃ t, core.run is.length s = .next t ∧ t.inputs = [] := by
  induction is with
  | nil => exact fun s _ hin => ⟨s, rfl, hin⟩
  | cons x rest ih =>
    intro s hl hin
    obtain ⟨u, hu, hbuild, hrest⟩ := step_takes_input hl hin
    obtain ⟨t, ht, hnil⟩ := ih u (by rwa [hbuild]) hrest
    exact ⟨t, (core_run_next hu).trans ht, hnil⟩

/-- Settles O8: the response is R103's (`answer_answersWith`), the input is taken (`answer_keeps_build_inputs`), and the run is
`run_takes_all_inputs`. -/
theorem everyInputIsAnswered : Obligations.EveryInputIsAnswered := by
  unfold Obligations.EveryInputIsAnswered
  refine fun s hl => ⟨fun w d rest hin => ?_, run_takes_all_inputs s.inputs s hl rfl⟩
  obtain ⟨t, v, ht, hrsp, -⟩ := answer_answersWith w (portWord s.build.fmt d) (s.withInputs rest)
  obtain ⟨-, hrest⟩ := answer_keeps_build_inputs ht
  exact ⟨t, _, (step_of_command hl hin).trans ht, hrsp, hrest⟩

/-! Every command in one equation: its status decides between the rejection and what it does where it is performed. -/

/-- The live set after a commit of a complete staging bank (R79, R80). -/
def commitStaged (s : State) : State := (s.withCoeffs s.stgNum.reduceOption s.stgDen.reduceOption).setConfigured

/-- What a command leaves where it is not rejected. -/
def perform : Instr → State → State
  | .construct, s => respond .ok none (fillHistories posZero (commitStaged s))
  | .filter v, s => respond .ok (some (filterResult v s))
      (s.withHistories (shiftIn v s.xh) (shiftIn (filterResult v s) s.yh)).nextDraw
  | .reset, s => respond .ok (some posZero) (fillHistories posZero s)
  | .fill v, s => respond .ok (some v) (fillHistories v s)
  | .setCoeffs, s => respond .ok none (commitStaged s)
  | .getLast, s => respond .ok (some (lastOutput s)) s
  | .stageNum k v, s => respond .ok none (s.stageNumAt k v)
  | .stageDen k v, s => respond .ok none (s.stageDenAt k v)

/-- What a command leaves. -/
def outcome (i : Instr) (s : State) : State :=
  if execStatus i s = .ok then perform i s else reject (execStatus i s) s

theorem commit_of_complete {s : State} (h : StageComplete s) : commit s = some (commitStaged s) := by
  obtain ⟨b, a, hb, ha⟩ := StageComplete.exists_staged h
  rw [commit_of_staged hb ha, commitStaged, hb, ha]
  simp [List.reduceOption]

/-- Every command answers its `outcome`. -/
theorem exec_eq (i : Instr) (s : State) : exec i s = .next (outcome i s) := by
  unfold outcome
  cases i with
  | construct =>
    by_cases h : StageComplete s
    · simp [execStatus, h, perform, execConstruct, commit_of_complete h]
    · simp [execStatus, h, execConstruct_incomplete h]
  | setCoeffs =>
    by_cases h : StageComplete s
    · simp [execStatus, h, perform, execSetCoeffs, commit_of_complete h]
    · simp [execStatus, h, execSetCoeffs_incomplete h]
  | filter v => cases h : s.configured <;> simp [execStatus, h, perform, execFilter]
  | stageNum k v | stageDen k v =>
    rcases Nat.lt_or_ge k s.build.n with h | h
    · simp [execStatus, h, perform, execStageNum_inRange, execStageDen_inRange]
    · simp [execStatus, h, execStageNum_outOfRange, execStageDen_outOfRange]
  | reset | fill | getLast => rfl

theorem outcome_of_exec {i : Instr} {s t : State} (h : exec i s = .next t) : outcome i s = t :=
  next_unique (exec_eq i s) h

/-- Commands do the same in two states with one status. -/
theorem outcome_of_status {i : Instr} {s s' : State} (h : execStatus i s' = execStatus i s) :
    outcome i s' = if execStatus i s = .ok then perform i s' else reject (execStatus i s) s' := by
  rw [outcome, h]

/-! No command reads the inputs that wait. -/

theorem outcome_withInputs (i : Instr) (s : State) (is : List Input) :
    outcome i (s.withInputs is) = (outcome i s).withInputs is := by
  have hstatus : execStatus i (s.withInputs is) = execStatus i s := by cases i <;> rfl
  rw [outcome_of_status hstatus, outcome]
  split
  · cases i <;> rfl
  · rfl

theorem answer_withInputs {w : Cmd} {d : Word} {s t : State} (h : answer w d s = .next t) (is : List Input) :
    answer w d (s.withInputs is) = .next (t.withInputs is) := by
  cases hd : decode w d with
  | ok i =>
    rw [answer_of_decode hd] at h
    rw [answer_of_decode hd, exec_eq, outcome_withInputs, outcome_of_exec h]
  | error r =>
    obtain rfl := next_unique h (answer_of_decode_error hd s)
    exact answer_of_decode_error hd _

/-- Settles O9: what the step answers does not depend on the inputs that wait (`answer_withInputs`), and hardware reset keeps
them. -/
theorem laterInputsDoNotAffectAStep : Obligations.LaterInputsDoNotAffectAStep := by
  unfold Obligations.LaterInputsDoNotAffectAStep
  intro s t x rest rest' hin h
  obtain ⟨hl, -⟩ := step_inversion h
  cases x with
  | command w d =>
    have ha := (step_of_command hl hin).symm.trans h
    exact (step_of_command (s := s.withInputs (.command w d :: rest')) hl rfl).trans (answer_withInputs ha rest')
  | hardwareReset c =>
    obtain rfl := next_unique h (step_of_hardwareReset hl hin)
    exact step_of_hardwareReset (s := s.withInputs (.hardwareReset c :: rest')) hl rfl

/-! What the decoded instruction does. -/

/-- A data word that the instruction does not use may be cut down to the data path: decode gives the same. -/
theorem decode_portWord {f : Format} {w : Cmd} {d : Word} {i : Instr} (h : decode w d = .ok i)
    (hwf : i.WellFormed f = true) : decode w (portWord f d) = .ok i := by
  have hi := (decode_eq_ok_iff w d i).1 h
  rw [decode_eq_ok_iff]
  refine ⟨?_, hi.2⟩
  rcases opcodeMap_eq_some hi.1 with ⟨ho, rfl⟩ | ⟨ho, rfl⟩ | ⟨ho, rfl⟩ | ⟨ho, rfl⟩ | ⟨ho, rfl⟩ | ⟨ho, rfl⟩ | ⟨ho, rfl⟩ |
    ⟨ho, rfl⟩ <;>
  rw [ho]
  case inr.inl | inr.inr.inr.inl =>
    rw [portWord_of_fits (of_decide_eq_true hwf)]
    rfl
  case inr.inr.inr.inr.inr.inr.inl | inr.inr.inr.inr.inr.inr.inr =>
    rw [Instr.WellFormed, Bool.and_eq_true] at hwf
    rw [portWord_of_fits (of_decide_eq_true hwf.2)]
    rfl
  all_goals rfl

/-- Settles O7: the step answers the word the port delivers; encoding and decoding are O1 (`decodeOfEncode`). -/
theorem stepRunsTheDecodedInstruction : Obligations.StepRunsTheDecodedInstruction := by
  unfold Obligations.StepRunsTheDecodedInstruction
  refine ⟨fun s w d rest i hl hin hd => ?_, fun s w d rest r hl hin hd => ?_, fun s i hl hwf => ?_,
    fun s nbits w i hl hd hwf => ?_, fun s hl hin => step_of_no_input hl hin⟩
  · exact (step_of_command hl hin).trans (answer_of_decode hd _)
  · exact (step_of_command hl hin).trans (answer_of_decode_error hd _)
  · exact step_offer_of_fits hl (fits_encode hwf) (decodeOfEncode _ i hwf)
  · have hd' : decode (transactionWords nbits w).1 (transactionWords nbits w).2 = .ok i := by
      unfold decodeTableWord at hd
      cases h : decode (transactionWords nbits w).1 (transactionWords nbits w).2 with
      | ok j =>
        rw [h] at hd
        rw [Option.some.inj hd]
      | error e =>
        rw [h] at hd
        exact nomatch hd
    rw [State.withFetchWord, step_offer _ _ hl, answer_of_decode (decode_portWord hd' hwf)]

/-- The status a rejected or staged word of the decode table is answered with, and no value. -/
theorem answersWith_offer {s : State} (w : Cmd) (d : Word) {st : Status} (hl : s.build.Legal)
    (hst : Spec.statusOf s w = st) (hne : st ≠ .ok) : ∃ t, step (offer w d s) = .next t ∧ t.rsp = some ⟨st, none⟩ := by
  obtain ⟨t, v, ht, hrsp, hv⟩ := answer_answersWith w (portWord s.build.fmt d) s
  rw [hst] at hrsp hv
  exact ⟨t, (step_offer w d hl).trans ht, hrsp.trans (by rw [hv hne])⟩

/-- Settles O5: the decoded words are a finite table; the statuses with `N = 3` are those of R103 (`answersWith_offer`), and the
one word that is performed is STAGE_NUM 2. -/
theorem tableWordsDecode : Obligations.TableWordsDecode := by
  unfold Obligations.TableWordsDecode
  intro d
  refine ⟨rfl, rfl, rfl, rfl, rfl, rfl, rfl, rfl, rfl, rfl, rfl, rfl, rfl, rfl, rfl, rfl, rfl, fun s hl hn row hrow => ?_⟩
  simp only [List.mem_cons, List.not_mem_nil, or_false] at hrow
  rcases hrow with rfl | rfl | rfl | rfl | rfl | rfl | rfl | rfl | rfl | rfl | rfl
  case inr.inr.inr.inr.inr.inr.inr.inl =>
    rw [step_offer _ _ hl]
    exact ⟨_, execStageNum_inRange _ (by rw [hn]; decide), rfl⟩
  all_goals exact answersWith_offer _ d hl (by simp [Spec.statusOf, hn]) (by decide)

/-- Settles O17: codes 6 and 7 are no status, and every status of the engine is read back from its code (`read_wire`). -/
theorem reservedStatusFaults : Obligations.ReservedStatusFaults := by
  unfold Obligations.ReservedStatusFaults
  exact ⟨fun v => rfl, fun v => rfl, read_wire⟩

end Sys2Proof.Machine
end


-- ==== Proofs: the invariant ====
section
/-! PROOFS. Every operation keeps the invariant of R19, R29 to R31 and R101, and power-on meets it (R35). -/

namespace Sys2Proof.Machine

/-! The invariant, one lemma for each operation that writes a field of it. -/

theorem engineInv_withRsp {s : State} (h : EngineInv s) {r : Response} (hr : r.status ≠ .ok → r.value = none)
    (hv : ∀ w ∈ r.value, s.build.fmt.Fits w) : EngineInv (s.withRsp (some r)) := by
  obtain ⟨hshape, hwords, -, hconf⟩ := h
  refine ⟨hshape, hwords, ?_, hconf⟩
  rintro _ ⟨⟩
  exact ⟨hr, hv⟩

theorem engineInv_reject {s : State} (h : EngineInv s) (st : Status) : EngineInv (reject st s) :=
  engineInv_withRsp h (fun _ => rfl) fun _ hw => nomatch hw

theorem engineInv_respond_none {s : State} (h : EngineInv s) : EngineInv (respond .ok none s) :=
  engineInv_withRsp h (fun hne => absurd rfl hne) fun _ hw => nomatch hw

theorem engineInv_respond_some {s : State} (h : EngineInv s) {v : Word} (hv : s.build.fmt.Fits v) :
    EngineInv (respond .ok (some v) s) :=
  engineInv_withRsp h (fun hne => absurd rfl hne) fun w hw => by
    cases hw
    exact hv

theorem engineInv_withHistories {s : State} (h : EngineInv s) {xs ys : List Word} (hx : xs.length = s.build.n)
    (hy : ys.length = s.build.n) (hxf : AllFit s.build.fmt xs) (hyf : AllFit s.build.fmt ys) :
    EngineInv (s.withHistories xs ys) := by
  obtain ⟨⟨hlegal, hnum, hden, -, -, hstg⟩, ⟨hnumf, hdenf, -, -, hstgf⟩, hrsp, hconf⟩ := h
  exact ⟨⟨hlegal, hnum, hden, hx, hy, hstg⟩, ⟨hnumf, hdenf, hxf, hyf, hstgf⟩, hrsp, hconf⟩

theorem engineInv_fillHistories {s : State} (h : EngineInv s) {v : Word} (hv : s.build.fmt.Fits v) :
    EngineInv (fillHistories v s) := by
  have hfit : AllFit s.build.fmt (List.replicate s.build.n v) := fun w hw => (List.eq_of_mem_replicate hw).symm ▸ hv
  exact engineInv_withHistories h List.length_replicate List.length_replicate hfit hfit

/-- A history that takes one more `W`-bit word keeps its length and has `W`-bit words. -/
theorem shiftIn_fits {f : Format} {n : Nat} {v : Word} {l : List Word} (hn : 1 ≤ n) (hl : l.length = n)
    (hv : f.Fits v) (hf : AllFit f l) : (shiftIn v l).length = n ∧ AllFit f (shiftIn v l) := by
  refine ⟨(shiftIn_length v ?_).trans hl, fun w hw => ?_⟩
  · rintro rfl
    rw [← hl] at hn
    exact nomatch hn
  · rcases mem_shiftIn hw with rfl | hw
    · exact hv
    · exact hf w hw

theorem engineInv_filterStep {s : State} (h : EngineInv s) {v y : Word} (hv : s.build.fmt.Fits v)
    (hy : s.build.fmt.Fits y) : EngineInv (s.withHistories (shiftIn v s.xh) (shiftIn y s.yh)).nextDraw := by
  obtain ⟨⟨hlegal, -, -, hx, hyl, -⟩, ⟨-, -, hxf, hyf, -⟩, -⟩ := id h
  obtain ⟨hxl, hxf⟩ := shiftIn_fits hlegal.1 hx hv hxf
  obtain ⟨hyl, hyf⟩ := shiftIn_fits hlegal.1 hyl hy hyf
  exact engineInv_withHistories h hxl hyl hxf hyf

/-- A commit of a complete bank: the coefficient set is as long and as wide as the bank. -/
theorem engineInv_commit {s : State} (h : EngineInv s) {b a : List Word} (hb : s.stgNum = b.map some)
    (ha : s.stgDen = a.map some) : EngineInv (s.withCoeffs b a).setConfigured := by
  obtain ⟨⟨hlegal, -, -, hx, hy, hsn, hsd⟩, ⟨-, -, hxf, hyf, hsnf, hsdf⟩, hrsp, -⟩ := h
  have hcomplete : StageComplete s := by simp [StageComplete, hb, ha]
  refine ⟨⟨hlegal, ?_, ?_, hx, hy, hsn, hsd⟩, ⟨fun w hw => ?_, fun w hw => ?_, hxf, hyf, hsnf, hsdf⟩, hrsp,
    fun _ => hcomplete⟩
  · rwa [hb, List.length_map] at hsn
  · rwa [ha, List.length_map] at hsd
  · exact hsnf (some w) (by rw [hb]; exact List.mem_map_of_mem hw) w rfl
  · exact hsdf (some w) (by rw [ha]; exact List.mem_map_of_mem hw) w rfl

/-- Writing one entry of a staging bank with a `W`-bit word. -/
theorem stagedFit_set {f : Format} {l : List (Option Word)} {v : Word} (hl : StagedFit f l) (k : Nat) (hv : f.Fits v) :
    StagedFit f (l.set k (some v)) := by
  intro o ho
  rcases List.mem_or_eq_of_mem_set ho with ho | rfl
  · exact hl o ho
  · rintro _ ⟨⟩
    exact hv

theorem none_notMem_set {l : List (Option Word)} (h : none ∉ l) (k : Nat) (v : Word) : none ∉ l.set k (some v) := by
  intro hm
  rcases List.mem_or_eq_of_mem_set hm with hm | hm
  · exact h hm
  · exact nomatch hm

theorem engineInv_stageNumAt {s : State} (h : EngineInv s) (k : Nat) {v : Word} (hv : s.build.fmt.Fits v) :
    EngineInv (s.stageNumAt k v) := by
  obtain ⟨⟨hlegal, hnum, hden, hx, hy, hsn, hsd⟩, ⟨hnumf, hdenf, hxf, hyf, hsnf, hsdf⟩, hrsp, hconf⟩ := h
  exact ⟨⟨hlegal, hnum, hden, hx, hy, (List.length_set ..).trans hsn, hsd⟩,
    ⟨hnumf, hdenf, hxf, hyf, stagedFit_set hsnf k hv, hsdf⟩, hrsp,
    fun hc => ⟨none_notMem_set (hconf hc).1 k v, (hconf hc).2⟩⟩

theorem engineInv_stageDenAt {s : State} (h : EngineInv s) (k : Nat) {v : Word} (hv : s.build.fmt.Fits v) :
    EngineInv (s.stageDenAt k v) := by
  obtain ⟨⟨hlegal, hnum, hden, hx, hy, hsn, hsd⟩, ⟨hnumf, hdenf, hxf, hyf, hsnf, hsdf⟩, hrsp, hconf⟩ := h
  exact ⟨⟨hlegal, hnum, hden, hx, hy, hsn, (List.length_set ..).trans hsd⟩,
    ⟨hnumf, hdenf, hxf, hyf, hsnf, stagedFit_set hsdf k hv⟩, hrsp,
    fun hc => ⟨(hconf hc).1, none_notMem_set (hconf hc).2 k v⟩⟩

theorem engineInv_powerOn {b : Build} (hl : b.Legal) (source : Nat) : EngineInv (State.powerOn b source) := by
  have hzero : AllFit b.fmt (List.replicate b.n posZero) := fun w hw => (List.eq_of_mem_replicate hw).symm ▸ b.fmt.fits_posZero
  have hnone : StagedFit b.fmt (List.replicate b.n none) := fun o ho => by
    rw [List.eq_of_mem_replicate ho]
    exact fun _ hw => nomatch hw
  refine ⟨⟨hl, ?_, ?_, ?_, ?_, ?_, ?_⟩, ⟨hzero, hzero, hzero, hzero, hnone, hnone⟩, fun _ hr => (nomatch hr),
    fun hc => (nomatch hc)⟩ <;>
  exact List.length_replicate

/-- The output a state answers fits the format. -/
theorem fits_lastOutput {s : State} (h : EngineInv s) : s.build.fmt.Fits (lastOutput s) := by
  obtain ⟨-, ⟨-, -, -, hyf, -⟩, -⟩ := h
  unfold lastOutput
  cases hy : s.yh with
  | nil => exact s.build.fmt.fits_posZero
  | cons y ys => exact hyf y (by rw [hy]; exact List.mem_cons_self)

/-- Every command with a `W`-bit data word keeps the invariant. -/
theorem engineInv_exec {i : Instr} {s t : State} (h : EngineInv s) (hwf : i.WellFormed s.build.fmt = true)
    (he : exec i s = .next t) : EngineInv t := by
  rcases exec_inversion he with ⟨st, -, rfl⟩ | ⟨b, a, -, hb, ha, rfl⟩ | ⟨v, rfl, -, rfl⟩ | ⟨-, rfl⟩ | ⟨v, rfl, rfl⟩ |
    ⟨b, a, -, hb, ha, rfl⟩ | ⟨-, rfl⟩ | ⟨k, v, rfl, -, rfl⟩ | ⟨k, v, rfl, -, rfl⟩
  · exact engineInv_reject h st
  · exact engineInv_respond_none (engineInv_fillHistories (engineInv_commit h hb ha) s.build.fmt.fits_posZero)
  · obtain ⟨hy, -⟩ := filterResult_good v s
    exact engineInv_respond_some (engineInv_filterStep h (of_decide_eq_true hwf) hy) hy
  · exact engineInv_respond_some (engineInv_fillHistories h s.build.fmt.fits_posZero) s.build.fmt.fits_posZero
  · exact engineInv_respond_some (engineInv_fillHistories h (of_decide_eq_true hwf)) (of_decide_eq_true hwf)
  · exact engineInv_respond_none (engineInv_commit h hb ha)
  · exact engineInv_respond_some h (fits_lastOutput h)
  · rw [Instr.WellFormed, Bool.and_eq_true] at hwf
    exact engineInv_respond_none (engineInv_stageNumAt h k (of_decide_eq_true hwf.2))
  · rw [Instr.WellFormed, Bool.and_eq_true] at hwf
    exact engineInv_respond_none (engineInv_stageDenAt h k (of_decide_eq_true hwf.2))

/-- Settles O11: the port delivers a `W`-bit data word, so the decoded instruction is well formed (`encodeOfDecode`) and keeps
the invariant (`engineInv_exec`); hardware reset leaves the power-on state. -/
theorem stepKeepsTheInvariant : Obligations.StepKeepsTheInvariant := by
  unfold Obligations.StepKeepsTheInvariant
  intro s t h hs
  obtain ⟨hl, ⟨-, rfl⟩ | ⟨w, d, rest, -, ha⟩ | ⟨c, rest, -, rfl⟩⟩ := step_inversion hs
  · exact h
  · have hrest : EngineInv (s.withInputs rest) := h
    cases hd : decode w (portWord s.build.fmt d) with
    | ok i =>
      obtain ⟨-, -, hwf⟩ := encodeOfDecode _ _ _ hd
      exact engineInv_exec hrest (hwf s.build.fmt (fits_portWord _ d)) ((answer_of_decode hd _).symm.trans ha)
    | error r =>
      obtain rfl := next_unique ha (answer_of_decode_error hd _)
      exact engineInv_reject hrest _
  · exact engineInv_powerOn hl s.source

theorem mem_powerOnSections {bs : List Build} {first : Nat} {s : State} (h : s ∈ powerOnSections first bs) :
    ∃ b ∈ bs, ∃ source, first ≤ source ∧ s = State.powerOn b source := by
  induction bs generalizing first with
  | nil => exact nomatch h
  | cons b bs ih =>
    rcases List.mem_cons.1 h with rfl | h
    · exact ⟨b, List.mem_cons_self, first, le_rfl, rfl⟩
    · obtain ⟨b', hb', source, hle, rfl⟩ := ih h
      exact ⟨b', List.mem_cons_of_mem _ hb', source, by omega, rfl⟩

theorem nodup_source_powerOnSections (first : Nat) (bs : List Build) :
    ((powerOnSections first bs).map (·.source)).Nodup := by
  induction bs generalizing first with
  | nil => exact List.nodup_nil
  | cons b bs ih =>
    refine List.nodup_cons.2 ⟨fun hm => ?_, ih (first + 1)⟩
    obtain ⟨s, hs, hsource⟩ := List.mem_map.1 hm
    obtain ⟨b', -, source, hle, rfl⟩ := mem_powerOnSections hs
    simp only [State.powerOn_source] at hsource
    omega

/-- Settles O12: power-on meets the invariant (`engineInv_powerOn`), and the sections take their streams in turn. -/
theorem powerOnMeetsTheInvariant : Obligations.PowerOnMeetsTheInvariant := by
  unfold Obligations.PowerOnMeetsTheInvariant
  refine ⟨fun b source hl => engineInv_powerOn hl source, engineInv_powerOn (by decide) 0, fun f first bs hne hbs => ?_⟩
  refine ⟨⟨?_, fun s hs => ?_, nodup_source_powerOnSections first bs⟩, fun s hs => ?_⟩
  · cases bs with
    | nil => exact absurd rfl hne
    | cons b bs => exact List.cons_ne_nil _ _
  · obtain ⟨b, hb, source, -, rfl⟩ := mem_powerOnSections hs
    exact (hbs b hb).2
  · obtain ⟨b, hb, source, -, rfl⟩ := mem_powerOnSections hs
    exact engineInv_powerOn (hbs b hb).1 source

end Sys2Proof.Machine
end


-- ==== Proofs: what the commands read and write ====
section
/-! PROOFS. The frame of every command (R19), and what no command can see: a staged value before a commit (R29), a coefficient
before the first commit (R30), the oldest output (R28); repetition (R38) and order of staging (R58). -/

namespace Sys2Proof.Machine

/-! What each command may write, and what it does not read. -/

/-- Settles O26: each way a command can end writes the fields it names. -/
theorem frameOfEveryCommand : Obligations.FrameOfEveryCommand := by
  unfold Obligations.FrameOfEveryCommand
  intro i s t h
  rcases exec_inversion h with ⟨st, -, rfl⟩ | ⟨b, a, rfl, -, -, rfl⟩ | ⟨v, rfl, -, rfl⟩ | ⟨rfl, rfl⟩ | ⟨v, rfl, rfl⟩ |
    ⟨b, a, rfl, -, -, rfl⟩ | ⟨rfl, rfl⟩ | ⟨k, v, rfl, -, rfl⟩ | ⟨k, v, rfl, -, rfl⟩ <;>
  simp +contextual [List.getElem?_set_ne, Ne.symm]

/-- Settles O27: three of the four commands name no staging entry, and FILTER reads none (`execFilter_of_staging`). -/
theorem stagingIsInvisibleUntilCommit : Obligations.StagingIsInvisibleUntilCommit := by
  unfold Obligations.StagingIsInvisibleUntilCommit
  intro s t i p q hi h
  rcases hi with rfl | rfl | ⟨v, rfl⟩ | ⟨v, rfl⟩
  case inr.inr.inl => exact execFilter_of_staging h p q s.rsp
  all_goals
    obtain rfl := next_unique h rfl
    rfl

/-- Before the first commit a command ends the same whatever the coefficients are: they are still there, or a commit has
replaced them. -/
theorem outcome_withCoeffs {s : State} (hc : s.configured = false) (i : Instr) (b a : List Word) :
    outcome i (s.withCoeffs b a) = outcome i s ∨
      (outcome i s).configured = false ∧ outcome i (s.withCoeffs b a) = (outcome i s).withCoeffs b a := by
  have hstatus : execStatus i (s.withCoeffs b a) = execStatus i s := by cases i <;> rfl
  rw [outcome_of_status hstatus, outcome]
  split
  next hok =>
    cases i with
    | construct | setCoeffs => exact .inl rfl
    | filter v => simp [execStatus, hc] at hok
    | reset | fill | getLast | stageNum | stageDen => exact .inr ⟨hc, rfl⟩
  next => exact .inr ⟨hc, rfl⟩

/-- Settles O28 (`outcome_withCoeffs`). -/
theorem coefficientsUnobservableBeforeCommit : Obligations.CoefficientsUnobservableBeforeCommit := by
  unfold Obligations.CoefficientsUnobservableBeforeCommit
  intro s t i b a hc h
  obtain rfl := outcome_of_exec h
  refine ⟨_, exec_eq i (s.withCoeffs b a), ?_⟩
  rcases outcome_withCoeffs hc i b a with h | ⟨hc', h⟩ <;> rw [h]
  · exact ⟨rfl, fun _ => rfl⟩
  · exact ⟨rfl, fun hc'' => nomatch hc'.symm.trans hc''⟩

/-- Settles O15: what hardware reset leaves is its definition; that the coefficients it leaves are unobservable is O28, since it
clears `configured`. -/
theorem hardwareResetState : Obligations.HardwareResetState := by
  unfold Obligations.HardwareResetState
  intro s c rest hl hin
  refine ⟨_, step_of_hardwareReset hl hin, rfl, rfl, rfl, rfl, rfl, rfl, rfl, rfl, rfl, fun c' => ?_, fun v => ?_,
    fun b a i u hu => ?_⟩
  · exact step_of_hardwareReset (s := s.withInputs (.hardwareReset c' :: rest)) hl rfl
  · exact execFilter_notConfigured v rfl
  · obtain ⟨u', hu', heq, -⟩ := coefficientsUnobservableBeforeCommit _ u i b a rfl hu
    exact ⟨u', hu', heq⟩

/-! The oldest output (R28). -/

/-- Pairing with a list reads no more of the second list than the first has entries. -/
theorem zip_take_length {α β : Type} (l : List α) (r : List β) : l.zip (r.take l.length) = l.zip r := by
  induction l generalizing r with
  | nil => rfl
  | cons x xs ih =>
    cases r with
    | nil => rfl
    | cons y ys => simp [ih]

/-- FILTER reads `yh[0..N-2]` only (R82). -/
theorem filterOutput_take_feedback {V : Type} (A : Arith V) (fused : Bool) (g : FbGrouping) (num den xs yh : List V) :
    filterOutput A fused g num den xs (yh.take (den.length - 1)) = filterOutput A fused g num den xs yh := by
  unfold filterOutput filterAcc subtractFeedback macDiff macSum
  rw [← List.length_tail, zip_take_length]

/-- The state with another oldest output. -/
def withOldest (s : State) (y : Word) : State := s.withHistories s.xh (s.yh.set (s.build.n - 1) y)

theorem take_set_oldest (l : List Word) (k : Nat) (y : Word) : (l.set k y).take k = l.take k :=
  List.take_set_of_le le_rfl

/-- FILTER does not read the oldest output, and shifts it out. -/
theorem perform_filter_withOldest {s : State} (hden : s.den.length = s.build.n) (hyh : s.yh.length = s.build.n)
    (v y : Word) : perform (.filter v) (withOldest s y) = perform (.filter v) s := by
  have hresult : filterResult v (withOldest s y) = filterResult v s := by
    have hread (x : State) (ys : List Word) : filterOutput (arithOf x) s.build.macFused s.build.fbGrouping s.num s.den
        (shiftIn v s.xh) ys = filterOutput (arithOf x) s.build.macFused s.build.fbGrouping s.num s.den
        (shiftIn v s.xh) (ys.take (s.build.n - 1)) := by rw [← hden, filterOutput_take_feedback]
    exact (hread s _).trans ((congrArg _ (take_set_oldest _ _ _)).trans (hread s _).symm)
  have hshift (z : Word) : shiftIn z (withOldest s y).yh = shiftIn z s.yh := by
    rw [withOldest, State.withHistories_yh, shiftIn, shiftIn, List.length_set, hyh, take_set_oldest]
  simp only [perform, hresult, hshift]
  rfl

/-- With two coefficients or more the oldest output is not the one GET_LAST reads. -/
theorem lastOutput_withOldest {s : State} (hn : 2 ≤ s.build.n) (y : Word) :
    lastOutput (withOldest s y) = lastOutput s := by
  have hpos : s.build.n - 1 ≠ 0 := by omega
  simp only [lastOutput, withOldest, State.withHistories_yh, List.headD_eq_head?_getD, List.head?_eq_getElem?]
  rw [List.getElem?_set_ne hpos]

/-- A command gives the same state whatever the oldest output was, which is still there where the outputs were not written; a
FILTER that is performed shifts it out. -/
theorem outcome_withOldest {s : State} (hs : ShapeOk s) (hn : 2 ≤ s.build.n) (i : Instr) (y : Word) :
    outcome i (withOldest s y) = outcome i s ∨
      (outcome i s).yh = s.yh ∧ outcome i (withOldest s y) = withOldest (outcome i s) y ∧
        ∀ v, i = .filter v → s.configured = false := by
  obtain ⟨-, -, hden, -, hyh, -⟩ := hs
  have hstatus : execStatus i (withOldest s y) = execStatus i s := by cases i <;> rfl
  rw [outcome_of_status hstatus, outcome]
  split
  next =>
    cases i with
    | filter v => exact .inl (perform_filter_withOldest hden hyh v y)
    | construct | reset | fill => exact .inl rfl
    | getLast =>
      refine .inr ⟨rfl, ?_, nofun⟩
      rw [perform, lastOutput_withOldest hn]
      rfl
    | setCoeffs | stageNum | stageDen => exact .inr ⟨rfl, rfl, nofun⟩
  next hne =>
    refine .inr ⟨rfl, rfl, ?_⟩
    rintro v rfl
    by_contra hc
    simp [execStatus, hc] at hne

/-- Settles O29 (`outcome_withOldest`). -/
theorem oldestOutputIsNeverRead : Obligations.OldestOutputIsNeverRead := by
  unfold Obligations.OldestOutputIsNeverRead
  intro s t i y hs hn h
  obtain rfl := outcome_of_exec h
  refine ⟨_, exec_eq i (withOldest s y), ?_⟩
  rcases outcome_withOldest hs hn i y with h | ⟨hyh, h, hfilter⟩ <;> rw [h]
  · exact ⟨rfl, fun _ _ => rfl, fun _ _ _ => rfl⟩
  · refine ⟨rfl, fun k hk => ?_, fun v hi hc => nomatch hc.symm.trans (hfilter v hi)⟩
    obtain ⟨hbuild, -⟩ := exec_keeps_build_source_inputs (exec_eq i s)
    rw [withOldest, State.withHistories_yh, hbuild, List.getElem?_set_ne (by omega)]

/-- A command but FILTER that is performed does the same when it is performed again. -/
theorem perform_idempotent {i : Instr} (hi : ∀ v, i ≠ .filter v) (s : State) : perform i (perform i s) = perform i s := by
  cases i with
  | filter v => exact absurd rfl (hi v)
  | construct | reset | fill | setCoeffs | getLast => rfl
  | stageNum | stageDen => simp [perform, respond, State.withRsp, State.stageNumAt, State.stageDenAt]

/-- The status of a command but FILTER reads nothing the command writes. -/
theorem execStatus_perform {i : Instr} (hi : ∀ v, i ≠ .filter v) (s : State) :
    execStatus i (perform i s) = execStatus i s := by
  cases i with
  | filter v => exact absurd rfl (hi v)
  | construct | reset | fill | setCoeffs | getLast | stageNum | stageDen => rfl

theorem execStatus_reject (i : Instr) (st : Status) (s : State) : execStatus i (reject st s) = execStatus i s := by
  cases i <;> rfl

/-- Settles O30: performed or rejected, the second time is as the first (`perform_idempotent`). -/
theorem allButFilterAreIdempotent : Obligations.AllButFilterAreIdempotent := by
  unfold Obligations.AllButFilterAreIdempotent
  intro i s t hi h
  obtain rfl := outcome_of_exec h
  rw [exec_eq]
  by_cases hok : execStatus i s = .ok
  · rw [show outcome i s = perform i s from if_pos hok, outcome_of_status (execStatus_perform hi s), if_pos hok,
      perform_idempotent hi]
  · rw [show outcome i s = reject (execStatus i s) s from if_neg hok, outcome_of_status (execStatus_reject i _ s),
      if_neg hok]
    rfl

/-! Staging commands for distinct entries (R58). -/

/-- Write one entry of the numerator bank or of the denominator bank. -/
def stageAt (bank : Bool) (k : Nat) (v : Word) (s : State) : State := if bank then s.stageNumAt k v else s.stageDenAt k v

/-- A STAGE command in range writes its entry, answers OK, and does nothing else. -/
theorem exec_of_stageTarget {i : Instr} {bank : Bool} {k : Nat} (h : Spec.stageTarget i = some (bank, k)) :
    ∃ v, ∀ s : State, k < s.build.n → exec i s = .next (respond .ok none (stageAt bank k v s)) := by
  cases i with
  | stageNum j v =>
    cases h
    exact ⟨v, fun s hk => execStageNum_inRange v hk⟩
  | stageDen j v =>
    cases h
    exact ⟨v, fun s hk => execStageDen_inRange v hk⟩
  | construct | filter | reset | fill | setCoeffs | getLast => exact nomatch h

theorem stageAt_build (bank : Bool) (k : Nat) (v : Word) (s : State) : (stageAt bank k v s).build = s.build := by
  cases bank <;> rfl

/-- Writes of two entries that are not the same entry commute. -/
theorem stageAt_comm {bank bank' : Bool} {k k' : Nat} (h : (bank, k) ≠ (bank', k')) (v v' : Word) (s : State) :
    respond .ok none (stageAt bank k v (respond .ok none (stageAt bank' k' v' s))) =
      respond .ok none (stageAt bank' k' v' (respond .ok none (stageAt bank k v s))) := by
  cases bank <;> cases bank'
  case false.true | true.false => rfl
  all_goals
    have hk : k ≠ k' := fun hk => h (by rw [hk])
    simp [stageAt, respond, State.withRsp, State.stageNumAt, State.stageDenAt, List.set_comm _ _ hk]

/-- Two STAGE commands for distinct entries in range may be exchanged. -/
theorem runInstrs_stage_swap {i j : Instr} {bi bj : Bool × Nat} (hi : Spec.stageTarget i = some bi)
    (hj : Spec.stageTarget j = some bj) (hne : bi ≠ bj) (is : List Instr) {s : State} (hki : bi.2 < s.build.n)
    (hkj : bj.2 < s.build.n) : runInstrs (i :: j :: is) s = runInstrs (j :: i :: is) s := by
  obtain ⟨v, hv⟩ := exec_of_stageTarget hi
  obtain ⟨w, hw⟩ := exec_of_stageTarget hj
  have hbuild (b k x) : (respond .ok none (stageAt b k x s)).build.n = s.build.n := by rw [respond_build, stageAt_build]
  rw [runInstrs_cons (hv s hki), runInstrs_cons (hw s hkj), runInstrs_cons (hw _ (by rwa [hbuild])),
    runInstrs_cons (hv _ (by rwa [hbuild])), stageAt_comm hne.symm]

/-- Settles O31, by induction on how the one order comes from the other: an exchange of neighbours is
`runInstrs_stage_swap`. -/
theorem stagingOrderDoesNotMatter : Obligations.StagingOrderDoesNotMatter := by
  unfold Obligations.StagingOrderDoesNotMatter
  intro s is js hperm
  induction hperm generalizing s with
  | nil => exact fun _ _ => rfl
  | cons i _ ih =>
    intro hnodup hrange
    obtain ⟨u, hu⟩ := exec_next i s
    obtain ⟨hbuild, -⟩ := exec_keeps_build_source_inputs hu
    rw [runInstrs_cons hu, runInstrs_cons hu]
    rw [← hbuild] at hrange
    exact ih u (List.nodup_cons.1 hnodup).2 fun j hj => hrange j (List.mem_cons_of_mem _ hj)
  | swap i j l =>
    intro hnodup hrange
    obtain ⟨bj, kj, hj, hkj⟩ := hrange j (by simp)
    obtain ⟨bi, ki, hi, hki⟩ := hrange i (by simp)
    refine runInstrs_stage_swap hj hi ?_ l hkj hki
    simp only [List.map_cons, List.nodup_cons, List.mem_cons, not_or] at hnodup
    intro heq
    exact hnodup.1.1 (by rw [hj, hi, heq])
  | trans hab _ ih₁ ih₂ =>
    intro hnodup hrange
    exact (ih₁ s hnodup hrange).trans (ih₂ s ((hab.map _).nodup hnodup) fun i hi => hrange i (hab.mem_iff.2 hi))

/-- Settles O32: LOADCOEF and SWAPCOEF by their runs (`runInstrs_loadCoef`, `runInstrs_swapCoef`), INITFILL by one FILL more. -/
theorem loadSequencesLoadTheSet : Obligations.LoadSequencesLoadTheSet := by
  unfold Obligations.LoadSequencesLoadTheSet
  intro s b a hs hb ha
  obtain ⟨-, -, -, -, -, hsn, hsd⟩ := hs
  refine ⟨runInstrs_loadCoef hb ha hsn hsd, runInstrs_swapCoef hb ha hsn hsd, fun v => ?_⟩
  rw [initFill, runInstrs_append (runInstrs_loadCoef hb ha hsn hsd), runInstrs_singleton]
  rfl

end Sys2Proof.Machine
end


-- ==== Proofs: infinities and invalid operations ====
section
/-! PROOFS. The special values of the IEEE operations (R15): valid operations on infinities, and the invalid ones, which give the
draw (R10). -/

namespace Sys2Proof

/-! What the kinds of operands unpack to (R15, R31). -/

theorem Format.unpack_of_isInf {f : Format} {w : Word} (h : Spec.IsInf f w) : f.unpack w = .inf (f.signOf w) := by
  obtain ⟨hinf, hnan⟩ := h
  rcases Format.nonFinite_cases hinf with hw | hw
  · rw [(f.unpack_eq_nan_iff w).1 hw] at hnan
    exact nomatch hnan
  · exact hw

theorem Format.isZero_eq_false_iff (f : Format) (w : Word) : f.isZero w = false ↔ f.magOf w ≠ 0 := by
  simp [Format.isZero]

/-- A number that is not zero times an infinity, in either order, is the infinity of the product's sign. -/
theorem mulVal_of_inf {f : Format} {b : Word} (a : Bool) (hnan : f.isNaN b = false) (hzero : f.isZero b = false) :
    mulVal (.inf a) (f.unpack b) = .inf (a ^^ f.signOf b) ∧ mulVal (f.unpack b) (.inf a) = .inf (a ^^ f.signOf b) := by
  cases hb : f.isNonFinite b with
  | true =>
    rw [Format.unpack_of_isInf ⟨hb, hnan⟩]
    simp [mulVal, Bool.xor_comm]
  | false =>
    obtain ⟨m, e, hu, hm, -⟩ := Format.unpack_finite_cases hb
    have hm0 : m ≠ 0 := fun h0 => (f.isZero_eq_false_iff b).1 hzero (hm.1 h0)
    rw [hu]
    simp [mulVal, hm0, Bool.xor_comm]

/-- An infinity plus a number that does not cancel it. -/
theorem Format.addVal_inf_left {f : Format} {draw c : Word} {a : Bool}
    (h : f.isNonFinite c = false ∨ (Spec.IsInf f c ∧ f.signOf c = a)) :
    f.addVal draw (.inf a) (f.unpack c) = f.pack a f.infMag ∧ f.addVal draw (f.unpack c) (.inf a) = f.pack a f.infMag := by
  rcases h with hc | ⟨hc, hs⟩
  · obtain ⟨m, e, hu, -⟩ := Format.unpack_finite_cases hc
    rw [hu]
    exact ⟨rfl, rfl⟩
  · rw [Format.unpack_of_isInf hc, hs]
    simp [Format.addVal]

/-- The product of two finite numbers is finite. -/
theorem mulVal_of_finite {f : Format} {a b : Word} (ha : f.isNonFinite a = false) (hb : f.isNonFinite b = false) :
    ∃ m e, mulVal (f.unpack a) (f.unpack b) = .fin (f.signOf a ^^ f.signOf b) m e := by
  obtain ⟨m, e, hua, -⟩ := Format.unpack_finite_cases ha
  obtain ⟨m', e', hub, -⟩ := Format.unpack_finite_cases hb
  rw [hua, hub]
  exact ⟨m * m', e + e', by simp [mulVal]⟩

/-- A finite number over an infinity is a zero, and an infinity over a finite number an infinity. -/
theorem Format.fdiv_of_inf {f : Format} {a b : Word} (draw : Word) (ha : Spec.IsInf f a) (hb : f.isNonFinite b = false) :
    f.fdiv draw a b = f.pack (f.signOf a ^^ f.signOf b) f.infMag ∧ f.fdiv draw b a = f.pack (f.signOf a ^^ f.signOf b) 0 := by
  obtain ⟨m, e, hu, -⟩ := Format.unpack_finite_cases hb
  unfold Format.fdiv
  rw [Format.unpack_of_isInf ha, hu]
  simp [Format.divVal, Bool.xor_comm]

/-- A finite number that is not zero over a zero is an infinity (R87). -/
theorem Format.fdiv_of_zero_divisor {f : Format} {a b : Word} (draw : Word) (hfin : f.isNonFinite a = false)
    (hzero : f.isZero a = false) (hb : f.isZero b = true) :
    f.fdiv draw a b = f.pack (f.signOf a ^^ f.signOf b) f.infMag := by
  obtain ⟨m, e, hu, hm, -⟩ := Format.unpack_finite_cases hfin
  have hm0 : m ≠ 0 := fun h0 => (f.isZero_eq_false_iff a).1 hzero (hm.1 h0)
  unfold Format.fdiv
  rw [hu, Format.unpack_of_zero hb]
  simp [Format.divVal, hm0]

/-- Subtracting is adding the negated word. -/
theorem Format.fsub_eq_fadd_fneg (f : Format) (draw a b : Word) : f.fsub draw a b = f.fadd draw a (f.fneg b) := by
  rw [Format.fsub, Format.fadd, Format.unpack_fneg]

theorem Format.isNonFinite_fneg (f : Format) (a : Word) : f.isNonFinite (f.fneg a) = f.isNonFinite a := by
  simp [Format.isNonFinite]

theorem Format.isNaN_fneg (f : Format) (a : Word) : f.isNaN (f.fneg a) = f.isNaN a := by
  simp [Format.isNaN]

theorem isInf_fneg {f : Format} {a : Word} (h : Spec.IsInf f a) : Spec.IsInf f (f.fneg a) := by
  obtain ⟨hinf, hnan⟩ := h
  exact ⟨(f.isNonFinite_fneg a).trans hinf, (f.isNaN_fneg a).trans hnan⟩

theorem Format.fneg_of_isInf {f : Format} {a : Word} (h : Spec.IsInf f a) : f.fneg a = f.pack (!f.signOf a) f.infMag := by
  obtain ⟨hinf, hnan⟩ := h
  simp only [Format.isNonFinite, Format.isNaN, decide_eq_true_eq, decide_eq_false_iff_not] at hinf hnan
  rw [Format.fneg, show f.magOf a = f.infMag by omega]

/-- Settles O39: a sum by `addVal_inf_left`, a difference as the sum with the negated word, a product by `mulVal_of_inf`, and
the quotients one by one. -/
theorem arithmeticOnInfinities : Obligations.ArithmeticOnInfinities := by
  unfold Obligations.ArithmeticOnInfinities
  intro f draw a b c sa sb sc numB
  refine ⟨fun ha hb => ?_, fun ha hb => ?_, fun ha hnan hzero => ?_, fun ha hb hc => ?_, fun ha hb => ?_,
    fun hfin hzero hb => Format.fdiv_of_zero_divisor draw hfin hzero hb, fun ha => Format.fneg_of_isInf ha⟩
  · unfold Format.fadd
    rw [Format.unpack_of_isInf ha]
    exact Format.addVal_inf_left (hb.imp_right fun hb => ⟨hb.1, hb.2.symm⟩)
  · have hna := isInf_fneg ha
    have hnb : f.isNonFinite (f.fneg b) = false ∨ (Spec.IsInf f (f.fneg b) ∧ f.signOf (f.fneg b) = f.signOf a) :=
      hb.imp (f.isNonFinite_fneg b).trans fun hb => ⟨isInf_fneg hb.1, by
        rw [f.signOf_fneg]
        exact (Bool.eq_not_of_ne hb.2).symm⟩
    have hb' : f.isNonFinite b = false ∨ (Spec.IsInf f b ∧ f.signOf b = !f.signOf a) :=
      hb.imp_right fun hb => ⟨hb.1, Bool.eq_not_of_ne hb.2.symm⟩
    rw [f.fsub_eq_fadd_fneg, f.fsub_eq_fadd_fneg]
    unfold Format.fadd
    rw [Format.unpack_of_isInf ha, Format.unpack_of_isInf hna, f.signOf_fneg]
    exact ⟨(Format.addVal_inf_left hnb).1, (Format.addVal_inf_left hb').2⟩
  · obtain ⟨hab, hba⟩ := mulVal_of_inf (f.signOf a) hnan hzero
    unfold Format.fmul Format.fma
    rw [Format.unpack_of_isInf ha, hab, hba]
    exact ⟨rfl, rfl, fun hc => ⟨(Format.addVal_inf_left hc).1, (Format.addVal_inf_left hc).1⟩⟩
  · obtain ⟨m, e, hab⟩ := mulVal_of_finite ha hb
    unfold Format.fma
    rw [hab, Format.unpack_of_isInf hc]
    rfl
  · exact Format.fdiv_of_inf draw ha hb

/-! Invalid operations. -/

theorem mulVal_nan_left (y : FVal) : mulVal .nan y = .nan := by cases y <;> rfl

theorem mulVal_nan_right (x : FVal) : mulVal x .nan = .nan := by cases x <;> rfl

theorem Format.divVal_nan_left (f : Format) (d : Word) (y : FVal) : f.divVal d .nan y = d := by cases y <;> rfl

theorem Format.divVal_nan_right (f : Format) (d : Word) (x : FVal) : f.divVal d x .nan = d := by cases x <;> rfl

/-- An infinity times a zero, in either order, is no number. -/
theorem mulVal_inf_zero {f : Format} {b : Word} (a : Bool) (hb : f.isZero b = true) :
    mulVal (.inf a) (f.unpack b) = .nan ∧ mulVal (f.unpack b) (.inf a) = .nan := by
  rw [Format.unpack_of_zero hb]
  exact ⟨rfl, rfl⟩

/-- An infinite factor and an infinite addend of the sign the product does not have: the draw, whatever the other factor is. -/
theorem Format.addVal_mulVal_cancel {f : Format} {b : Word} (draw : Word) {sa sc : Bool} (h : (sa ^^ f.signOf b) ≠ sc) :
    f.addVal draw (mulVal (.inf sa) (f.unpack b)) (.inf sc) = draw ∧
      f.addVal draw (mulVal (f.unpack b) (.inf sa)) (.inf sc) = draw := by
  cases hz : f.isZero b with
  | true =>
    obtain ⟨hab, hba⟩ := mulVal_inf_zero sa hz
    rw [hab, hba]
    exact ⟨rfl, rfl⟩
  | false =>
    cases hnan : f.isNaN b with
    | true =>
      rw [Format.unpack_of_nan hnan]
      exact ⟨rfl, rfl⟩
    | false =>
      obtain ⟨hab, hba⟩ := mulVal_of_inf sa hnan hz
      rw [hab, hba]
      simp [Format.addVal, h]

theorem Format.fdiv_zero_zero {f : Format} {a b : Word} (draw : Word) (ha : f.isZero a = true) (hb : f.isZero b = true) :
    f.fdiv draw a b = draw := by
  unfold Format.fdiv
  rw [Format.unpack_of_zero ha, Format.unpack_of_zero hb]
  rfl

theorem Format.fdiv_of_nan {f : Format} {a b : Word} (draw : Word) (h : f.isNaN a = true ∨ f.isNaN b = true) :
    f.fdiv draw a b = draw := by
  unfold Format.fdiv
  rcases h with h | h <;> rw [Format.unpack_of_nan h]
  · exact f.divVal_nan_left draw _
  · exact f.divVal_nan_right draw _

/-- Settles O40: a NaN operand passes through every operation; the other invalid operations are cases of the sum, the product
and the quotient of two values. -/
theorem invalidOperationsGiveTheDraw : Obligations.InvalidOperationsGiveTheDraw := by
  unfold Obligations.InvalidOperationsGiveTheDraw
  intro f draw a b c
  refine ⟨fun h => ⟨?_, ?_, ?_, Format.fdiv_of_nan draw h, ?_⟩, fun hc => ?_, fun ha hb => ⟨fun hs => ?_, fun hs => ?_, ?_⟩,
    fun ha hb => ?_, fun ha hc hs => ?_, fun ha hb => Format.fdiv_zero_zero draw ha hb⟩
  · unfold Format.fadd
    rcases h with h | h <;> rw [Format.unpack_of_nan h]
    · exact Machine.addVal_nan_left f draw _
    · exact Machine.addVal_nan_right f draw _
  · unfold Format.fsub
    rcases h with h | h <;> rw [Format.unpack_of_nan h]
    · exact Machine.addVal_nan_left f draw _
    · exact Machine.addVal_nan_right f draw _
  · unfold Format.fmul
    rcases h with h | h <;> rw [Format.unpack_of_nan h]
    · rw [mulVal_nan_left]
      rfl
    · rw [mulVal_nan_right]
      rfl
  · unfold Format.fma
    rcases h with h | h <;> rw [Format.unpack_of_nan h]
    · rw [mulVal_nan_left, Machine.addVal_nan_left]
    · rw [mulVal_nan_right, Machine.addVal_nan_left]
  · unfold Format.fma
    rw [Format.unpack_of_nan hc, Machine.addVal_nan_right]
  · unfold Format.fadd
    rw [Format.unpack_of_isInf ha, Format.unpack_of_isInf hb]
    exact if_neg hs
  · unfold Format.fsub
    rw [Format.unpack_of_isInf ha, Format.unpack_of_isInf hb]
    exact if_neg (by simp [hs])
  · unfold Format.fdiv
    rw [Format.unpack_of_isInf ha, Format.unpack_of_isInf hb]
    rfl
  · obtain ⟨hab, hba⟩ := mulVal_inf_zero (f.signOf a) hb
    unfold Format.fmul Format.fma
    rw [Format.unpack_of_isInf ha, hab, hba]
    exact ⟨rfl, rfl, Machine.addVal_nan_left f draw _, Machine.addVal_nan_left f draw _⟩
  · unfold Format.fma
    rw [Format.unpack_of_isInf ha, Format.unpack_of_isInf hc]
    exact Format.addVal_mulVal_cancel draw hs

end Sys2Proof
end


-- ==== Proofs: rounding one rational ====
section
/-! PROOFS. Rounding to nearest even (R15) in units of the last place: the rounded magnitude, where overflow begins, and nearness to
every number of the format. -/

namespace Sys2Proof

/-! Rounding one positive rational, in units of the last place: `x` is rounded to `M` units of `2 ^ (lsbExp + E)`. -/

/-- `x` in units of `2 ^ (lsbExp + E)`. -/
def Format.units (f : Format) (E : ℕ) (x : ℚ) : ℚ := x / 2 ^ (f.lsbExp + E)

/-- `M` is `x` in units of `2 ^ (lsbExp + E)`, rounded to nearest even; the unit is that of the binade of `x`, or the least. -/
structure Format.RoundsTo (f : Format) (x : ℚ) (E M : ℕ) : Prop where
  pos : 0 < x
  half : |(M : ℚ) - f.units E x| ≤ 1 / 2
  tie : |(M : ℚ) - f.units E x| = 1 / 2 → M % 2 = 0
  below : f.units E x < 2 * 2 ^ f.fracBits
  normal : E = 0 ∨ (2 : ℚ) ^ f.fracBits ≤ f.units E x

/-- `roundMag` rounds so, up to overflow. -/
theorem Format.exists_roundsTo (f : Format) {n d : ℕ} (e : ℤ) (hn : n ≠ 0) (hd : d ≠ 0) :
    ∃ E M, f.RoundsTo ((n : ℚ) / d * 2 ^ e) E M ∧ f.roundMag n d e = min f.infMag (E * 2 ^ f.fracBits + M) := by
  obtain ⟨hlow, hhigh⟩ := ratLog2_spec n d hn hd
  have htwo : (2 : ℚ) ≠ 0 := by norm_num
  have hnq : (0 : ℚ) < n := by exact_mod_cast Nat.pos_of_ne_zero hn
  have hdq : (0 : ℚ) < d := by exact_mod_cast Nat.pos_of_ne_zero hd
  set q := f.quantum n d e with hq
  have hle : f.lsbExp ≤ q := le_max_left _ _
  have hq' : f.lsbExp + ((q - f.lsbExp).toNat : ℤ) = q := by omega
  have hunits : f.units (q - f.lsbExp).toNat ((n : ℚ) / d * 2 ^ e) = n / d * 2 ^ (e - q) := by
    rw [Format.units, hq', zpow_sub₀ htwo, mul_div_assoc]
  have hspec := rneScaled_spec n d (q - e) (Nat.pos_of_ne_zero hd)
  rw [neg_sub, ← hunits] at hspec
  refine ⟨(q - f.lsbExp).toNat, rneScaled n d (q - e), ⟨by positivity, hspec.1, hspec.2, ?_, ?_⟩, if_neg hn⟩
  · calc f.units (q - f.lsbExp).toNat ((n : ℚ) / d * 2 ^ e) = n / d * 2 ^ (e - q) := hunits
      _ < 2 ^ (ratLog2 n d + 1) * 2 ^ (e - q) := by gcongr
      _ = 2 ^ (ratLog2 n d + 1 + (e - q)) := (zpow_add₀ htwo _ _).symm
      _ ≤ 2 ^ (((f.fracBits + 1 : ℕ) : ℤ)) := zpow_le_zpow_right₀ (by norm_num) (by
          have : e + ratLog2 n d - f.fracBits ≤ q := le_max_right _ _
          push_cast
          omega)
      _ = 2 * 2 ^ f.fracBits := by rw [zpow_natCast, pow_succ']
  · rcases max_choice f.lsbExp (e + ratLog2 n d - f.fracBits) with hmax | hmax
    · refine .inl ?_
      rw [hq, Format.quantum, hmax, sub_self, Int.toNat_zero]
    · refine .inr ?_
      have hqe : q = e + ratLog2 n d - f.fracBits := hmax
      calc (2 : ℚ) ^ f.fracBits = 2 ^ (ratLog2 n d + (e - q)) := by
            rw [← zpow_natCast]
            congr 1
            omega
        _ = 2 ^ ratLog2 n d * 2 ^ (e - q) := zpow_add₀ htwo _ _
        _ ≤ n / d * 2 ^ (e - q) := by gcongr
        _ = _ := hunits.symm

/-- The exponent step of the largest finite numbers. -/
def Format.topStep (f : Format) : ℕ := 2 ^ f.expBits - 3

theorem Format.infMag_eq_topStep (f : Format) : f.infMag = f.topStep * 2 ^ f.fracBits + 2 * 2 ^ f.fracBits := by
  cases f <;> rfl

/-- Overflow begins half a unit above the largest finite number. -/
theorem Format.units_overflowAt (f : Format) : f.units f.topStep (Spec.overflowAt f) = 2 * 2 ^ f.fracBits - 1 / 2 := by
  have hstep : f.lsbExp + ((2 : ℤ) ^ f.expBits - 4) = f.lsbExp + (f.topStep : ℤ) - 1 := by cases f <;> rfl
  have hpos : (2 : ℚ) ^ (f.lsbExp + (f.topStep : ℤ)) ≠ 0 := by positivity
  rw [Format.units, Spec.overflowAt, hstep, zpow_sub_one₀ (by norm_num), pow_add]
  field_simp

theorem Format.units_le_units (f : Format) (E : ℕ) (x y : ℚ) : f.units E x ≤ f.units E y ↔ x ≤ y := by
  unfold Format.units
  exact div_le_div_iff_of_pos_right (by positivity)

/-- A unit of one step more is twice as large. -/
theorem Format.units_mul_pow (f : Format) (E k : ℕ) (x : ℚ) : f.units (E + k) x * 2 ^ k = f.units E x := by
  have hk : (2 : ℚ) ^ k ≠ 0 := by positivity
  unfold Format.units
  rw [Nat.cast_add, ← add_assoc, zpow_add₀ (by norm_num), zpow_natCast, ← div_div, div_mul_cancel₀ _ hk]

/-- A number of the binade `E + i` or, for `E + i = 0`, a subnormal, in units of step `E`. -/
theorem Format.units_magVal (f : Format) (E i : ℕ) {M : ℕ} (hM : M < 2 * 2 ^ f.fracBits)
    (hn : E + i = 0 ∨ 2 ^ f.fracBits ≤ M) : f.units E (f.magVal ((E + i) * 2 ^ f.fracBits + M)) = M * 2 ^ i := by
  rw [← f.units_mul_pow E i, f.magVal_eq (E + i) M hM.le hn, Format.units, mul_div_assoc, div_self (by positivity), mul_one]

section RoundsTo

variable {f : Format} {x : ℚ} {E M : ℕ} (h : f.RoundsTo x E M)
include h

theorem Format.RoundsTo.le_two_mul : M ≤ 2 * 2 ^ f.fracBits := by
  have hh := abs_le.1 h.half
  have hb := h.below
  have hlt : (M : ℚ) < (2 * 2 ^ f.fracBits + 1 : ℕ) := by
    push_cast
    linarith [hh.2]
  have := Nat.cast_lt.1 hlt
  omega

theorem Format.RoundsTo.significand : E = 0 ∨ 2 ^ f.fracBits ≤ M := by
  refine h.normal.imp_right fun hn => ?_
  have hh := abs_le.1 h.half
  have hlt : ((2 ^ f.fracBits : ℕ) : ℚ) < (M + 1 : ℕ) := by
    push_cast
    linarith [hh.1]
  have := Nat.cast_lt.1 hlt
  omega

theorem Format.RoundsTo.magVal : f.magVal (E * 2 ^ f.fracBits + M) = M * 2 ^ (f.lsbExp + E) :=
  f.magVal_eq E M h.le_two_mul h.significand

/-- The rounded magnitude reaches that of an infinity exactly where overflow begins. -/
theorem Format.RoundsTo.overflow_iff : f.infMag ≤ E * 2 ^ f.fracBits + M ↔ Spec.overflowAt f ≤ x := by
  have hle := h.le_two_mul
  have hhalf := abs_le.1 h.half
  have hP : 1 ≤ 2 ^ f.fracBits := Nat.one_le_two_pow
  have hPq : (1 : ℚ) ≤ 2 ^ f.fracBits := one_le_pow₀ (by norm_num)
  rw [f.infMag_eq_topStep, ← f.units_le_units f.topStep, f.units_overflowAt]
  rcases lt_trichotomy E f.topStep with hE | rfl | hE
  · -- below the top binade: no overflow on either side
    obtain ⟨k, hk⟩ := Nat.exists_eq_add_of_lt hE
    have htwo : f.units (E + (k + 1)) x * 2 ^ (k + 1) = f.units E x := f.units_mul_pow E (k + 1) x
    have hk2 : (2 : ℚ) ≤ 2 ^ (k + 1) := le_self_pow₀ one_le_two k.succ_ne_zero
    have hbelow := h.below
    constructor
    · intro hover
      have : (E + 1) * 2 ^ f.fracBits ≤ f.topStep * 2 ^ f.fracBits := Nat.mul_le_mul_right _ hE
      rw [add_one_mul] at this
      omega
    · intro hover
      rw [show f.topStep = E + (k + 1) by omega] at hover
      nlinarith
  · -- in the top binade: overflow where the significand carries
    constructor
    · intro hover
      have : M = 2 * 2 ^ f.fracBits := by omega
      have hM : (M : ℚ) = 2 * 2 ^ f.fracBits := by exact_mod_cast this
      linarith [hhalf.2]
    · intro hover
      by_contra hlt
      have hM : M + 1 ≤ 2 * 2 ^ f.fracBits := by omega
      have hMq : (M : ℚ) + 1 ≤ 2 * 2 ^ f.fracBits := by exact_mod_cast hM
      have heq : |(M : ℚ) - f.units f.topStep x| = 1 / 2 := by
        rw [abs_of_nonpos (by linarith)]
        linarith [hhalf.1]
      have heven := h.tie heq
      have hMeq : (M : ℚ) + 1 = 2 * 2 ^ f.fracBits := by
        have := hhalf.1
        linarith
      have : M + 1 = 2 * 2 ^ f.fracBits := by exact_mod_cast hMeq
      omega
  · -- above the top binade: overflow on both sides
    obtain ⟨k, hk⟩ := Nat.exists_eq_add_of_lt hE
    have htwo : f.units (f.topStep + (k + 1)) x * 2 ^ (k + 1) = f.units f.topStep x := f.units_mul_pow _ _ x
    have hk2 : (2 : ℚ) ≤ 2 ^ (k + 1) := le_self_pow₀ one_le_two k.succ_ne_zero
    have hE' : E = f.topStep + (k + 1) := by omega
    have hnormal := h.normal.resolve_left (by omega)
    have hsig := h.significand.resolve_left (by omega)
    rw [← hE'] at htwo
    refine ⟨fun _ => ?_, fun _ => ?_⟩
    · nlinarith
    · have : (f.topStep + 1) * 2 ^ f.fracBits ≤ E * 2 ^ f.fracBits := Nat.mul_le_mul_right _ hE
      rw [add_one_mul] at this
      omega

/-- No number of the format is nearer to `x` than some whole number of units is; where it is as near, it is that whole
number. -/
theorem Format.RoundsTo.exists_int_near (neg : Bool) (k : ℕ) :
    ∃ j : ℤ, |(j : ℚ) - f.units E x| ≤ |f.units E ((if neg then -1 else 1) * f.magVal k) - f.units E x| ∧
      (|(j : ℚ) - f.units E x| = |f.units E ((if neg then -1 else 1) * f.magVal k) - f.units E x| →
        f.units E ((if neg then -1 else 1) * f.magVal k) = j) := by
  have hunit : (0 : ℚ) < 2 ^ (f.lsbExp + (E : ℤ)) := by positivity
  have hx : 0 < f.units E x := div_pos h.pos hunit
  cases neg with
  | true =>
    -- a number of the other sign is not nearer than zero
    have hu : f.units E (-1 * f.magVal k) ≤ 0 :=
      div_nonpos_of_nonpos_of_nonneg (by linarith [f.magVal_nonneg k]) hunit.le
    refine ⟨0, ?_⟩
    simp only [if_true, Int.cast_zero]
    rw [abs_of_neg (by linarith), abs_of_neg (by linarith)]
    exact ⟨by linarith, fun heq => by linarith⟩
  | false =>
    simp only [Bool.false_eq_true, if_false, one_mul]
    obtain ⟨E', M', rfl, hM', hnorm'⟩ := f.mag_decomp k
    rcases Nat.lt_or_ge E' E with hE | hE
    · -- below the binade of `x`: not nearer than the least number of that binade
      obtain ⟨i, hi⟩ := Nat.exists_eq_add_of_lt hE
      have hu : f.units E (f.magVal (E' * 2 ^ f.fracBits + M')) < 2 ^ f.fracBits := by
        have hdown : f.units (E' + (i + 1)) (f.magVal (E' * 2 ^ f.fracBits + M')) * 2 ^ (i + 1) = M' := by
          rw [f.units_mul_pow]
          simpa using f.units_magVal E' 0 hM' hnorm'
        have hM'q : (M' : ℚ) < 2 * 2 ^ f.fracBits := by exact_mod_cast hM'
        have hi2 : (2 : ℚ) ≤ 2 ^ (i + 1) := le_self_pow₀ one_le_two i.succ_ne_zero
        rw [show E = E' + (i + 1) by omega]
        by_contra hge
        nlinarith
      have hnormal := h.normal.resolve_left (by omega)
      refine ⟨(2 : ℤ) ^ f.fracBits, ?_⟩
      push_cast
      rw [abs_of_nonpos (by linarith), abs_of_neg (by linarith)]
      exact ⟨by linarith, fun heq => by linarith⟩
    · -- in the binade of `x` or above: a whole number of units
      obtain ⟨i, rfl⟩ := Nat.exists_eq_add_of_le hE
      have hu : f.units E (f.magVal ((E + i) * 2 ^ f.fracBits + M')) = ((M' * 2 ^ i : ℕ) : ℤ) := by
        rw [f.units_magVal E i hM' hnorm']
        push_cast
        rfl
      exact ⟨((M' * 2 ^ i : ℕ) : ℤ), by rw [hu], fun _ => hu⟩

/-- The rounded number is at least as near to `x` as every number of the format, and even where another is as near. -/
theorem Format.RoundsTo.nearest (neg : Bool) (k : ℕ) :
    |f.units E (M * 2 ^ (f.lsbExp + E)) - f.units E x| ≤
        |f.units E ((if neg then -1 else 1) * f.magVal k) - f.units E x| ∧
      (|f.units E (M * 2 ^ (f.lsbExp + E)) - f.units E x| =
          |f.units E ((if neg then -1 else 1) * f.magVal k) - f.units E x| →
        f.units E ((if neg then -1 else 1) * f.magVal k) ≠ f.units E (M * 2 ^ (f.lsbExp + E)) → M % 2 = 0) := by
  have hM : f.units E (M * 2 ^ (f.lsbExp + E)) = M := by
    rw [Format.units, mul_div_assoc, div_self (by positivity), mul_one]
  rw [hM]
  obtain ⟨j, hj, hjeq⟩ := h.exists_int_near neg k
  rcases eq_or_ne j (M : ℤ) with rfl | hne
  · rw [Int.cast_natCast] at hj hjeq
    exact ⟨hj, fun heq hne => absurd (hjeq heq) hne⟩
  · obtain ⟨hle, htie⟩ := nearest_of_half h.half j hne
    exact ⟨hle.trans hj, fun heq _ => h.tie (htie (le_antisymm hle (hj.trans_eq heq.symm)))⟩

end RoundsTo

end Sys2Proof
end


-- ==== Proofs: rounding to an encoding ====
section
/-! PROOFS. The rounded encoding of a signed rational is the nearest one (R15). -/

namespace Sys2Proof

open Spec

/-! From one positive rational to the encodings: signs, overflow, and nearness to every number of the format. -/

theorem abs_sign_mul_sub (b : Bool) (u x : ℚ) :
    |(if b then -1 else 1) * u - (if b then -1 else 1) * x| = |u - x| := by
  rw [← mul_sub, abs_mul]
  cases b <;> simp

theorem sign_mul_sign_mul (b c : Bool) (y : ℚ) :
    (if b then -1 else 1) * ((if c then -1 else 1) * y) = (if (b ^^ c) then -1 else 1) * y := by
  cases b <;> cases c <;> simp

theorem sign_mul_neg_iff (b : Bool) {x : ℚ} (hx : 0 < x) : (if b then -1 else 1) * x < 0 ↔ b = true := by
  cases b <;> simp [hx, hx.le]

theorem abs_sign_mul (b : Bool) {x : ℚ} (hx : 0 ≤ x) : |(if b then -1 else 1) * x| = x := by
  cases b <;> simp [abs_of_nonneg hx]

theorem Format.abs_units_sub (f : Format) (E : ℕ) (a b : ℚ) :
    |f.units E a - f.units E b| = |a - b| / 2 ^ (f.lsbExp + E) := by
  unfold Format.units
  rw [← sub_div, abs_div, abs_of_pos (a := (2 : ℚ) ^ (f.lsbExp + (E : ℤ))) (by positivity)]

/-- The rounded number is at least as near as every number of the format, and even where another is as near. -/
theorem Format.RoundsTo.abs_sub_le {f : Format} {x : ℚ} {E M : ℕ} (h : f.RoundsTo x E M) (neg : Bool) (k : ℕ) :
    |(M : ℚ) * 2 ^ (f.lsbExp + E) - x| ≤ |(if neg then -1 else 1) * f.magVal k - x| ∧
      (|(M : ℚ) * 2 ^ (f.lsbExp + E) - x| = |(if neg then -1 else 1) * f.magVal k - x| →
        (if neg then -1 else 1) * f.magVal k ≠ M * 2 ^ (f.lsbExp + E) → M % 2 = 0) := by
  have hunit : (0 : ℚ) < 2 ^ (f.lsbExp + (E : ℤ)) := by positivity
  obtain ⟨hle, heven⟩ := h.nearest neg k
  rw [f.abs_units_sub, f.abs_units_sub] at hle heven
  refine ⟨(div_le_div_iff_of_pos_right hunit).1 hle, fun heq hne => heven (by rw [heq]) fun hu => hne ?_⟩
  unfold Format.units at hu
  exact (div_left_inj' hunit.ne').1 hu

theorem Format.isNonFinite_pack (f : Format) (neg : Bool) {mag : ℕ} (h : mag ≤ f.infMag) :
    f.isNonFinite (f.pack neg mag) = true ↔ f.infMag ≤ mag := by
  rw [Format.isNonFinite, f.magOf_pack neg (h.trans_lt f.infMag_lt_signMag), decide_eq_true_eq]

theorem Format.two_dvd_signMag (f : Format) : 2 ∣ f.signMag := by cases f <;> decide

theorem Format.two_dvd_pow_fracBits (f : Format) : 2 ∣ 2 ^ f.fracBits := by cases f <;> decide

theorem Format.overflowAt_pos (f : Format) : 0 < overflowAt f := by
  have : (1 : ℚ) < 2 ^ (f.fracBits + 2) := one_lt_pow₀ (by norm_num) (by omega)
  exact mul_pos (by linarith) (by positivity)

/-- The bits of a packed magnitude are even where the magnitude is. -/
theorem Format.bitsOf_pack_even (f : Format) (neg : Bool) {mag : ℕ} (h : mag < f.signMag) (he : mag % 2 = 0) :
    f.bitsOf (f.pack neg mag) % 2 = 0 := by
  obtain ⟨k, hk⟩ := f.two_dvd_signMag
  rw [f.bitsOf_pack neg h]
  split <;> omega

theorem Format.infMag_pos (f : Format) : 0 < f.infMag := by cases f <;> decide

theorem nearestEven_zero (f : Format) (neg : Bool) : NearestEven f 0 (f.pack neg 0) := by
  have hv : f.toRat (f.pack neg 0) = some 0 := by
    rw [f.toRat_pack neg f.infMag_pos, f.magVal_zero, mul_zero]
  have hfin : ¬ f.isNonFinite (f.pack neg 0) = true := by
    rw [f.isNonFinite_pack neg (Nat.zero_le _)]
    exact f.infMag_pos.not_ge
  refine ⟨f.fits_pack neg f.signMag_pos, f.isNaN_pack neg (Nat.zero_le _), ?_, fun h => absurd h hfin, ?_, ?_⟩
  · rw [abs_zero]
    exact iff_of_false hfin f.overflowAt_pos.not_ge
  · intro v z u hv' _
    obtain rfl := Option.some.inj (hv.symm.trans hv')
    rw [sub_zero, abs_zero]
    exact abs_nonneg _
  · intro v z u _ _ _ _
    exact f.bitsOf_pack_even neg f.signMag_pos rfl

/-- The number of a rounded magnitude, packed with a sign, where it did not overflow. -/
theorem Format.RoundsTo.toRat_pack {f : Format} {x v : ℚ} {E M : ℕ} (h : f.RoundsTo x E M) {neg : Bool}
    (hv : f.toRat (f.pack neg (min f.infMag (E * 2 ^ f.fracBits + M))) = some v) :
    min f.infMag (E * 2 ^ f.fracBits + M) = E * 2 ^ f.fracBits + M ∧
      v = (if neg then -1 else 1) * (M * 2 ^ (f.lsbExp + E)) := by
  have hlt := (Format.toRat_some hv).1
  rw [f.magOf_pack neg ((Nat.min_le_left _ _).trans_lt f.infMag_lt_signMag)] at hlt
  have hK : min f.infMag (E * 2 ^ f.fracBits + M) = E * 2 ^ f.fracBits + M := min_eq_right (by omega)
  rw [f.toRat_pack neg hlt, hK, h.magVal] at hv
  exact ⟨hK, (Option.some.inj hv).symm⟩

/-- The rounded magnitude, packed with a sign, is the signed rational rounded to nearest even. -/
theorem Format.RoundsTo.nearestEven {f : Format} {x : ℚ} {E M : ℕ} (h : f.RoundsTo x E M) (neg : Bool) :
    NearestEven f ((if neg then -1 else 1) * x) (f.pack neg (min f.infMag (E * 2 ^ f.fracBits + M))) := by
  set mag := min f.infMag (E * 2 ^ f.fracBits + M) with hmag
  have hle : mag ≤ f.infMag := Nat.min_le_left _ _
  have hover : f.infMag ≤ mag ↔ overflowAt f ≤ x := by rw [hmag, le_min_iff, ← h.overflow_iff]; simp
  have hother {z : Word} {u : ℚ} (hu : f.toRat z = some u) :
      ∃ (c : Bool) (k : ℕ), u = (if neg then -1 else 1) * ((if c then -1 else 1) * f.magVal k) := by
    obtain ⟨-, rfl⟩ := Format.toRat_some hu
    exact ⟨neg ^^ f.signOf z, f.magOf z, by rw [sign_mul_sign_mul]; simp⟩
  refine ⟨f.fits_pack neg (hle.trans_lt f.infMag_lt_signMag), f.isNaN_pack neg hle, ?_, fun hinf => ?_,
    fun v z u hv hu => ?_, fun v z u hv hu hne heq => ?_⟩
  · rw [f.isNonFinite_pack neg hle, hover, abs_sign_mul neg h.pos.le]
  · rw [f.isNonFinite_pack neg hle] at hinf
    simp only [le_antisymm hle hinf, sign_mul_neg_iff neg h.pos, Bool.decide_eq_true]
  · obtain ⟨-, rfl⟩ := h.toRat_pack hv
    obtain ⟨c, k, rfl⟩ := hother hu
    rw [abs_sign_mul_sub, abs_sign_mul_sub]
    exact (h.abs_sub_le c k).1
  · obtain ⟨hK, rfl⟩ := h.toRat_pack hv
    obtain ⟨c, k, rfl⟩ := hother hu
    rw [abs_sign_mul_sub, abs_sign_mul_sub] at heq
    have hM := (h.abs_sub_le c k).2 heq fun hu => hne (by rw [hu])
    obtain ⟨p, hp⟩ := f.two_dvd_pow_fracBits
    refine f.bitsOf_pack_even neg (hle.trans_lt f.infMag_lt_signMag) ?_
    rw [hmag, hK, hp, show E * (2 * p) = 2 * (E * p) by ring]
    omega

/-- A number in the normal range is rounded with a relative error of at most `2 ^ (-fracBits - 1)`. -/
theorem Format.abs_roundQuot_sub_le {f : Format} {neg : Bool} {n d : ℕ} {e : ℤ} {v : ℚ} (hd : d ≠ 0)
    (hv : f.toRat (f.roundQuot neg n d e) = some v) (hx : (2 : ℚ) ^ (f.lsbExp + f.fracBits) ≤ (n : ℚ) / d * 2 ^ e) :
    |v - (if neg then -1 else 1) * ((n : ℚ) / d * 2 ^ e)| ≤ (n : ℚ) / d * 2 ^ e / 2 ^ (f.fracBits + 1) := by
  have hn : n ≠ 0 := by
    rintro rfl
    have : (0 : ℚ) < 2 ^ (f.lsbExp + (f.fracBits : ℤ)) := by positivity
    simp only [Nat.cast_zero, zero_div, zero_mul] at hx
    exact absurd hx this.not_ge
  obtain ⟨E, M, h, hmag⟩ := f.exists_roundsTo e hn hd
  rw [Format.roundQuot, hmag] at hv
  obtain ⟨-, rfl⟩ := h.toRat_pack hv
  have hunit : (0 : ℚ) < 2 ^ (f.lsbExp + (E : ℤ)) := by positivity
  have hnormal : (2 : ℚ) ^ f.fracBits ≤ f.units E ((n : ℚ) / d * 2 ^ e) := h.normal.elim (fun h0 => by
    rw [h0, Format.units, le_div_iff₀ (by positivity), ← zpow_natCast, ← zpow_add₀ (by norm_num), Nat.cast_zero, add_zero,
      add_comm]
    exact hx) id
  rw [Format.units, le_div_iff₀ hunit] at hnormal
  have hhalf := h.half
  have hM : (M : ℚ) = f.units E (M * 2 ^ (f.lsbExp + (E : ℤ))) := by
    rw [Format.units, mul_div_assoc, div_self hunit.ne', mul_one]
  rw [hM, f.abs_units_sub, div_le_iff₀ hunit] at hhalf
  rw [abs_sign_mul_sub, le_div_iff₀ (by positivity), pow_succ]
  calc _ ≤ 1 / 2 * (2 : ℚ) ^ (f.lsbExp + (E : ℤ)) * (2 ^ f.fracBits * 2) := by gcongr
    _ = (2 : ℚ) ^ f.fracBits * 2 ^ (f.lsbExp + (E : ℤ)) := by ring
    _ ≤ _ := hnormal

/-- Settles O37: `roundMag` rounds the magnitude (`exists_roundsTo`), and the sign goes with it. -/
theorem roundingIsNearestEven : Obligations.RoundingIsNearestEven := by
  unfold Obligations.RoundingIsNearestEven
  intro f neg n d e hd
  rcases eq_or_ne n 0 with rfl | hn
  · simpa [Format.roundQuot] using nearestEven_zero f neg
  · obtain ⟨E, M, h, hmag⟩ := f.exists_roundsTo e hn hd
    rw [mul_assoc, Format.roundQuot, hmag]
    exact h.nearestEven neg

end Sys2Proof
end


-- ==== Proofs: correct rounding of the operations ====
section
/-! PROOFS. Every operation on finite encodings is its exact result rounded once, with IEEE 754's sign (R15). -/

namespace Sys2Proof

open Spec

/-! The operations on finite encodings: each is one rounding of the exact result. -/

/-- `w` is `x` rounded to nearest even, with the sign of `x`, and `zeroNeg` where `x` is zero. -/
def CorrectlyRounded (f : Format) (x : ℚ) (zeroNeg : Bool) (w : Word) : Prop := NearestEven f x w ∧ HasSign f x zeroNeg w

/-- What a number of the format unpacks to. -/
theorem Format.unpack_of_toRat {f : Format} {w : Word} {x : ℚ} (h : f.toRat w = some x) :
    ∃ m e, f.unpack w = .fin (f.signOf w) m e ∧ x = (if f.signOf w then -1 else 1) * m * 2 ^ e := by
  have hfin : f.isNonFinite w = false := by
    cases hw : f.isNonFinite w with
    | false => rfl
    | true => exact nomatch (Format.toRat_none hw).symm.trans h
  obtain ⟨m, e, hu, -⟩ := Format.unpack_finite_cases hfin
  refine ⟨m, e, hu, ?_⟩
  rw [Format.toRat, hu] at h
  exact (Option.some.inj h).symm

theorem toRat_posZero (f : Format) : f.toRat Machine.posZero = some 0 := by simp [Format.toRat, FVal.toRat]

theorem correctlyRounded_roundQuot (f : Format) (neg : Bool) (n : ℕ) {d : ℕ} (e : ℤ) (hd : d ≠ 0) :
    CorrectlyRounded f ((if neg then -1 else 1) * ((n : ℚ) / d) * 2 ^ e) neg (f.roundQuot neg n d e) := by
  refine ⟨roundingIsNearestEven f neg n d e hd, fun hx => ?_, fun hx => ?_⟩
  · have hpos : 0 < (n : ℚ) / d * 2 ^ e := by
      refine lt_of_le_of_ne (by positivity) fun h0 => hx ?_
      rw [mul_assoc, ← h0, mul_zero]
    rw [Format.roundQuot, f.signOf_pack neg (f.roundMag_lt n d e)]
    simp only [mul_assoc, sign_mul_neg_iff neg hpos, Bool.decide_eq_true]
  · have hn : n = 0 := by
      have hdq : (d : ℚ) ≠ 0 := by exact_mod_cast hd
      have h2 : (2 : ℚ) ^ e ≠ 0 := by positivity
      cases neg <;> simpa [hdq, h2] using hx
    rw [hn, Format.roundQuot, f.roundMag_zero]

/-- The aligned integer, in units of `2 ^ base`, is the value. -/
theorem alignTo_mul_zpow {base e : ℤ} (h : base ≤ e) (neg : Bool) (m : ℕ) :
    (alignTo base neg m e : ℚ) * 2 ^ base = (if neg then -1 else 1) * m * 2 ^ e := by
  have hpow : (2 : ℚ) ^ (e - base).toNat * 2 ^ base = 2 ^ e := by
    rw [← zpow_natCast, ← zpow_add₀ (by norm_num)]
    congr 1
    omega
  cases neg <;> simp [alignTo, mul_assoc, hpow]

theorem correctlyRounded_addFinite (f : Format) (a : Bool) (m : ℕ) (e : ℤ) (b : Bool) (m' : ℕ) (e' : ℤ) :
    CorrectlyRounded f ((if a then -1 else 1) * m * 2 ^ e + (if b then -1 else 1) * m' * 2 ^ e') (a && b)
      (f.addFinite a m e b m' e') := by
  rw [← alignTo_mul_zpow (min_le_left e e') a m, ← alignTo_mul_zpow (min_le_right e e') b m', ← add_mul, ← Int.cast_add]
  unfold Format.addFinite
  simp only
  generalize alignTo (min e e') a m e + alignTo (min e e') b m' e' = s
  generalize min e e' = base
  split
  next hs =>
    rw [hs, Int.cast_zero, zero_mul]
    exact ⟨nearestEven_zero f _, fun h => absurd rfl h, fun _ => rfl⟩
  next hs =>
    have hsq : (s : ℚ) = (if decide (s < 0) then -1 else 1) * ((s.natAbs : ℚ) / (1 : ℕ)) := by
      rw [Nat.cast_natAbs, Nat.cast_one, div_one, Int.cast_abs]
      rcases lt_or_ge s 0 with h | h
      · rw [abs_of_neg (by exact_mod_cast h)]
        simp [h]
      · rw [abs_of_nonneg (by exact_mod_cast h)]
        simp [not_lt.2 h]
    have hx : (s : ℚ) * 2 ^ base ≠ 0 := mul_ne_zero (by exact_mod_cast hs) (by positivity)
    obtain ⟨hnear, hsign, -⟩ := correctlyRounded_roundQuot f (decide (s < 0)) s.natAbs base one_ne_zero
    rw [← hsq] at hnear hsign
    exact ⟨hnear, hsign, fun h0 => absurd h0 hx⟩

section Operations

variable {f : Format} {a b : Word} {x y : ℚ} (draw : Word) (ha : f.toRat a = some x) (hb : f.toRat b = some y)
include ha

theorem toRat_fneg : f.toRat (f.fneg a) = some (-x) := by
  obtain ⟨m, e, hu, rfl⟩ := Format.unpack_of_toRat ha
  rw [Format.toRat, Format.unpack_fneg, hu]
  cases f.signOf a <;> simp [FVal.negate, FVal.toRat]

include hb

theorem correctlyRounded_fadd : CorrectlyRounded f (x + y) (f.signOf a && f.signOf b) (f.fadd draw a b) := by
  obtain ⟨m, e, hua, rfl⟩ := Format.unpack_of_toRat ha
  obtain ⟨m', e', hub, rfl⟩ := Format.unpack_of_toRat hb
  rw [Format.fadd, hua, hub]
  exact correctlyRounded_addFinite f _ m e _ m' e'

theorem correctlyRounded_fsub : CorrectlyRounded f (x - y) (f.signOf a && !f.signOf b) (f.fsub draw a b) := by
  rw [f.fsub_eq_fadd_fneg, sub_eq_add_neg, ← f.signOf_fneg]
  exact correctlyRounded_fadd draw ha (toRat_fneg hb)

/-- The exact product, as a value. -/
theorem exists_mulVal : ∃ m e, mulVal (f.unpack a) (f.unpack b) = .fin (f.signOf a ^^ f.signOf b) m e ∧
    x * y = (if (f.signOf a ^^ f.signOf b) then -1 else 1) * m * 2 ^ e := by
  obtain ⟨m, e, hua, rfl⟩ := Format.unpack_of_toRat ha
  obtain ⟨m', e', hub, rfl⟩ := Format.unpack_of_toRat hb
  refine ⟨m * m', e + e', ?_, ?_⟩
  · rw [hua, hub]
    simp [mulVal]
  · rw [← mul_one ((if (f.signOf a ^^ f.signOf b) then (-1 : ℚ) else 1)), ← sign_mul_sign_mul, zpow_add₀ (by norm_num)]
    push_cast
    ring

theorem correctlyRounded_fmul : CorrectlyRounded f (x * y) (f.signOf a ^^ f.signOf b) (f.fmul draw a b) := by
  obtain ⟨m, e, hu, hxy⟩ := exists_mulVal ha hb
  rw [Format.fmul, hu, hxy, Format.roundVal]
  simpa only [Nat.cast_one, div_one] using correctlyRounded_roundQuot f (f.signOf a ^^ f.signOf b) m e one_ne_zero

theorem correctlyRounded_fma {c : Word} {z : ℚ} (hc : f.toRat c = some z) :
    CorrectlyRounded f (x * y + z) ((f.signOf a ^^ f.signOf b) && f.signOf c) (f.fma draw a b c) := by
  obtain ⟨m, e, hu, hxy⟩ := exists_mulVal ha hb
  obtain ⟨m', e', huc, rfl⟩ := Format.unpack_of_toRat hc
  rw [Format.fma, hu, hxy, huc]
  exact correctlyRounded_addFinite f _ m e _ m' e'

/-- The quotient is one rounding of a quotient of natural numbers. -/
theorem exists_fdiv_eq_roundQuot (hy : y ≠ 0) : ∃ (n d : ℕ) (e : ℤ), d ≠ 0 ∧
    f.fdiv draw a b = f.roundQuot (f.signOf a ^^ f.signOf b) n d e ∧
    x / y = (if (f.signOf a ^^ f.signOf b) then -1 else 1) * ((n : ℚ) / d) * 2 ^ e := by
  obtain ⟨m, e, hua, rfl⟩ := Format.unpack_of_toRat ha
  obtain ⟨m', e', hub, rfl⟩ := Format.unpack_of_toRat hb
  have hm' : m' ≠ 0 := by
    rintro rfl
    simp at hy
  refine ⟨m, m', e - e', hm', ?_, ?_⟩
  · rw [Format.fdiv, hua, hub]
    simp [Format.divVal, hm']
  · have hm'q : (m' : ℚ) ≠ 0 := by exact_mod_cast hm'
    rw [zpow_sub₀ (by norm_num)]
    cases f.signOf a <;> cases f.signOf b <;> simp <;> field_simp

theorem correctlyRounded_fdiv (hy : y ≠ 0) :
    CorrectlyRounded f (x / y) (f.signOf a ^^ f.signOf b) (f.fdiv draw a b) := by
  obtain ⟨n, d, e, hd, hdiv, hxy⟩ := exists_fdiv_eq_roundQuot draw ha hb hy
  rw [hdiv, hxy]
  exact correctlyRounded_roundQuot f _ n e hd

/-- A quotient that is zero or in the normal range has a relative error of at most `2 ^ (-fracBits - 1)`. -/
theorem abs_fdiv_sub_le {v : ℚ} (hy : y ≠ 0) (hv : f.toRat (f.fdiv draw a b) = some v)
    (hx : x = 0 ∨ (2 : ℚ) ^ (f.lsbExp + f.fracBits) ≤ |x / y|) : |v - x / y| ≤ |x / y| / 2 ^ (f.fracBits + 1) := by
  rcases hx with rfl | hx
  · have hzero := (correctlyRounded_fdiv draw ha hb hy).1.nearest v _ 0 hv (toRat_posZero f)
    rw [zero_div, sub_self, abs_zero] at hzero
    rw [zero_div, abs_zero, zero_div]
    exact hzero
  · obtain ⟨n, d, e, hd, hdiv, hxy⟩ := exists_fdiv_eq_roundQuot draw ha hb hy
    rw [mul_assoc] at hxy
    have habs : |x / y| = (n : ℚ) / d * 2 ^ e := by rw [hxy, abs_sign_mul _ (by positivity)]
    rw [hdiv] at hv
    rw [habs] at hx ⊢
    rw [hxy]
    exact Format.abs_roundQuot_sub_le hd hv hx

end Operations

/-- Settles O38: each operation on finite encodings is one correct rounding of its exact result. -/
theorem arithmeticIsCorrectlyRounded : Obligations.ArithmeticIsCorrectlyRounded := by
  unfold Obligations.ArithmeticIsCorrectlyRounded
  intro f draw a b c x y z ha hb hc
  obtain ⟨hadd, haddS⟩ := correctlyRounded_fadd draw ha hb
  obtain ⟨hsub, hsubS⟩ := correctlyRounded_fsub draw ha hb
  obtain ⟨hmul, hmulS⟩ := correctlyRounded_fmul draw ha hb
  obtain ⟨hfma, hfmaS⟩ := correctlyRounded_fma draw ha hb hc
  exact ⟨hadd, hsub, hmul, fun hy => (correctlyRounded_fdiv draw ha hb hy).1, hfma, toRat_fneg ha, haddS, hsubS, hmulS,
    fun hy => (correctlyRounded_fdiv draw ha hb hy).2, hfmaS, f.signOf_fneg a⟩

/-! Rounding a number of the format changes nothing. -/

/-- A number of the format is below the overflow threshold. -/
theorem abs_lt_overflowAt_of_representable {f : Format} {x : ℚ} (h : Representable f x) : |x| < overflowAt f := by
  obtain ⟨w, hw⟩ := h
  obtain ⟨hk, rfl⟩ := Format.toRat_some hw
  obtain ⟨E, M, hEM, hM, hnorm⟩ := f.mag_decomp (f.magOf w)
  rw [abs_sign_mul _ (f.magVal_nonneg _)]
  by_contra hover
  have hP : 1 ≤ 2 ^ f.fracBits := Nat.one_le_two_pow
  have hunits : f.units E (f.magVal (f.magOf w)) = M := by
    rw [hEM]
    simpa using f.units_magVal E 0 hM hnorm
  have hx : f.RoundsTo (f.magVal (f.magOf w)) E M := by
    refine ⟨f.overflowAt_pos.trans_le (not_lt.1 hover), ?_, ?_, ?_, ?_⟩
    · rw [hunits]
      simp
    · rw [hunits]
      norm_num
    · rw [hunits]
      exact_mod_cast hM
    · rw [hunits]
      exact_mod_cast hnorm
  have := hx.overflow_iff.2 (not_lt.1 hover)
  omega

/-- A number of the format is rounded to itself. -/
theorem toRat_of_nearestEven {f : Format} {x : ℚ} {w : Word} (h : NearestEven f x w) (hx : Representable f x) :
    f.toRat w = some x := by
  have hfin : f.isNonFinite w = false := by
    cases hw : f.isNonFinite w with
    | false => rfl
    | true => exact absurd (h.overflow.1 hw) (abs_lt_overflowAt_of_representable hx).not_ge
  obtain ⟨z, hz⟩ := hx
  rw [Format.toRat_eq hfin]
  have hle := h.nearest _ z x (Format.toRat_eq hfin) hz
  rw [sub_self, abs_zero] at hle
  rw [sub_eq_zero.1 (abs_nonpos_iff.1 hle)]

end Sys2Proof
end


-- ==== Proofs: FILTER in exact arithmetic ====
section
/-! PROOFS. Over a field the loops of R82 are sums (R83): the difference equation, DC seeding (C5), and transfer functions of
sections and cascades (R98). -/

namespace Sys2Proof.Machine

open Spec Finset

/-! The accumulator by index loops (R82), over any arithmetic. -/

section Loops

variable {V : Type} (A : Arith V) (fused : Bool) {n : ℕ} {num den xs yh : List V} (hnum : num.length = n)
  (hden : den.length = n) (hxs : xs.length = n) (hyh : yh.length = n)
include hnum hden hxs hyh

theorem filterAcc_perTerm_eq_upto : filterAcc A fused .perTerm num den xs yh =
    upto (n - 1) (fun j a => macSub A fused a (den.getD (j + 1) A.zero) (yh.getD j A.zero))
      (upto n (fun k a => macAdd A fused a (num.getD k A.zero) (xs.getD k A.zero)) A.zero) := by
  rw [filterAcc, macSum_eq_upto A fused hnum hxs, subtractFeedback, macDiff,
    foldl_feedback_eq_upto (macSub A fused) A.zero hden hyh]

theorem filterAcc_grouped_eq_upto : filterAcc A fused .grouped num den xs yh =
    A.sub (upto n (fun k a => macAdd A fused a (num.getD k A.zero) (xs.getD k A.zero)) A.zero)
      (upto (n - 1) (fun j a => macAdd A fused a (den.getD (j + 1) A.zero) (yh.getD j A.zero)) A.zero) := by
  rw [filterAcc, macSum_eq_upto A fused hnum hxs, subtractFeedback, macSum,
    foldl_feedback_eq_upto (macAdd A fused) A.zero hden hyh]

end Loops

theorem headD_eq_getD {V : Type} (l : List V) (d : V) : l.headD d = l.getD 0 d := by cases l <;> rfl

/-! Exact arithmetic (R83): the loops are sums. -/

section Exact

variable {K : Type} [Field K]

theorem upto_eq_add_sum (n : ℕ) (t : ℕ → K) (acc : K) : upto n (fun k a => a + t k) acc = acc + ∑ k ∈ range n, t k := by
  induction n with
  | zero => simp [upto]
  | succ n ih => rw [upto, ih, sum_range_succ, add_assoc]

theorem upto_eq_sub_sum (n : ℕ) (t : ℕ → K) (acc : K) : upto n (fun k a => a - t k) acc = acc - ∑ k ∈ range n, t k := by
  induction n with
  | zero => simp [upto]
  | succ n ih => rw [upto, ih, sum_range_succ, sub_sub]

theorem macAdd_exact (fused : Bool) (a c v : K) : macAdd (Arith.exact K) fused a c v = a + c * v := by
  cases fused
  · rfl
  · exact add_comm _ _

theorem macSub_exact (fused : Bool) (a c v : K) : macSub (Arith.exact K) fused a c v = a - c * v := by
  cases fused
  · rfl
  · show -c * v + a = a - c * v
    ring

/-- Settles O33: over a field the loops of R82 are sums, whatever the grouping and fusion. -/
theorem filterIsTheDifferenceEquation : Obligations.FilterIsTheDifferenceEquation := by
  unfold Obligations.FilterIsTheDifferenceEquation
  intro K _ fused g n num den xs yh hnum hden hxs hyh
  have hacc : filterAcc (Arith.exact K) fused g num den xs yh =
      ∑ k ∈ range n, num.getD k 0 * xs.getD k 0 - ∑ k ∈ range (n - 1), den.getD (k + 1) 0 * yh.getD k 0 := by
    cases g with
    | perTerm =>
      rw [filterAcc_perTerm_eq_upto _ _ hnum hden hxs hyh]
      simp only [macAdd_exact, macSub_exact, upto_eq_add_sum, upto_eq_sub_sum]
      rw [show (Arith.exact K).zero = 0 from rfl, zero_add]
    | grouped =>
      rw [filterAcc_grouped_eq_upto _ _ hnum hden hxs hyh]
      simp only [macAdd_exact, upto_eq_add_sum]
      rw [show (Arith.exact K).zero = 0 from rfl, zero_add, zero_add]
      rfl
  rw [filterOutput, hacc, headD_eq_getD]
  rfl

/-- The sum of a list is the sum over its indices. -/
theorem sum_range_getD (l : List K) : ∑ k ∈ range l.length, l.getD k 0 = l.sum := by
  induction l with
  | nil => rfl
  | cons c cs ih =>
    rw [List.length_cons, sum_range_succ', List.sum_cons, add_comm]
    simpa using ih

theorem shiftIn_replicate {V : Type} {n : ℕ} (hn : 1 ≤ n) (v : V) :
    shiftIn v (List.replicate n v) = List.replicate n v := by
  obtain ⟨m, rfl⟩ := Nat.exists_eq_add_of_le' hn
  rw [shiftIn, List.length_replicate, List.take_replicate, List.replicate_succ, Nat.add_sub_cancel, min_eq_left (Nat.le_succ m)]

theorem length_pos_of_getD_ne_zero {l : List K} (h : l.getD 0 0 ≠ 0) : 1 ≤ l.length := by
  cases l with
  | nil => exact absurd rfl h
  | cons c cs => exact Nat.succ_pos _

/-- The difference equation, the entries of the histories given by their index: all outputs on one side. -/
theorem getD_mul_filterOutput_exact (fused : Bool) (g : FbGrouping) {n : ℕ} {num den xs yh : List K} {x y : ℕ → K}
    (hnum : num.length = n) (hden : den.length = n) (hxs : xs.length = n) (hyh : yh.length = n)
    (hd0 : den.getD 0 0 ≠ 0) (hx : ∀ k < n, xs.getD k 0 = x k) (hy : ∀ k < n, yh.getD k 0 = y k) :
    den.getD 0 0 * filterOutput (Arith.exact K) fused g num den xs yh + ∑ k ∈ range (n - 1), den.getD (k + 1) 0 * y k =
      ∑ k ∈ range n, num.getD k 0 * x k := by
  have hff : ∑ k ∈ range n, num.getD k 0 * xs.getD k 0 = ∑ k ∈ range n, num.getD k 0 * x k :=
    sum_congr rfl fun k hk => by rw [hx k (mem_range.1 hk)]
  have hfb : ∑ k ∈ range (n - 1), den.getD (k + 1) 0 * yh.getD k 0 = ∑ k ∈ range (n - 1), den.getD (k + 1) 0 * y k :=
    sum_congr rfl fun k hk => by rw [hy k ((mem_range.1 hk).trans_le (Nat.sub_le n 1))]
  rw [filterIsTheDifferenceEquation K fused g n num den xs yh hnum hden hxs hyh, hff, hfb, mul_div_cancel₀ _ hd0,
    sub_add_cancel]

/-- Settles O36: with both histories full of `v`, the difference equation (`getD_mul_filterOutput_exact`) is a multiple of
`v`. -/
theorem dcSeedingInExactArithmetic : Obligations.DcSeedingInExactArithmetic := by
  unfold Obligations.DcSeedingInExactArithmetic
  intro K _ fused g n num den v hnum hden hd0 hsum
  have hn : 1 ≤ n := hden ▸ length_pos_of_getD_ne_zero hd0
  have hval (k : ℕ) (hk : k < n) : (List.replicate n v).getD k 0 = v := by simp [hk]
  have heq := getD_mul_filterOutput_exact fused g hnum hden List.length_replicate List.length_replicate hd0 hval hval
  have hnumsum : ∑ k ∈ range n, num.getD k 0 = num.sum := hnum ▸ sum_range_getD num
  have hdensum : ∑ k ∈ range (n - 1), den.getD (k + 1) 0 + den.getD 0 0 = den.sum := by
    rw [← sum_range_getD den, hden, ← Nat.sub_add_cancel hn, sum_range_succ', Nat.add_sub_cancel]
  rw [← sum_mul, ← sum_mul, hnumsum, hsum, ← hdensum] at heq
  rw [shiftIn_replicate hn]
  refine mul_left_cancel₀ hd0 ?_
  linear_combination heq

/-! Signals as power series in `z^(-1)`. -/

/-- A coefficient of the product of a polynomial and a signal: the products with the recent samples. -/
theorem coeff_series_mul (c : List K) (y : ℕ → K) (n : ℕ) : PowerSeries.coeff n (series c * PowerSeries.mk y) =
    ∑ k ∈ range c.length, c.getD k 0 * (if k ≤ n then y (n - k) else 0) := by
  rw [PowerSeries.coeff_mul, Nat.sum_antidiagonal_eq_sum_range_succ_mk]
  have hterm (k : ℕ) (hk : k ∈ range (n + 1)) : PowerSeries.coeff k (series c) * PowerSeries.coeff (n - k) (PowerSeries.mk y) =
      c.getD k 0 * (if k ≤ n then y (n - k) else 0) := by
    rw [series, PowerSeries.coeff_mk, PowerSeries.coeff_mk, if_pos (Nat.lt_succ_iff.1 (mem_range.1 hk))]
  rw [sum_congr rfl hterm]
  have hleft := sum_subset (f := fun k => c.getD k 0 * (if k ≤ n then y (n - k) else 0))
    (range_subset_range.2 (Nat.le_add_left (n + 1) c.length)) fun k _ hk => by
      rw [mem_range, Nat.lt_succ_iff] at hk
      rw [if_neg hk, mul_zero]
  have hright := sum_subset (f := fun k => c.getD k 0 * (if k ≤ n then y (n - k) else 0))
    (range_subset_range.2 (Nat.le_add_right c.length (n + 1))) fun k _ hk => by
      rw [mem_range, not_lt] at hk
      rw [List.getD_eq_default _ _ hk, zero_mul]
  exact hleft.trans hright.symm

/-- The difference equation of one sample, all outputs on one side. -/
theorem Runs.sum_eq {fused : Bool} {g : FbGrouping} {num den : List K} {x y : ℕ → K} (hlen : num.length = den.length)
    (hd0 : den.getD 0 0 ≠ 0) (h : Runs fused g num den x y) (n : ℕ) :
    ∑ k ∈ range den.length, den.getD k 0 * (if k ≤ n then y (n - k) else 0) =
      ∑ k ∈ range num.length, num.getD k 0 * (if k ≤ n then x (n - k) else 0) := by
  have hn : 1 ≤ den.length := length_pos_of_getD_ne_zero hd0
  have hrecent (k : ℕ) (hk : k < num.length) : (recent num.length n x).getD k 0 = if k ≤ n then x (n - k) else 0 := by
    simp [recent, List.getElem?_range hk]
  have hpast (k : ℕ) (hk : k < den.length) :
      (past den.length n y).getD k 0 = if k + 1 ≤ n then y (n - (k + 1)) else 0 := by
    simp [past, List.getElem?_range hk, Nat.sub_sub, Nat.add_comm]
  have heq := getD_mul_filterOutput_exact fused g rfl hlen.symm (by simp [recent]) (by simp [past, hlen]) hd0 hrecent
    fun k hk => hpast k (hlen ▸ hk)
  rw [← heq, ← h n, hlen]
  conv_lhs => rw [← Nat.sub_add_cancel hn, sum_range_succ', if_pos (Nat.zero_le n), Nat.sub_zero, add_comm]

/-- Settles O34: coefficient by coefficient, the product of the series is the difference equation (`Runs.sum_eq`). -/
theorem transferFunctionOfASection : Obligations.TransferFunctionOfASection := by
  unfold Obligations.TransferFunctionOfASection
  intro K _ fused g num den x y hlen hd0 h
  ext n
  rw [coeff_series_mul, coeff_series_mul, Runs.sum_eq hlen hd0 h n]

/-- Settles O35, by induction on the sections: the first one is O34. -/
theorem transferFunctionOfACascade : Obligations.TransferFunctionOfACascade := by
  unfold Obligations.TransferFunctionOfACascade
  intro K _ sections
  induction sections with
  | nil => exact fun signal _ => rfl
  | cons c cs ih =>
    intro signal h
    obtain ⟨hlen, hd0, hruns⟩ := h 0 c rfl
    have hfirst := transferFunctionOfASection K c.fused c.grouping c.num c.den _ _ hlen hd0 hruns
    have hrest := ih (fun i => signal (i + 1)) fun i c' hc' => h (i + 1) c' hc'
    rw [List.map_cons, List.prod_cons, List.map_cons, List.prod_cons, List.length_cons]
    calc series c.den * (cs.map fun c => series c.den).prod * PowerSeries.mk (signal (cs.length + 1))
        = series c.den * ((cs.map fun c => series c.num).prod * PowerSeries.mk (signal 1)) := by rw [mul_assoc, hrest]
      _ = (cs.map fun c => series c.num).prod * (series c.den * PowerSeries.mk (signal 1)) := mul_left_comm _ _ _
      _ = series c.num * (cs.map fun c => series c.num).prod * PowerSeries.mk (signal 0) := by
          rw [hfirst, mul_left_comm, mul_assoc]

end Exact

end Sys2Proof.Machine
end


-- ==== Proofs: FILTER without rounding ====
section
/-! PROOFS. Where every intermediate value is a number of the format, FILTER computes what exact arithmetic computes (R83). -/

namespace Sys2Proof.Machine

open Spec Finset

/-! FILTER on numbers whose exact results are numbers of the format: no operation rounds (R83). -/

/-- The values of a list of numbers, entry by entry, and zero beyond it. -/
theorem toRat_getD {f : Format} {l : List Word} {q : List ℚ} (h : l.map f.toRat = q.map some) (k : ℕ) :
    f.toRat (l.getD k posZero) = some (q.getD k 0) := by
  have hk := congrArg (·[k]?) h
  simp only [List.getElem?_map] at hk
  rw [List.getD_eq_getElem?_getD, List.getD_eq_getElem?_getD]
  cases hl : l[k]? with
  | none =>
    rw [hl, Option.map_none, eq_comm, Option.map_eq_none_iff] at hk
    rw [hk]
    exact toRat_posZero f
  | some w =>
    rw [hl, Option.map_some, eq_comm, Option.map_eq_some_iff] at hk
    obtain ⟨x, hx, hw⟩ := hk
    rw [hx]
    exact hw.symm

theorem length_eq_of_map_toRat {f : Format} {l : List Word} {q : List ℚ} (h : l.map f.toRat = q.map some) :
    l.length = q.length := by simpa using congrArg List.length h

section Step

variable {f : Format} (draw : Word) {fused : Bool} {a c v : Word} {x y z : ℚ} (ha : f.toRat a = some z)
  (hc : f.toRat c = some x) (hv : f.toRat v = some y) (hprod : fused = false → Representable f (x * y))
include ha hc hv hprod

theorem toRat_macAdd (hsum : Representable f (z + x * y)) :
    f.toRat (macAdd (Arith.ieee f draw) fused a c v) = some (z + x * y) := by
  cases fused with
  | false =>
    have hmul := toRat_of_nearestEven (correctlyRounded_fmul draw hc hv).1 (hprod rfl)
    exact toRat_of_nearestEven (correctlyRounded_fadd draw ha hmul).1 hsum
  | true =>
    rw [add_comm] at hsum ⊢
    exact toRat_of_nearestEven (correctlyRounded_fma draw hc hv ha).1 hsum

theorem toRat_macSub (hdiff : Representable f (z - x * y)) :
    f.toRat (macSub (Arith.ieee f draw) fused a c v) = some (z - x * y) := by
  cases fused with
  | false =>
    have hmul := toRat_of_nearestEven (correctlyRounded_fmul draw hc hv).1 (hprod rfl)
    exact toRat_of_nearestEven (correctlyRounded_fsub draw ha hmul).1 hdiff
  | true =>
    rw [show z - x * y = -x * y + z by ring] at hdiff ⊢
    exact toRat_of_nearestEven (correctlyRounded_fma draw (toRat_fneg hc) hv ha).1 hdiff

end Step

section Loops

variable {f : Format} (draw : Word) (fused : Bool) {c v : ℕ → Word} {x y : ℕ → ℚ}
  (hc : ∀ k, f.toRat (c k) = some (x k)) (hv : ∀ k, f.toRat (v k) = some (y k))
include hc hv

/-- A sum from `+0` whose products and partial sums are numbers of the format is the exact sum. -/
theorem toRat_upto_macAdd (n : ℕ)
    (h : ∀ k < n, (fused = false → Representable f (x k * y k)) ∧ Representable f (∑ j ∈ range (k + 1), x j * y j)) :
    f.toRat (upto n (fun k a => macAdd (Arith.ieee f draw) fused a (c k) (v k)) posZero) =
      some (∑ k ∈ range n, x k * y k) := by
  induction n with
  | zero => exact toRat_posZero f
  | succ n ih =>
    obtain ⟨hprod, hsum⟩ := h n n.lt_succ_self
    rw [sum_range_succ] at hsum ⊢
    exact toRat_macAdd draw (ih fun k hk => h k (hk.trans n.lt_succ_self)) (hc n) (hv n) hprod hsum

/-- The same for the products subtracted one at a time from a number `s`. -/
theorem toRat_upto_macSub {acc : Word} {s : ℚ} (hacc : f.toRat acc = some s) (n : ℕ)
    (h : ∀ k < n, (fused = false → Representable f (x k * y k)) ∧
      Representable f (s - ∑ j ∈ range (k + 1), x j * y j)) :
    f.toRat (upto n (fun k a => macSub (Arith.ieee f draw) fused a (c k) (v k)) acc) =
      some (s - ∑ k ∈ range n, x k * y k) := by
  induction n with
  | zero => simpa [upto] using hacc
  | succ n ih =>
    obtain ⟨hprod, hdiff⟩ := h n n.lt_succ_self
    rw [sum_range_succ, ← sub_sub] at hdiff ⊢
    exact toRat_macSub draw (ih fun k hk => h k (hk.trans n.lt_succ_self)) (hc n) (hv n) hprod hdiff

end Loops

/-- Settles O41: the accumulator stands for the exact one, by the loops of R82 (`toRat_upto_macAdd`, `toRat_upto_macSub`), and
the quotient is a number of the format. -/
theorem filterAgreesWithExactArithmetic : Obligations.FilterAgreesWithExactArithmetic := by
  unfold Obligations.FilterAgreesWithExactArithmetic
  intro f draw fused g n num den xs yh numQ denQ xsQ yhQ hnumQ hdenQ hxsQ hyhQ hnum hden hxs hyh hd0
    ⟨hff, hfb, hgrouped, hquot⟩
  have hnumL := (length_eq_of_map_toRat hnum).trans hnumQ
  have hdenL := (length_eq_of_map_toRat hden).trans hdenQ
  have hxsL := (length_eq_of_map_toRat hxs).trans hxsQ
  have hyhL := (length_eq_of_map_toRat hyh).trans hyhQ
  have hsum := toRat_upto_macAdd draw fused (toRat_getD hnum) (toRat_getD hxs) n hff
  have hacc : f.toRat (filterAcc (Arith.ieee f draw) fused g num den xs yh) =
      some (∑ k ∈ range n, numQ.getD k 0 * xsQ.getD k 0 - ∑ k ∈ range (n - 1), denQ.getD (k + 1) 0 * yhQ.getD k 0) := by
    cases g with
    | perTerm =>
      rw [filterAcc_perTerm_eq_upto _ _ hnumL hdenL hxsL hyhL]
      exact toRat_upto_macSub draw fused (fun k => toRat_getD hden (k + 1)) (toRat_getD hyh) hsum (n - 1)
        fun k hk => ⟨(hfb k hk).1, (hfb k hk).2.1 rfl⟩
    | grouped =>
      rw [filterAcc_grouped_eq_upto _ _ hnumL hdenL hxsL hyhL]
      have hfeed := toRat_upto_macAdd draw fused (fun k => toRat_getD hden (k + 1)) (toRat_getD hyh) (n - 1)
        fun k hk => ⟨(hfb k hk).1, (hfb k hk).2.2 rfl⟩
      exact toRat_of_nearestEven (correctlyRounded_fsub draw hsum hfeed).1 (hgrouped rfl)
  rw [filterIsTheDifferenceEquation ℚ fused g n numQ denQ xsQ yhQ hnumQ hdenQ hxsQ hyhQ]
  refine toRat_of_nearestEven (correctlyRounded_fdiv draw hacc ?_ hd0).1 hquot
  rw [headD_eq_getD]
  exact toRat_getD hden 0

end Sys2Proof.Machine
end


-- ==== Proofs: zeros in the IEEE operations ====
section
/-! PROOFS. Zero operands, the sign of a zero quotient, and that subtracting `+0` changes no number (R85 to R87, R90). -/

namespace Sys2Proof

/-! Zeros and units in the IEEE operations (R85 to R87, R90). -/

theorem Format.isZero_iff (f : Format) (w : Word) : f.isZero w = true ↔ f.magOf w = 0 := by simp [Format.isZero]

theorem Format.isZero_pack_zero (f : Format) (neg : Bool) : f.isZero (f.pack neg 0) = true := by
  rw [f.isZero_iff, f.magOf_pack neg f.signMag_pos]

theorem Format.isZero_posZero (f : Format) : f.isZero Machine.posZero = true := by
  rw [← f.pack_false_zero, f.isZero_pack_zero]

theorem Format.isZero_fneg (f : Format) (a : Word) : f.isZero (f.fneg a) = f.isZero a := by simp [Format.isZero]

theorem Format.isNonFinite_of_isZero {f : Format} {w : Word} (h : f.isZero w = true) : f.isNonFinite w = false := by
  have hi := f.infMag_pos
  rw [f.isZero_iff] at h
  simp only [Format.isNonFinite, h, decide_eq_false_iff_not]
  omega

/-- The sum of two zeros is `-0` only where both are. -/
theorem Format.addFinite_zero_zero (f : Format) (a : Bool) (e : ℤ) (b : Bool) (e' : ℤ) :
    f.addFinite a 0 e b 0 e' = f.pack (a && b) 0 := by simp [Format.addFinite, alignTo]

theorem Format.fadd_posZero_of_isZero {f : Format} {p : Word} (draw : Word) (hp : f.isZero p = true) :
    f.fadd draw Machine.posZero p = Machine.posZero := by
  rw [Format.fadd, f.unpack_posZero, Format.unpack_of_zero hp]
  exact (f.addFinite_zero_zero ..).trans f.pack_false_zero

/-- A finite number times a zero, in either order, is a zero. -/
theorem mulVal_of_zero_factor {f : Format} {c v : Word} (hc : f.isNonFinite c = false) (hv : f.isNonFinite v = false)
    (h : f.isZero c = true ∨ f.isZero v = true) :
    ∃ e, mulVal (f.unpack c) (f.unpack v) = .fin (f.signOf c ^^ f.signOf v) 0 e := by
  obtain ⟨m, e, hu, hm, -⟩ := Format.unpack_finite_cases hc
  obtain ⟨m', e', hu', hm', -⟩ := Format.unpack_finite_cases hv
  have hmm : m * m' = 0 :=
    mul_eq_zero.2 (h.imp (fun h => hm.2 ((f.isZero_iff c).1 h)) fun h => hm'.2 ((f.isZero_iff v).1 h))
  rw [hu, hu']
  exact ⟨e + e', by simp [mulVal, hmm]⟩

theorem Format.isZero_fmul {f : Format} {c v : Word} (draw : Word) (hc : f.isNonFinite c = false)
    (hv : f.isZero v = true) : f.isZero (f.fmul draw c v) = true := by
  obtain ⟨e, hu⟩ := mulVal_of_zero_factor hc (Format.isNonFinite_of_isZero hv) (.inr hv)
  rw [Format.fmul, hu, Format.roundVal, Format.roundQuot, f.roundMag_zero]
  exact f.isZero_pack_zero _

theorem Format.fma_posZero_of_zero_factor {f : Format} {c v : Word} (draw : Word) (hc : f.isNonFinite c = false)
    (hv : f.isNonFinite v = false) (h : f.isZero c = true ∨ f.isZero v = true) :
    f.fma draw c v Machine.posZero = Machine.posZero := by
  obtain ⟨e, hu⟩ := mulVal_of_zero_factor hc hv h
  rw [Format.fma, hu, f.unpack_posZero]
  refine (f.addFinite_zero_zero ..).trans ?_
  rw [Bool.and_false, f.pack_false_zero]

/-- The aligned integer has the sign of the value. -/
theorem alignTo_sign (base : ℤ) (neg : Bool) (m : ℕ) (e : ℤ) :
    (0 < alignTo base neg m e ↔ neg = false ∧ m ≠ 0) ∧ (alignTo base neg m e < 0 ↔ neg = true ∧ m ≠ 0) := by
  have hpow : 0 < 2 ^ (e - base).toNat := Nat.two_pow_pos _
  have hm : m * 2 ^ (e - base).toNat = 0 ↔ m = 0 := by simp
  unfold alignTo
  generalize m * 2 ^ (e - base).toNat = k at hm
  cases neg <;> simp <;> omega

theorem alignTo_zero (base : ℤ) (neg : Bool) (e : ℤ) : alignTo base neg 0 e = 0 := by cases neg <;> simp [alignTo]

/-- Every word is a NaN, an infinity or finite. -/
theorem Format.unpack_cases (f : Format) (w : Word) :
    f.unpack w = .nan ∨ f.unpack w = .inf (f.signOf w) ∨
      ∃ m e, f.unpack w = .fin (f.signOf w) m e ∧ (m = 0 ↔ f.isZero w = true) := by
  cases hw : f.isNonFinite w with
  | true => exact (Format.nonFinite_cases hw).imp_right .inl
  | false =>
    obtain ⟨m, e, hu, hm, -⟩ := Format.unpack_finite_cases hw
    exact .inr (.inr ⟨m, e, hu, by rw [f.isZero_iff, hm]⟩)

/-- `+0` over a number above zero is `+0`. -/
theorem Format.fdiv_posZero_of_pos {f : Format} {d : Word} (draw : Word) (h : f.flt Machine.posZero d = true) :
    f.fdiv draw Machine.posZero d = Machine.posZero := by
  unfold Format.flt at h
  rw [f.unpack_posZero] at h
  unfold Format.fdiv
  rw [f.unpack_posZero, ← f.pack_false_zero]
  rcases f.unpack_cases d with hu | hu | ⟨m, e, hu, -⟩ <;> rw [hu] at h ⊢
  · exact nomatch h
  · have hs : f.signOf d = false := by simpa [FVal.lt] using h
    rw [hs]
    rfl
  · simp only [FVal.lt, Option.getD_some, decide_eq_true_eq, alignTo_zero, (alignTo_sign _ _ _ _).1] at h
    simp [Format.divVal, h, Format.roundQuot]

/-- `+0` over a number below zero is `-0`. -/
theorem Format.fdiv_posZero_of_neg {f : Format} {d : Word} (draw : Word) (h : f.flt d Machine.posZero = true) :
    f.fdiv draw Machine.posZero d = f.pack true 0 := by
  unfold Format.flt at h
  rw [f.unpack_posZero] at h
  unfold Format.fdiv
  rw [f.unpack_posZero]
  rcases f.unpack_cases d with hu | hu | ⟨m, e, hu, -⟩ <;> rw [hu] at h ⊢
  · exact nomatch h
  · have hs : f.signOf d = true := by simpa [FVal.lt] using h
    rw [hs]
    rfl
  · simp only [FVal.lt, Option.getD_some, decide_eq_true_eq, alignTo_zero, (alignTo_sign _ _ _ _).2] at h
    simp [Format.divVal, h, Format.roundQuot]

/-! Subtracting `+0` changes no number. -/

/-- Magnitude bits are fixed by their value. -/
theorem Format.magVal_injective (f : Format) : Function.Injective f.magVal := by
  have key (E M i M' : ℕ) (hM : M < 2 * 2 ^ f.fracBits) (hM' : M' < 2 * 2 ^ f.fracBits)
      (hn : E = 0 ∨ 2 ^ f.fracBits ≤ M) (hn' : E + i = 0 ∨ 2 ^ f.fracBits ≤ M')
      (h : f.magVal (E * 2 ^ f.fracBits + M) = f.magVal ((E + i) * 2 ^ f.fracBits + M')) : i = 0 ∧ M = M' := by
    have hunits := congrArg (f.units E) h
    have hM0 : f.units E (f.magVal (E * 2 ^ f.fracBits + M)) = M := by simpa using f.units_magVal E 0 hM hn
    rw [hM0, f.units_magVal E i hM' hn'] at hunits
    have hnat : M = M' * 2 ^ i := by exact_mod_cast hunits
    cases i with
    | zero => exact ⟨rfl, by simpa using hnat⟩
    | succ i =>
      have h2 : 2 ≤ 2 ^ (i + 1) := le_self_pow₀ one_le_two i.succ_ne_zero
      have := Nat.mul_le_mul (hn'.resolve_left (by omega)) h2
      omega
  intro k k' h
  obtain ⟨E, M, rfl, hM, hn⟩ := f.mag_decomp k
  obtain ⟨E', M', rfl, hM', hn'⟩ := f.mag_decomp k'
  rcases Nat.le_total E E' with hE | hE
  · obtain ⟨i, rfl⟩ := Nat.exists_eq_add_of_le hE
    obtain ⟨rfl, rfl⟩ := key E M i M' hM hM' hn hn' h
    rfl
  · obtain ⟨i, rfl⟩ := Nat.exists_eq_add_of_le hE
    obtain ⟨rfl, rfl⟩ := key E' M' i M hM' hM hn' hn h.symm
    rfl

/-- The sign of an encoding of a number that is not zero is the sign of the number. -/
theorem signOf_of_toRat {f : Format} {w : Word} {x : ℚ} (h : f.toRat w = some x) (hx : x ≠ 0) :
    f.signOf w = decide (x < 0) := by
  obtain ⟨-, rfl⟩ := Format.toRat_some h
  have hpos : 0 < f.magVal (f.magOf w) := lt_of_le_of_ne (f.magVal_nonneg _) fun h0 => hx (by rw [← h0, mul_zero])
  simp only [sign_mul_neg_iff _ hpos, Bool.decide_eq_true]

/-- A word of the format is fixed by its number and, for a zero, its sign. -/
theorem eq_of_toRat_eq {f : Format} {v w : Word} {x : ℚ} (hv : f.Fits v) (hw : f.Fits w) (hvx : f.toRat v = some x)
    (hwx : f.toRat w = some x) (hsign : f.signOf v = f.signOf w) : v = w := by
  refine Format.eq_of_sign_mag hv hw hsign (f.magVal_injective ?_)
  have h := (Format.toRat_some hvx).2.symm.trans (Format.toRat_some hwx).2
  rw [hsign] at h
  cases hs : f.signOf w <;> simpa [hs] using h

theorem fsub_posZero {f : Format} {a : Word} (draw : Word) (hf : f.Fits a) (hnan : f.isNaN a = false) :
    f.fsub draw a Machine.posZero = a := by
  cases ha : f.isNonFinite a with
  | true =>
    have hinf : Spec.IsInf f a := ⟨ha, hnan⟩
    obtain ⟨-, hsub, -⟩ := arithmeticOnInfinities f draw a Machine.posZero a
    have h := (hsub hinf (.inl (Format.isNonFinite_of_isZero f.isZero_posZero))).1
    refine h.trans (Eq.trans ?_ (Format.pack_signOf_magOf hf))
    simp only [Format.isNonFinite, Format.isNaN, decide_eq_true_eq, decide_eq_false_iff_not] at ha hnan
    rw [show f.magOf a = f.infMag by omega]
  | false =>
    have hx := Format.toRat_eq ha
    obtain ⟨hnear, hsign, hzero⟩ := correctlyRounded_fsub draw hx (toRat_posZero f)
    rw [sub_zero] at hnear hsign hzero
    have hw := toRat_of_nearestEven hnear ⟨a, hx⟩
    refine eq_of_toRat_eq hnear.fits hf hw hx ?_
    rcases eq_or_ne ((if f.signOf a then -1 else 1) * f.magVal (f.magOf a)) 0 with h0 | h0
    · rw [hzero h0, f.signOf_pack _ f.signMag_pos, ← f.pack_false_zero, f.signOf_pack _ f.signMag_pos]
      simp
    · exact (hsign h0).trans (signOf_of_toRat hx h0).symm

end Sys2Proof
end


-- ==== Proofs: the values FILTER answers ====
section
/-! PROOFS. NaN outputs, a zero `den[0]`, non-finite outputs, the sign of the accumulator, zero products and a single
coefficient (R10, R85 to R91). -/

namespace Sys2Proof.Machine

open Spec

/-! What a FILTER answers, and a zero `den[0]`. -/

/-- The value of a FILTER that answers OK. -/
theorem eq_filterResult_of_answer {s t : State} {v y : Word} (h : exec (.filter v) s = .next t)
    (hr : t.rsp = some ⟨.ok, some y⟩) : y = filterResult v s := by
  rcases Bool.eq_false_or_eq_true s.configured with hc | hc
  · obtain rfl := next_unique h (execFilter_configured v hc)
    cases hr
    rfl
  · obtain rfl := next_unique h (execFilter_notConfigured v hc)
    exact nomatch hr

/-- Settles O42 (`filterResult_good`); the draw is a quiet NaN by its definition. -/
theorem filterNaNIsTheDraw : Obligations.FilterNaNIsTheDraw := by
  unfold Obligations.FilterNaNIsTheDraw
  intro s t v y h hr
  obtain rfl := eq_filterResult_of_answer h hr
  obtain ⟨hfits, hdraw⟩ := filterResult_good v s
  refine ⟨hfits, fun hnan => ⟨hdraw hnan, ?_⟩⟩
  rw [hdraw hnan]
  exact isQuietNaN_nanDraw s

/-- The quotient by a zero (R87): an infinity, or the draw. -/
theorem fdiv_zero_divisor {f : Format} {a b : Word} (draw : Word) (hb : f.isZero b = true) :
    (f.isZero a = false → f.isNaN a = false → f.fdiv draw a b = f.pack (f.signOf a ^^ f.signOf b) f.infMag) ∧
      (f.isZero a = true ∨ f.isNaN a = true → f.fdiv draw a b = draw) := by
  refine ⟨fun hzero hnan => ?_, fun h => h.elim (fun h => Format.fdiv_zero_zero draw h hb)
    fun h => Format.fdiv_of_nan draw (.inl h)⟩
  cases ha : f.isNonFinite a with
  | true => exact (Format.fdiv_of_inf draw ⟨ha, hnan⟩ (Format.isNonFinite_of_isZero hb)).1
  | false => exact Format.fdiv_of_zero_divisor draw ha hzero hb

/-- Settles O43: FILTER divides its accumulator by the zero last (`fdiv_zero_divisor`). -/
theorem zeroDivisor : Obligations.ZeroDivisor := by
  unfold Obligations.ZeroDivisor
  intro s v hc hzero acc
  obtain ⟨hinf, hdraw⟩ := fdiv_zero_divisor (a := acc) (nanDraw s) hzero
  exact ⟨filterResult v s, execFilter_configured v hc, rfl, hinf, hdraw⟩

/-- Settles O44: the premise is `Latched`, and so is every state a FILTER leaves. -/
theorem nonFiniteOutputsLatch : Obligations.NonFiniteOutputsLatch := by
  unfold Obligations.NonFiniteOutputsLatch
  intro s k w hs hn hc hdiv hk hyh hw vs v
  obtain ⟨-, -, hden, -⟩ := hs
  have hlatched : Latched s := ⟨hc, hdiv, k, w, by rwa [hden], hyh, hw⟩
  exact hlatched.runInstrs_filter vs v

/-! The accumulator is not `-0` (R86). -/

/-- The word is not `-0`. -/
def NotMinusZero (f : Format) (w : Word) : Prop := f.signOf w = true → f.magOf w ≠ 0

theorem NotMinusZero.ne {f : Format} {w : Word} (h : NotMinusZero f w) : w ≠ f.pack true 0 := by
  rintro rfl
  exact h (f.signOf_pack true f.signMag_pos) (f.magOf_pack true f.signMag_pos)

theorem notMinusZero_posZero (f : Format) : NotMinusZero f posZero := fun h => by
  rw [← f.pack_false_zero, f.signOf_pack false f.signMag_pos] at h
  exact nomatch h

theorem notMinusZero_of_nonFinite {f : Format} {w : Word} (h : f.isNonFinite w = true) : NotMinusZero f w := fun _ h0 => by
  rw [Format.isNonFinite, h0, decide_eq_true_eq] at h
  exact f.infMag_pos.not_ge h

/-- A magnitude of at least one unit does not round to zero. -/
theorem roundMag_ne_zero (f : Format) {n : ℕ} {e : ℤ} (hn : n ≠ 0) (he : f.lsbExp ≤ e) : f.roundMag n 1 e ≠ 0 := by
  obtain ⟨E, M, h, hmag⟩ := f.exists_roundsTo e hn one_ne_zero
  rw [hmag, Nat.min_def]
  split
  · exact f.infMag_pos.ne'
  · intro h0
    obtain ⟨hE0, rfl⟩ := Nat.add_eq_zero_iff.1 h0
    obtain rfl : E = 0 := (Nat.mul_eq_zero.1 hE0).resolve_right (Nat.two_pow_pos _).ne'
    have hhalf := (abs_le.1 h.half).1
    have hone : (1 : ℚ) ≤ f.units 0 ((n : ℚ) / (1 : ℕ) * 2 ^ e) := by
      have hnq : (1 : ℚ) ≤ n := by exact_mod_cast Nat.one_le_iff_ne_zero.2 hn
      have hpow : (2 : ℚ) ^ f.lsbExp ≤ 2 ^ e := zpow_le_zpow_right₀ (by norm_num) he
      rw [Format.units, le_div_iff₀ (by positivity)]
      simp only [Nat.cast_one, div_one, Nat.cast_zero, add_zero, one_mul]
      nlinarith [show (0 : ℚ) < 2 ^ e by positivity]
    push_cast at hhalf
    linarith

/-- Adding to a word that is not `-0` gives no `-0`: a sum of opposite values is `+0`, any other is at least one unit. -/
theorem notMinusZero_fadd {f : Format} {draw a : Word} (hdraw : f.isNaN draw = true) (ha : NotMinusZero f a) (b : Word) :
    NotMinusZero f (f.fadd draw a b) := by
  by_cases hfin : f.isNonFinite a = true ∨ f.isNonFinite b = true
  · exact notMinusZero_of_nonFinite (fadd_nonFinite hdraw hfin)
  · rw [not_or, Bool.not_eq_true, Bool.not_eq_true] at hfin
    obtain ⟨m, e, hua, hm, he⟩ := Format.unpack_finite_cases hfin.1
    obtain ⟨m', e', hub, -, he'⟩ := Format.unpack_finite_cases hfin.2
    rw [Format.fadd, hua, hub, Format.addVal, Format.addFinite]
    split
    next hs =>
      have hsign : (f.signOf a && f.signOf b) = false := by
        by_contra hboth
        rw [Bool.not_eq_false, Bool.and_eq_true] at hboth
        have h1 := (alignTo_sign (min e e') (f.signOf a) m e).2.2 ⟨hboth.1, fun h0 => ha hboth.1 (hm.1 h0)⟩
        have h2 := mt (alignTo_sign (min e e') (f.signOf b) m' e').1.1 fun h => nomatch hboth.2.symm.trans h.1
        omega
      rw [hsign, f.pack_false_zero]
      exact notMinusZero_posZero f
    next hs =>
      intro _
      rw [Format.roundQuot, f.magOf_pack _ (f.roundMag_lt _ _ _)]
      exact roundMag_ne_zero f (Int.natAbs_ne_zero.2 hs) (le_min he he')

theorem notMinusZero_fsub {f : Format} {draw a : Word} (hdraw : f.isNaN draw = true) (ha : NotMinusZero f a) (b : Word) :
    NotMinusZero f (f.fsub draw a b) := by
  rw [f.fsub_eq_fadd_fneg]
  exact notMinusZero_fadd hdraw ha _

/-- Settles O46: every operation on the accumulator adds to it or subtracts from it, and it starts from `+0`. -/
theorem unfusedAccumulatorIsNeverMinusZero : Obligations.UnfusedAccumulatorIsNeverMinusZero := by
  unfold Obligations.UnfusedAccumulatorIsNeverMinusZero
  intro f bits g num den xs yh
  have hdraw := f.isNaN_quietNaN bits
  have hadd (a c v : Word) (ha : NotMinusZero f a) :
      NotMinusZero f (macAdd (Arith.ieee f (f.quietNaN bits)) false a c v) := notMinusZero_fadd hdraw ha _
  have hsub (a b : Word) (ha : NotMinusZero f a) : NotMinusZero f (f.fsub (f.quietNaN bits) a b) :=
    notMinusZero_fsub hdraw ha b
  exact ⟨(macSum_induction _ _ (NotMinusZero f) hadd num xs posZero (notMinusZero_posZero f)).ne,
    (filterAcc_induction (Arith.ieee f (f.quietNaN bits)) false g (NotMinusZero f) (notMinusZero_posZero f) hadd
      (fun a c v ha => hsub a _ ha) (fun a b ha _ => hsub a b ha) num den xs yh).ne⟩

/-- Settles O47: the exact product `-2^(-200)` is rounded only with the sum, to `-0`. -/
theorem fusedAccumulatorCanBeMinusZero : Obligations.FusedAccumulatorCanBeMinusZero := by
  unfold Obligations.FusedAccumulatorCanBeMinusZero
  intro draw
  have hprod : mulVal (Format.unpack .binary32 0x0D800000#64) (Format.unpack .binary32 0x8D800000#64) =
      .fin true (2 ^ 46) (-246) := by decide
  show Format.addVal .binary32 draw (mulVal (Format.unpack .binary32 0x0D800000#64) (Format.unpack .binary32 0x8D800000#64))
    (Format.unpack .binary32 posZero) = _
  rw [hprod, Format.unpack_posZero]
  show Format.addFinite .binary32 true (2 ^ 46) (-246) false 0 (-149) = _
  decide

/-! Zero products (R85, R91). -/

/-- A fold whose every step keeps the start keeps it. -/
theorem foldl_eq_self {α β : Type} {f : β → α → β} {b : β} {l : List α} (h : ∀ x ∈ l, f b x = b) : l.foldl f b = b := by
  induction l with
  | nil => rfl
  | cons x xs ih =>
    rw [List.foldl_cons, h x List.mem_cons_self]
    exact ih fun y hy => h y (List.mem_cons_of_mem _ hy)

section ZeroProducts

variable {f : Format} (draw : Word)

theorem fsub_posZero_of_isZero {p : Word} (hp : f.isZero p = true) : f.fsub draw posZero p = posZero := by
  rw [f.fsub_eq_fadd_fneg]
  exact Format.fadd_posZero_of_isZero draw ((f.isZero_fneg p).trans hp)

theorem macAdd_posZero {fused : Bool} {c v : Word} (h : ZeroProduct f draw fused c v) :
    macAdd (Arith.ieee f draw) fused posZero c v = posZero := by
  cases fused with
  | false => exact Format.fadd_posZero_of_isZero draw h
  | true => exact Format.fma_posZero_of_zero_factor draw h.1 h.2.1 h.2.2

theorem macSub_posZero {fused : Bool} {c v : Word} (h : ZeroProduct f draw fused c v) :
    macSub (Arith.ieee f draw) fused posZero c v = posZero := by
  cases fused with
  | false => exact fsub_posZero_of_isZero draw h
  | true =>
    obtain ⟨hc, hv, hzero⟩ := h
    exact Format.fma_posZero_of_zero_factor draw ((f.isNonFinite_fneg c).trans hc) hv
      (hzero.imp_left (f.isZero_fneg c).trans)

/-- With zero products only, the accumulator stays `+0`. -/
theorem filterAcc_eq_posZero {fused : Bool} (g : FbGrouping) {num den xs yh : List Word}
    (hff : ∀ p ∈ num.zip xs, ZeroProduct f draw fused p.1 p.2)
    (hfb : ∀ p ∈ den.tail.zip yh, ZeroProduct f draw fused p.1 p.2) :
    filterAcc (Arith.ieee f draw) fused g num den xs yh = posZero := by
  have hsum {cs vs : List Word} (h : ∀ p ∈ cs.zip vs, ZeroProduct f draw fused p.1 p.2) :
      macSum (Arith.ieee f draw) fused posZero cs vs = posZero := foldl_eq_self fun p hp => macAdd_posZero draw (h p hp)
  show subtractFeedback _ fused g (macSum (Arith.ieee f draw) fused posZero num xs) den yh = posZero
  rw [hsum hff]
  cases g with
  | perTerm => exact foldl_eq_self fun p hp => macSub_posZero draw (hfb p hp)
  | grouped => exact (congrArg (f.fsub draw posZero) (hsum hfb)).trans (fsub_posZero_of_isZero draw f.isZero_posZero)

end ZeroProducts

/-- Settles O48: the accumulator is `+0` (`filterAcc_eq_posZero`), and the division gives it the sign of `den[0]`. -/
theorem zeroProductsGiveASignedZero : Obligations.ZeroProductsGiveASignedZero := by
  unfold Obligations.ZeroProductsGiveASignedZero
  intro f draw fused g num den xs yh hff hfb
  have hacc := filterAcc_eq_posZero draw g hff hfb
  refine ⟨hacc, fun hpos => ?_, fun hneg => ?_⟩
  · rw [filterOutput, hacc]
    exact Format.fdiv_posZero_of_pos draw hpos
  · rw [filterOutput, hacc]
    exact Format.fdiv_posZero_of_neg draw hneg

/-- A finite coefficient times a zero sample is a zero product, fused or not. -/
theorem zeroProduct_of_isZero {f : Format} (draw : Word) (fused : Bool) {c v : Word} (hc : f.isNonFinite c = false)
    (hv : f.isZero v = true) : ZeroProduct f draw fused c v := by
  cases fused with
  | false => exact Format.isZero_fmul draw hc hv
  | true => exact ⟨hc, Format.isNonFinite_of_isZero hv, .inr hv⟩

/-- A configured engine with finite coefficients and `den[0]` above zero that holds zeros only: `+0` in every output. -/
structure Silent (s : State) : Prop where
  legal : 1 ≤ s.build.n
  configured : s.configured = true
  finite : ∀ c ∈ s.num ++ s.den, s.build.fmt.isNonFinite c = false
  divisor : s.build.fmt.flt posZero (s.den.headD posZero) = true
  inputs : ∀ x ∈ s.xh, s.build.fmt.isZero x = true
  outputs : s.yh = List.replicate s.build.n posZero

/-- A zero sample meets only zero products. -/
theorem Silent.filterResult_eq {s : State} (h : Silent s) {z : Word} (hz : s.build.fmt.isZero z = true) :
    filterResult z s = posZero := by
  refine (zeroProductsGiveASignedZero s.build.fmt (nanDraw s) s.build.macFused s.build.fbGrouping s.num s.den _ _
    (fun p hp => ?_) fun p hp => ?_).2.1 h.divisor
  · obtain ⟨hc, hx⟩ := List.of_mem_zip (a := p.1) (b := p.2) hp
    refine zeroProduct_of_isZero _ _ (h.finite _ (List.mem_append_left _ hc)) ?_
    rcases mem_shiftIn hx with hx | hx
    · rwa [hx]
    · exact h.inputs _ hx
  · obtain ⟨hc, hy⟩ := List.of_mem_zip (a := p.1) (b := p.2) hp
    rw [h.outputs] at hy
    refine zeroProduct_of_isZero _ _ (h.finite _ (List.mem_append_right _ (List.mem_of_mem_tail hc))) ?_
    rw [List.eq_of_mem_replicate hy]
    exact Format.isZero_posZero _

/-- FILTER of a zero keeps the engine silent and answers `+0`. -/
theorem Silent.filter {s : State} (h : Silent s) {z : Word} (hz : s.build.fmt.isZero z = true) :
    ∃ t, exec (.filter z) s = .next t ∧ Silent t ∧ t.build = s.build ∧ t.rsp = some ⟨.ok, some posZero⟩ := by
  refine ⟨_, execFilter_configured z h.configured, ?_, rfl, ?_⟩
  · refine ⟨h.legal, h.configured, h.finite, h.divisor, fun x hx => ?_, ?_⟩
    · rcases mem_shiftIn hx with rfl | hx
      · exact hz
      · exact h.inputs x hx
    · show shiftIn (filterResult z s) s.yh = List.replicate s.build.n posZero
      rw [h.filterResult_eq hz, h.outputs, shiftIn_replicate h.legal]
  · rw [h.filterResult_eq hz]
    rfl

/-- Any run of zero samples keeps the engine silent. -/
theorem Silent.runInstrs_filter {zs : List Word} : ∀ {s : State}, Silent s → (∀ z ∈ zs, s.build.fmt.isZero z = true) →
    ∃ t, runInstrs (zs.map .filter) s = .next t ∧ Silent t ∧ t.build = s.build ∧
      (zs ≠ [] → t.rsp = some ⟨.ok, some posZero⟩) := by
  induction zs with
  | nil => exact fun {s} h _ => ⟨s, rfl, h, rfl, fun hne => absurd rfl hne⟩
  | cons z zs ih =>
    intro s h hzs
    obtain ⟨u, hu, hsilent, hbuild, hrsp⟩ := h.filter (hzs z List.mem_cons_self)
    obtain ⟨t, ht, hsilent', hbuild', hrsp'⟩ := ih hsilent fun x hx => by
      rw [hbuild]
      exact hzs x (List.mem_cons_of_mem _ hx)
    refine ⟨t, (runInstrs_cons hu).trans ht, hsilent', hbuild'.trans hbuild, fun _ => ?_⟩
    rcases eq_or_ne zs [] with rfl | hne
    · obtain rfl := next_unique ht rfl
      exact hrsp
    · exact hrsp' hne

/-- Settles O45: zero histories and these coefficients make a `Silent` engine, which zero samples keep so. -/
theorem zeroInputGivesZeroOutput : Obligations.ZeroInputGivesZeroOutput := by
  unfold Obligations.ZeroInputGivesZeroOutput
  intro s zs hs hc hfin hdiv hxh hyh hzs
  obtain ⟨⟨hn, -⟩, -⟩ := hs
  have hsilent : Silent s := ⟨hn, hc, hfin, hdiv, fun x hx => by
    rw [hxh] at hx
    rw [List.eq_of_mem_replicate hx]
    exact Format.isZero_posZero _, hyh⟩
  obtain ⟨t, ht, hsilent', hbuild, hrsp⟩ := hsilent.runInstrs_filter hzs
  exact ⟨t, ht, hbuild ▸ hsilent'.outputs, hrsp⟩

/-! One coefficient (R90). -/

/-- With no feedback coefficient the accumulator is the feed-forward sum: GROUPED subtracts `+0` from it. -/
theorem subtractFeedback_none {f : Format} {draw acc : Word} (fused : Bool) (g : FbGrouping) (d : Word) (yh : List Word)
    (hacc : f.GoodResult draw acc) : subtractFeedback (Arith.ieee f draw) fused g acc [d] yh = acc := by
  cases g with
  | perTerm => rfl
  | grouped =>
    show f.fsub draw acc posZero = acc
    cases hnan : f.isNaN acc with
    | false => exact fsub_posZero draw hacc.1 hnan
    | true =>
      obtain ⟨hinv, -⟩ := invalidOperationsGiveTheDraw f draw acc posZero posZero
      rw [(hinv (.inl hnan)).2.1, hacc.2 hnan]

/-- Settles O49: with one coefficient the loops have one step and no feedback (`subtractFeedback_none`). -/
theorem singleCoefficientFilter : Obligations.SingleCoefficientFilter := by
  unfold Obligations.SingleCoefficientFilter
  refine ⟨fun s v c d hs hn hc hnum hden => ?_, fun f draw a hf hnan => fsub_posZero draw hf hnan, fun order t ho => ?_⟩
  · intro A y
    obtain ⟨-, -, -, hxh, hyh, -⟩ := hs
    have hshift (w : Word) {l : List Word} (hl : l.length = s.build.n) : shiftIn w l = [w] := by
      rw [shiftIn, hl, hn, List.take_zero]
    have hresult : filterResult v s = y := by
      have hacc : filterAcc A s.build.macFused s.build.fbGrouping [c] [d] [v] s.yh =
          macAdd A s.build.macFused posZero c v :=
        subtractFeedback_none _ _ d _ (fits_macAdd (fits_nanDraw s) _ posZero c v)
      rw [filterResult, hshift v hxh, hnum, hden]
      exact congrArg (A.div · d) hacc
    rw [exec_filter, execFilter_configured v hc, hresult, hshift v hxh, hshift y hyh]
    rfl
  · unfold numCoefficients
    split <;> omega

end Sys2Proof.Machine
end


-- ==== Proofs: the circular buffer ====
section
/-! PROOFS. A ring engine (R33, R118) refines the engine of the logical histories, one command at a time. -/

namespace Sys2Proof.Machine

/-! The ring (R33) against the logical sequences. -/

/-- Every command keeps the shape of R19, whatever its data word is. -/
theorem shapeOk_exec {i : Instr} {s t : State} (h : ShapeOk s) (he : exec i s = .next t) : ShapeOk t := by
  obtain ⟨hlegal, hnum, hden, hx, hy, hsn, hsd⟩ := id h
  have hstaged {l : List (Option Word)} {b : List Word} (hl : l.length = s.build.n) (hb : l = b.map some) :
      b.length = s.build.n := by rwa [hb, List.length_map] at hl
  have hne {l : List Word} (hl : l.length = s.build.n) : l ≠ [] := by
    rintro rfl
    exact absurd hlegal.1 (hl ▸ Nat.not_succ_le_zero 0)
  rcases exec_inversion he with ⟨st, -, rfl⟩ | ⟨b, a, -, hb, ha, rfl⟩ | ⟨v, -, -, rfl⟩ | ⟨-, rfl⟩ | ⟨v, -, rfl⟩ |
    ⟨b, a, -, hb, ha, rfl⟩ | ⟨-, rfl⟩ | ⟨k, v, -, -, rfl⟩ | ⟨k, v, -, -, rfl⟩
  · exact h
  · exact ⟨hlegal, hstaged hsn hb, hstaged hsd ha, List.length_replicate, List.length_replicate, hsn, hsd⟩
  · exact ⟨hlegal, hnum, hden, (shiftIn_length _ (hne hx)).trans hx, (shiftIn_length _ (hne hy)).trans hy, hsn, hsd⟩
  · exact ⟨hlegal, hnum, hden, List.length_replicate, List.length_replicate, hsn, hsd⟩
  · exact ⟨hlegal, hnum, hden, List.length_replicate, List.length_replicate, hsn, hsd⟩
  · exact ⟨hlegal, hstaged hsn hb, hstaged hsd ha, hx, hy, hsn, hsd⟩
  · exact h
  · exact ⟨hlegal, hnum, hden, hx, hy, (List.length_set ..).trans hsn, hsd⟩
  · exact ⟨hlegal, hnum, hden, hx, hy, hsn, (List.length_set ..).trans hsd⟩

/-- A ring filled with one word is the histories filled with it. -/
theorem view_fill {s : State} (hn : 0 < s.build.n) (r : Ring) (v : Word) :
    RingEngine.view ⟨s, r.fill s.build.n v⟩ = fillHistories v s := by
  simp only [RingEngine.view, Ring.fill, ringView_replicate _ _ _ hn]
  rfl

theorem ringFill_ok {s : State} {r : Ring} (h : r.head < s.build.n) (v : Word) :
    RingEngine.Ok ⟨s, r.fill s.build.n v⟩ := ⟨List.length_replicate, List.length_replicate, h⟩

/-- The newest output of the ring is the newest of the logical sequence. -/
theorem lastOutput_view {c : RingEngine} (hn : 0 < c.shell.build.n) :
    lastOutput c.view = ringAt c.ring.ybuf c.shell.build.n c.ring.head 0 := by
  rw [lastOutput, RingEngine.view, State.withHistories_yh, List.headD_eq_head?_getD, List.head?_eq_getElem?,
    ringView_get _ _ _ _ hn, Option.getD_some]

/-- FILTER on the ring computes what FILTER computes on the logical sequences: inserting is the shift (R13), and the feedback is
read before the output is inserted (R118). -/
theorem ringFilter_snd {c : RingEngine} (hok : c.Ok) (hden : c.shell.den.length = c.shell.build.n) (v : Word) :
    (ringFilter v c).2 = filterResult v c.view := by
  obtain ⟨hxl, -, hhead⟩ := hok
  have hn : 0 < c.shell.build.n := Nat.zero_lt_of_lt hhead
  have hread := filterOutput_take_feedback (arithOf c.shell) c.shell.build.macFused c.shell.build.fbGrouping c.shell.num
    c.shell.den (shiftIn v (ringView c.ring.xbuf c.shell.build.n c.ring.head))
    (ringView c.ring.ybuf c.shell.build.n c.ring.head)
  rw [hden] at hread
  simp only [ringFilter]
  rw [ringView_insert _ _ _ v hn hxl, ring_feedback _ _ _ hn, hread]
  rfl

theorem ringFilter_view {c : RingEngine} (hok : c.Ok) (v : Word) :
    (ringFilter v c).1.view = (c.view.withHistories (shiftIn v c.view.xh) (shiftIn (ringFilter v c).2 c.view.yh)).nextDraw := by
  obtain ⟨hxl, hyl, hhead⟩ := hok
  have hn : 0 < c.shell.build.n := Nat.zero_lt_of_lt hhead
  simp only [ringFilter, RingEngine.view, State.nextDraw_build]
  rw [ringView_insert _ _ _ v hn hxl, ringView_insert _ _ _ _ hn hyl]
  rfl

theorem ringFilter_ok {c : RingEngine} (hok : c.Ok) (v : Word) : (ringFilter v c).1.Ok := by
  obtain ⟨hxl, hyl, hhead⟩ := hok
  exact ⟨(List.length_set ..).trans hxl, (List.length_set ..).trans hyl, Nat.mod_lt _ (Nat.zero_lt_of_lt hhead)⟩

/-- One command on a ring engine: the answer of the spec's engine on the logical histories, and again a ring engine. -/
theorem ringExec_refines {c : RingEngine} (hok : c.Ok) (hden : c.shell.den.length = c.shell.build.n) (i : Instr) :
    ∃ c', ringExec i c = .next c' ∧ exec i c.view = .next c'.view ∧ c'.Ok := by
  have hhead := hok.2.2
  have hn : 0 < c.shell.build.n := Nat.zero_lt_of_lt hhead
  cases i with
  | construct =>
    by_cases h : StageComplete c.shell
    · refine ⟨⟨respond .ok none (commitStaged c.shell), c.ring.fill c.shell.build.n posZero⟩, ?_, ?_, ringFill_ok hhead _⟩
      · simp only [ringExec, commit_of_complete h]
        rfl
      · rw [exec_construct, execConstruct, commit_of_complete (s := c.view) h]
        exact congrArg Host.Outcome.next (view_fill (s := respond .ok none (commitStaged c.shell)) hn c.ring posZero).symm
    · refine ⟨⟨reject .stageIncomplete c.shell, c.ring⟩, ?_, execConstruct_incomplete (s := c.view) h, hok⟩
      simp only [ringExec, (commit_eq_none_iff c.shell).2 h]
  | setCoeffs =>
    by_cases h : StageComplete c.shell
    · refine ⟨⟨respond .ok none (commitStaged c.shell), c.ring⟩, ?_, ?_, hok⟩
      · simp only [ringExec, execSetCoeffs, commit_of_complete h]
        rfl
      · rw [exec_setCoeffs, execSetCoeffs, commit_of_complete (s := c.view) h]
        rfl
    · refine ⟨⟨reject .stageIncomplete c.shell, c.ring⟩, ?_, execSetCoeffs_incomplete (s := c.view) h, hok⟩
      simp only [ringExec, execSetCoeffs_incomplete h]
      rfl
  | filter v =>
    rcases Bool.eq_false_or_eq_true c.shell.configured with h | h
    · refine ⟨⟨respond .ok (some (ringFilter v c).2) (ringFilter v c).1.shell, (ringFilter v c).1.ring⟩, if_pos h, ?_,
        ringFilter_ok hok v⟩
      have hview := ringFilter_view hok v
      rw [exec_filter, execFilter_configured (s := c.view) v h, ← ringFilter_snd hok hden, ← hview]
      rfl
    · exact ⟨⟨reject .notConfigured c.shell, c.ring⟩, by simp [ringExec, h], execFilter_notConfigured (s := c.view) v h, hok⟩
  | reset =>
    exact ⟨_, rfl, congrArg Host.Outcome.next (view_fill (s := respond .ok (some posZero) c.shell) hn c.ring posZero).symm,
      ringFill_ok hhead _⟩
  | fill v =>
    exact ⟨_, rfl, congrArg Host.Outcome.next (view_fill (s := respond .ok (some v) c.shell) hn c.ring v).symm,
      ringFill_ok hhead _⟩
  | getLast =>
    refine ⟨_, rfl, ?_, hok⟩
    rw [exec_getLast, execGetLast, lastOutput_view hn]
    rfl
  | stageNum k v =>
    rcases Nat.lt_or_ge k c.shell.build.n with h | h
    · exact ⟨⟨respond .ok none (c.shell.stageNumAt k v), c.ring⟩, by rw [ringExec, execStageNum_inRange v h]; rfl,
        execStageNum_inRange (s := c.view) v h, hok⟩
    · exact ⟨⟨reject .indexRange c.shell, c.ring⟩, by rw [ringExec, execStageNum_outOfRange v h]; rfl,
        execStageNum_outOfRange (s := c.view) v h, hok⟩
  | stageDen k v =>
    rcases Nat.lt_or_ge k c.shell.build.n with h | h
    · exact ⟨⟨respond .ok none (c.shell.stageDenAt k v), c.ring⟩, by rw [ringExec, execStageDen_inRange v h]; rfl,
        execStageDen_inRange (s := c.view) v h, hok⟩
    · exact ⟨⟨reject .indexRange c.shell, c.ring⟩, by rw [ringExec, execStageDen_outOfRange v h]; rfl,
        execStageDen_outOfRange (s := c.view) v h, hok⟩

/-- Settles O50: each command refines (`ringExec_refines`), and the spec's engine keeps its shape (`shapeOk_exec`). -/
theorem ringRefinesTheEngine : Obligations.RingRefinesTheEngine := by
  unfold Obligations.RingRefinesTheEngine
  intro c i hok hshape
  obtain ⟨-, -, hden, -⟩ := id hshape
  obtain ⟨c', hring, hexec, hok'⟩ := ringExec_refines hok hden i
  rw [hring]
  exact ⟨hexec, c', rfl, hok', shapeOk_exec hshape hexec⟩

end Sys2Proof.Machine
end


-- ==== Proofs: cascades ====
section
/-! PROOFS. Cascades (R47, R96, R97, R100): one transaction, the sample step of configured sections and its stop, CRESET and CFILL, and
any sequence of host commands. -/

namespace Sys2Proof.Machine

/-! One transaction with one section. -/

/-- The host issues a well-formed instruction: the section does what the instruction says, and the host reads its response. -/
theorem issue_eq {f : Format} {i : Instr} {s t : State} {r : Response} (hl : s.build.Legal) (hf : s.build.fmt = f)
    (hwf : i.WellFormed f = true) (ht : exec i s = .next t) (hr : t.rsp = some r) : issue i s = .next (t, some r) := by
  subst hf
  exact issue_of i s hl (decodeOfEncode _ i hwf) (portWord_of_fits (fits_encode hwf)) ht hr

theorem issue_wellFormed {f : Format} {i : Instr} {s : State} (hl : s.build.Legal) (hf : s.build.fmt = f)
    (hwf : i.WellFormed f = true) : ∃ t r, exec i s = .next t ∧ issue i s = .next (t, some r) := by
  obtain ⟨t, v, ht, hr, -⟩ := exec_answersWith i s
  exact ⟨t, _, ht, issue_eq hl hf hwf ht hr⟩

theorem wellFormed_filter {f : Format} {v : Word} (h : f.Fits v) : (Instr.filter v).WellFormed f = true := decide_eq_true h

/-- The same instruction to every section, where each answers. -/
theorem issueAll_eq_map {i : Instr} {φ : State → State} {ss : List State}
    (h : ∀ s ∈ ss, ∃ r, issue i s = .next (φ s, r)) : issueAll i ss = .next (ss.map φ) := by
  induction ss with
  | nil => rfl
  | cons s ss ih =>
    obtain ⟨r, hr⟩ := h s List.mem_cons_self
    rw [issueAll, hr]
    simp only [ih fun x hx => h x (List.mem_cons_of_mem _ hx)]
    rfl

/-- Settles O54: RESET and FILL answer every section (`issueAll_eq_map`), and do what they are defined to. -/
theorem cascadeResetAndFill : Obligations.CascadeResetAndFill := by
  unfold Obligations.CascadeResetAndFill
  intro f v ss hc hl hv
  obtain ⟨-, hfmt, -⟩ := hc
  exact ⟨issueAll_eq_map fun s hs => ⟨_, issue_eq (hl s hs) (hfmt s hs) rfl rfl rfl⟩,
    issueAll_eq_map fun s hs => ⟨_, issue_eq (hl s hs) (hfmt s hs) (decide_eq_true hv) rfl rfl⟩⟩

/-! The sample step (R97). -/

/-- A section of format `f` that meets the invariant. -/
def GoodSection (f : Format) (s : State) : Prop := EngineInv s ∧ s.build.fmt = f

theorem GoodSection.legal {f : Format} {s : State} (h : GoodSection f s) : s.build.Legal := by
  obtain ⟨⟨⟨hl, -⟩, -⟩, -⟩ := h
  exact hl

/-- The sections `ss` have stepped to `ts`, the first fed with `v` and each other with the output of the one before it; `ys` are
the outputs. -/
structure Stepped (v : Word) (ss ts : List State) (ys : List Word) : Prop where
  sections : ts.length = ss.length
  outputs : ys.length = ss.length
  step : ∀ (i : Nat) (s : State), ss[i]? = some s → ∃ t, ts[i]? = some t ∧
    exec (.filter ((v :: ys).getD i posZero)) s = .next t ∧ t.rsp = some ⟨.ok, ys[i]?⟩

theorem Stepped.nil (v : Word) : Stepped v [] [] [] := ⟨rfl, rfl, fun _ _ h => nomatch h⟩

/-- One section more in front, whose output is what the others are fed with. -/
theorem Stepped.cons {v y : Word} {s t : State} {ss ts : List State} {ys : List Word}
    (ht : exec (.filter v) s = .next t) (hr : t.rsp = some ⟨.ok, some y⟩) (h : Stepped y ss ts ys) :
    Stepped v (s :: ss) (t :: ts) (y :: ys) := by
  refine ⟨congrArg (· + 1) h.sections, congrArg (· + 1) h.outputs, fun i x hx => ?_⟩
  cases i with
  | zero =>
    cases hx
    exact ⟨t, rfl, ht, hr⟩
  | succ i => exact h.step i x hx

/-- Configured sections step one after another, and the sections after them are fed with the last output. -/
theorem cFilter_append {f : Format} {before : List State} : ∀ {v : Word}, f.Fits v →
    (∀ s ∈ before, GoodSection f s ∧ s.configured = true) →
    ∃ ts ys, Stepped v before ts ys ∧ f.Fits (ys.getLastD v) ∧
      ∀ rest c, cFilter (ys.getLastD v) rest = .next c →
        cFilter v (before ++ rest) = .next ⟨ts ++ c.sections, c.output⟩ := by
  induction before with
  | nil => exact fun {v} hv _ => ⟨[], [], .nil v, hv, fun rest c h => h⟩
  | cons s ss ih =>
    intro v hv hss
    obtain ⟨hgood, hconf⟩ := hss s List.mem_cons_self
    have hy : f.Fits (filterResult v s) := hgood.2 ▸ (filterResult_good v s).1
    have ht := execFilter_configured v hconf
    obtain ⟨ts, ys, hstep, hlast, hrest⟩ := ih hy fun x hx => hss x (List.mem_cons_of_mem _ hx)
    refine ⟨_, filterResult v s :: ys, hstep.cons ht rfl, ?_, fun rest c hc => ?_⟩
    · rwa [List.getLastD_cons]
    · rw [List.getLastD_cons] at hc
      rw [List.cons_append, cFilter, issue_eq hgood.legal hgood.2 (wellFormed_filter hv) ht rfl]
      simp only [hrest rest c hc]
      rfl

/-- Settles O51: all the sections step (`cFilter_append`), and no section is left to feed. -/
theorem cascadeStepIsTheHostSequence : Obligations.CascadeStepIsTheHostSequence := by
  unfold Obligations.CascadeStepIsTheHostSequence
  intro f v ss hc hss hv
  obtain ⟨hne, hfmt, -⟩ := hc
  obtain ⟨ts, ys, hstep, -, hrest⟩ := cFilter_append hv fun s hs => ⟨⟨(hss s hs).1, hfmt s hs⟩, (hss s hs).2⟩
  have hys : ys ≠ [] := fun h0 => hne (List.length_eq_zero_iff.1 (by rw [← hstep.outputs, h0]; rfl))
  refine ⟨ts, ys, hstep.sections, hstep.outputs, ?_, hstep.step⟩
  have h := hrest [] _ rfl
  rw [List.append_nil, List.append_nil] at h
  rw [h, List.getLast?_eq_some_getLast hys, List.getLastD_eq_getLast?, List.getLast?_eq_some_getLast hys]
  rfl

/-- Settles O52: the sections before the first rejection step (`cFilter_append`), and there the sequence stops. -/
theorem cascadeStopsAtTheFirstRejection : Obligations.CascadeStopsAtTheFirstRejection := by
  unfold Obligations.CascadeStopsAtTheFirstRejection
  intro f v before after s hc hinv hbefore hs hv
  obtain ⟨-, hfmt, -⟩ := hc
  have hgood (x : State) (hx : x ∈ before ++ s :: after) : GoodSection f x := ⟨hinv x hx, hfmt x hx⟩
  have hmem : s ∈ before ++ s :: after := List.mem_append_right _ List.mem_cons_self
  obtain ⟨ts, ys, hstep, hlast, hrest⟩ := cFilter_append hv fun x hx =>
    ⟨hgood x (List.mem_append_left _ hx), hbefore x hx⟩
  have hstop : cFilter (ys.getLastD v) (s :: after) = .next ⟨reject .notConfigured s :: after, none⟩ := by
    rw [cFilter, issue_eq (hgood s hmem).legal (hgood s hmem).2 (wellFormed_filter hlast)
      (execFilter_notConfigured _ hs) rfl]
  exact ⟨ts, ys, hstep.sections, hstep.outputs, hrest _ _ hstop, hstep.step⟩

/-! Commands to any sections in any order (R47, R97). -/

/-- A cascade whose every section meets the invariant. -/
def GoodCascade (f : Format) (ss : List State) : Prop := IsCascade f ss ∧ ∀ s ∈ ss, EngineInv s

theorem GoodCascade.good {f : Format} {ss : List State} (h : GoodCascade f ss) {k : Nat} {s : State}
    (hk : ss[k]? = some s) : GoodSection f s := by
  obtain ⟨⟨-, hfmt, -⟩, hinv⟩ := h
  exact ⟨hinv s (List.mem_of_getElem? hk), hfmt s (List.mem_of_getElem? hk)⟩

/-- A command to one section leaves a cascade. -/
theorem GoodCascade.set {f : Format} {ss : List State} (h : GoodCascade f ss) {k : Nat} {s t : State} {i : Instr}
    (hk : ss[k]? = some s) (hwf : i.WellFormed f = true) (ht : exec i s = .next t) : GoodCascade f (ss.set k t) := by
  obtain ⟨hinv, hf⟩ := h.good hk
  obtain ⟨hbuild, hsource, -⟩ := exec_keeps_build_source_inputs ht
  obtain ⟨⟨hne, hfmt, hnodup⟩, hall⟩ := h
  have hsources : (ss.set k t).map (·.source) = ss.map (·.source) := by
    obtain ⟨hlt, hget⟩ := List.getElem?_eq_some_iff.1 hk
    have hsame : (ss.map (·.source))[k]'(by simpa using hlt) = t.source := by rw [List.getElem_map, hget, hsource]
    rw [List.map_set, ← hsame, List.set_getElem_self]
  refine ⟨⟨by simpa using hne, fun x hx => ?_, by rwa [hsources]⟩, fun x hx => ?_⟩
  · rcases List.mem_or_eq_of_mem_set hx with hx | rfl
    · exact hfmt x hx
    · rw [hbuild, hf]
  · rcases List.mem_or_eq_of_mem_set hx with hx | rfl
    · exact hall x hx
    · exact engineInv_exec hinv (by rwa [hf]) ht

theorem issueAt_of_issue {i : Instr} {ss : List State} {k : Nat} {s t : State} {r : Option Response}
    (hk : ss[k]? = some s) (h : issue i s = .next (t, r)) : issueAt k i ss = .next (ss.set k t, r) := by
  rw [issueAt, hk]
  simp only [h]

/-- What one command of the host does to a cascade: its section does what the instruction says, the others are as they were. -/
theorem exists_issueAt {f : Format} {ss : List State} (h : GoodCascade f ss) (k : Nat) {i : Instr}
    (hwf : i.WellFormed f = true) : ∃ ts r, issueAt k i ss = .next (ts, r) ∧ ts.length = ss.length ∧ GoodCascade f ts ∧
      ∀ (j : Nat) (s : State), ss[j]? = some s → ∃ t, ts[j]? = some t ∧
        runInstrs (if k = j then [i] else []) s = .next t := by
  cases hk : ss[k]? with
  | none =>
    refine ⟨ss, none, by rw [issueAt, hk], rfl, h, fun j s hj => ⟨s, hj, ?_⟩⟩
    rw [if_neg fun heq => nomatch (heq ▸ hk).symm.trans hj]
    rfl
  | some s =>
    obtain ⟨-, hf⟩ := h.good hk
    obtain ⟨t, r, ht, hissue⟩ := issue_wellFormed (h.good hk).legal hf hwf
    refine ⟨_, _, issueAt_of_issue hk hissue, List.length_set, h.set hk hwf ht, fun j x hj => ?_⟩
    rcases eq_or_ne k j with rfl | hne
    · obtain rfl := Option.some.inj (hk.symm.trans hj)
      obtain ⟨hlt, -⟩ := List.getElem?_eq_some_iff.1 hk
      exact ⟨t, List.getElem?_set_self hlt, by rw [if_pos rfl, runInstrs_singleton, ht]⟩
    · exact ⟨x, by rw [List.getElem?_set_ne hne, hj], by rw [if_neg hne]; rfl⟩

/-- A run of host commands: each section does its own instructions, in order. -/
theorem exists_hostRun {f : Format} {cs : List (Nat × Instr)} : ∀ {ss : List State}, GoodCascade f ss →
    (∀ c ∈ cs, c.2.WellFormed f = true) →
    ∃ ts rs, hostRun cs ss = .next (ts, rs) ∧ ts.length = ss.length ∧ rs.length = cs.length ∧ GoodCascade f ts ∧
      ∀ (k : Nat) (s : State), ss[k]? = some s → ∃ t, ts[k]? = some t ∧
        runInstrs ((cs.filter fun c => c.1 = k).map (·.2)) s = .next t := by
  induction cs with
  | nil => exact fun {ss} h _ => ⟨ss, [], rfl, rfl, rfl, h, fun k s hk => ⟨s, hk, rfl⟩⟩
  | cons c cs ih =>
    intro ss h hwf
    obtain ⟨k, i⟩ := c
    obtain ⟨us, r, hissue, hlen, hgood, hown⟩ := exists_issueAt h k (hwf _ List.mem_cons_self)
    obtain ⟨ts, rs, hrun, hlen', hrs, hgood', hown'⟩ := ih hgood fun c hc => hwf c (List.mem_cons_of_mem _ hc)
    refine ⟨ts, r :: rs, ?_, hlen'.trans hlen, congrArg (· + 1) hrs, hgood', fun j s hj => ?_⟩
    · rw [hostRun, hissue]
      simp only [hrun]
    · obtain ⟨u, hu, hfirst⟩ := hown j s hj
      obtain ⟨t, ht, hrest⟩ := hown' j u hu
      refine ⟨t, ht, ?_⟩
      have happend := (runInstrs_append (js := (cs.filter fun c => c.1 = j).map (·.2)) hfirst).trans hrest
      rw [← happend, List.filter_cons]
      by_cases hkj : k = j <;> simp [hkj]

/-- A cascade step of the sections after `done`, these in front of it. -/
def behind (done : List State) : Host.Outcome CascadeStep Fault Refusal → Host.Outcome CascadeStep Fault Refusal
  | .next c => .next ⟨done ++ c.sections, c.output⟩
  | .fault x => .fault x
  | .refused x => .refused x

theorem behind_append (done more : List State) (o : Host.Outcome CascadeStep Fault Refusal) :
    behind (done ++ more) o = behind done (behind more o) := by
  cases o <;> simp [behind]

/-- With no commands between, the step amid other commands is the plain one. -/
theorem cFilterAmid_replicate_nil (rest : List State) : ∀ (v : Word) (done : List State),
    cFilterAmid done.length v (List.replicate rest.length []) (done ++ rest) = behind done (cFilter v rest) := by
  induction rest with
  | nil => exact fun v done => rfl
  | cons s rest ih =>
    intro v done
    have hget : (done ++ s :: rest)[done.length]? = some s := by simp
    have hset (t : State) : (done ++ s :: rest).set done.length t = (done ++ [t]) ++ rest := by simp
    have hnext (t : State) (y : Word) := ih y (done ++ [t])
    simp only [List.length_append, List.length_singleton, behind_append] at hnext
    rw [List.length_cons, List.replicate_succ]
    cases hissue : issue (.filter v) s with
    | next p =>
      obtain ⟨t, r⟩ := p
      simp only [cFilterAmid, hostRun, issueAt_of_issue hget hissue, cFilter, hissue, hset]
      obtain _ | ⟨st, _ | y⟩ := r
      · simp [behind]
      · cases st <;> simp [behind]
      · cases st
        case ok =>
          simp only [hnext]
          cases cFilter y rest <;> simp [behind]
        all_goals simp [behind]
    | fault x => simp [cFilterAmid, hostRun, issueAt, cFilter, hissue, behind]
    | refused x => simp [cFilterAmid, hostRun, issueAt, cFilter, hissue, behind]

/-- Settles O53: any run (`exists_hostRun`), the run with nothing between (`cFilterAmid_replicate_nil`), and one section of a
step amid other commands, by the outcomes of its FILTER. -/
theorem cascadeCommandsObeyTheirOwnRules : Obligations.CascadeCommandsObeyTheirOwnRules := by
  unfold Obligations.CascadeCommandsObeyTheirOwnRules
  refine ⟨fun f ss cs hc hinv hwf => ?_, fun v ss => ?_, fun f k v others between ss ts rs s hc hinv hv hwf hrun hk => ?_⟩
  · obtain ⟨ts, rs, hrun, hlen, hrs, ⟨hcascade, hgood⟩, hown⟩ := exists_hostRun ⟨hc, hinv⟩ hwf
    exact ⟨ts, rs, hrun, hlen, hrs, hcascade, hgood, hown⟩
  · refine (cFilterAmid_replicate_nil ss v []).trans ?_
    cases cFilter v ss <;> rfl
  · obtain ⟨ts', rs', hrun', -, -, hgood, -⟩ := exists_hostRun ⟨hc, hinv⟩ hwf
    cases hrun'.symm.trans hrun
    obtain ⟨-, hf⟩ := hgood.good hk
    have hissue {t : State} {r : Response} (ht : exec (.filter v) s = .next t) (hr : t.rsp = some r) :=
      issueAt_of_issue hk (issue_eq (hgood.good hk).legal hf (wellFormed_filter hv) ht hr)
    refine ⟨fun hconf => ⟨_, _, execFilter_configured v hconf, rfl, ?_⟩, fun hconf => ?_⟩
    · rw [cFilterAmid, hrun]
      simp only [hissue (execFilter_configured v hconf) rfl]
    · rw [cFilterAmid, hrun]
      simp only [hissue (execFilter_notConfigured v hconf) rfl]
      rfl

end Sys2Proof.Machine
end


-- ==== Proofs: the designer ====
section
/-! PROOFS. The designer's checks and lengths (R59, R61, R73, R74), its leading denominator (R69, R71) and its zeros (R68). -/

namespace Sys2Proof.Machine

/-! The designer's checks (R73, R74), and the lengths of what it computes (R61, R64 to R69). -/

/-- What a call must meet for the designer to get past the checks of R73. -/
structure DesignCall.Valid (c : DesignCall) : Prop where
  order : c.order ≠ 0
  sampleTime : Format.binary64.flt posZero c.sampleTime = true
  edges : c.type.isBand = true → Format.binary64.fle c.edge2 c.edge1 = false

/-- A valid call has the free set above Nyquist (R74) and the computed one below. -/
theorem design_of_valid (L : HostLib) (P : DesignerParams) {c : DesignCall} (h : c.Valid) : design L P c =
    if c.aboveNyquist L then .ok (nyquistSet L P c)
    else coefficientsOf L P (referenceFrequency L P c) c.sampleTime (discreteZeros L P c) (discretePoles L P c) := by
  have hedges : (c.type.isBand && Format.binary64.fle c.edge2 c.edge1) = false := by
    rw [Bool.and_eq_false_iff]
    cases hb : c.type.isBand with
    | false => exact .inl rfl
    | true => exact .inr (h.edges hb)
  simp [design, h.order, h.sampleTime, hedges]

/-- A call that is not valid is refused. -/
theorem design_of_not_valid (L : HostLib) (P : DesignerParams) {c : DesignCall} (h : ¬ c.Valid) :
    ∃ r, design L P c = .error r := by
  unfold design
  split_ifs with horder hts hedges
  · exact ⟨_, rfl⟩
  · exact ⟨_, rfl⟩
  · exact ⟨_, rfl⟩
  all_goals
    refine absurd ⟨horder, by simpa using hts, fun hb => ?_⟩ h
    simpa [hb] using hedges

/-- A call with a result is valid. -/
theorem valid_of_design {L : HostLib} {P : DesignerParams} {c : DesignCall} {r : CoefficientSet}
    (h : design L P c = .ok r) : c.Valid := by
  by_contra hv
  obtain ⟨e, he⟩ := design_of_not_valid L P hv
  exact nomatch h.symm.trans he

/-- Steps 6 to 8 where the residual is within the tolerance: the real parts, the numerator scaled, highest power first. -/
theorem coefficientsOf_ok {L : HostLib} {P : DesignerParams} {ω ts : Word} {zeros poles : List Cplx} {r : CoefficientSet}
    (h : coefficientsOf L P ω ts zeros poles = .ok r) :
    r.num = (((expandRoots L.arith zeros).map Cplx.re).map fun x => L.arith.div x
        (gainAt L ω ts ((expandRoots L.arith zeros).map Cplx.re) ((expandRoots L.arith poles).map Cplx.re))).reverse ∧
      r.den = ((expandRoots L.arith poles).map Cplx.re).reverse := by
  simp only [coefficientsOf] at h
  split at h
  · cases h
    exact ⟨rfl, rfl⟩
  · exact nomatch h

/-- With no tolerance set the residual is not checked (R69). -/
theorem exists_coefficientsOf (L : HostLib) {P : DesignerParams} (ω ts : Word) (zeros poles : List Cplx)
    (h : P.imagTol = none) : ∃ r, coefficientsOf L P ω ts zeros poles = .ok r := by
  simp [coefficientsOf, withinTolerance, h]

/-- A result is the free set of R74, or the coefficients of R69 to R71. -/
theorem design_ok_cases {L : HostLib} {P : DesignerParams} {c : DesignCall} {r : CoefficientSet}
    (h : design L P c = .ok r) : (c.aboveNyquist L = true ∧ r = nyquistSet L P c) ∨
      (c.aboveNyquist L = false ∧ coefficientsOf L P (referenceFrequency L P c) c.sampleTime (discreteZeros L P c)
        (discretePoles L P c) = .ok r) := by
  rw [design_of_valid L P (valid_of_design h)] at h
  cases ha : c.aboveNyquist L with
  | true =>
    rw [ha, if_pos rfl] at h
    exact .inl ⟨rfl, (Except.ok.inj h).symm⟩
  | false =>
    rw [ha, if_neg Bool.false_ne_true] at h
    exact .inr ⟨rfl, h⟩

theorem repeatList_length {α : Type} (n : Nat) (l : List α) : (repeatList n l).length = n * l.length := by
  simp [repeatList]

theorem discreteZeros_length (L : HostLib) (P : DesignerParams) (c : DesignCall) :
    (discreteZeros L P c).length + 1 = numCoefficients c.order c.type := by
  unfold discreteZeros numCoefficients
  cases c.type <;> simp [FilterType.isBand, repeatList_length, Nat.mul_comm]

theorem bandpassPoles_length (L : HostLib) (b ω2 : Word) (q : Cplx) : (bandpassPoles L b ω2 q).length = 2 := rfl

theorem bandstopPoles_length (L : HostLib) (m : BsPoleMap) (b ω2 : Word) (q : Cplx) :
    (bandstopPoles L m b ω2 q).length = 2 := rfl

theorem discretePoles_length (L : HostLib) (P : DesignerParams) (c : DesignCall) :
    (discretePoles L P c).length + 1 = numCoefficients c.order c.type := by
  unfold discretePoles analogPoles numCoefficients
  cases c.type <;>
  simp [FilterType.isBand, prototypePoles, bandpassPoles_length, bandstopPoles_length, Function.comp_def, Nat.mul_comm]

theorem design_length {L : HostLib} {P : DesignerParams} {c : DesignCall} {r : CoefficientSet}
    (h : design L P c = .ok r) :
    r.num.length = numCoefficients c.order c.type ∧ r.den.length = numCoefficients c.order c.type := by
  rcases design_ok_cases h with ⟨-, rfl⟩ | ⟨-, h⟩
  · exact ⟨by simp [nyquistSet], by simp [nyquistSet]⟩
  · obtain ⟨hnum, hden⟩ := coefficientsOf_ok h
    rw [hnum, hden]
    simp only [List.length_reverse, List.length_map, expandRoots_length]
    exact ⟨discreteZeros_length L P c, discretePoles_length L P c⟩

/-- Settles O55: the lengths are those of the root lists (`design_length`); where a type has one edge, no step reads the
second. -/
theorem designHasTheRightLengths : Obligations.DesignHasTheRightLengths := by
  unfold Obligations.DesignHasTheRightLengths
  refine ⟨fun L P c e hc => ?_, fun L P c r h => ?_⟩
  · obtain ⟨order, type, ts, edge1, edge2⟩ := c
    rcases hc with hc | hc <;>
    · obtain rfl := hc
      rfl
  · obtain ⟨hnum, hden⟩ := design_length h
    refine ⟨hnum.trans ?_, hden.trans hnum.symm⟩
    unfold numCoefficients
    cases c.type <;> rfl

/-- `a <= b` and `b < a` exclude each other. -/
theorem flt_eq_false_of_fle {f : Format} {a b : Word} (h : f.fle a b = true) : f.flt b a = false := by
  unfold Format.fle at h
  unfold Format.flt
  cases hlt : (f.unpack b).lt (f.unpack a) with
  | none => rfl
  | some x =>
    rw [hlt] at h
    simpa using h

/-- Settles O56: the checks are those of `DesignCall.Valid`, and with no tolerance nothing else is refused. -/
theorem designRefusesInvalidCalls : Obligations.DesignRefusesInvalidCalls := by
  unfold Obligations.DesignRefusesInvalidCalls
  refine fun L P c => ⟨fun h => design_of_not_valid L P fun hv => ?_, fun htol horder hts hedges => ?_⟩
  · rcases h with h | h | ⟨hb, h⟩
    · exact hv.order h
    · exact nomatch hv.sampleTime.symm.trans (flt_eq_false_of_fle h)
    · exact nomatch h.symm.trans (hv.edges hb)
  · rw [design_of_valid L P ⟨horder, hts, hedges⟩]
    split
    · exact ⟨_, rfl⟩
    · exact exists_coefficientsOf L _ _ _ _ htol

/-- The free values that make these sets the results above Nyquist: each coefficient is the one of its set. -/
def nyquistOf (sets : DesignerParams → DesignCall → CoefficientSet) : DesignerParams → DesignCall → Bool → Nat → Word :=
  fun P c isNum k => (if isNum then (sets P c).num else (sets P c).den).getD k posZero

/-- A list is its entries in order. -/
theorem map_getD_range {l : List Word} {n : Nat} (h : l.length = n) : (List.range n).map (l.getD · posZero) = l := by
  subst h
  refine List.ext_getElem (by simp) fun k hk hk' => ?_
  simp [hk']

theorem nyquistSet_nyquistOf (L : HostLib) (sets : DesignerParams → DesignCall → CoefficientSet) (P : DesignerParams)
    (c : DesignCall) (hnum : (sets P c.normal).num.length = numCoefficients c.order c.type)
    (hden : (sets P c.normal).den.length = numCoefficients c.order c.type) :
    nyquistSet { L with nyquist := nyquistOf sets } P c = sets P c.normal := by
  have hn := map_getD_range hnum
  have hd := map_getD_range hden
  show CoefficientSet.mk ((List.range (numCoefficients c.order c.type)).map ((sets P c.normal).num.getD · posZero))
    ((List.range (numCoefficients c.order c.type)).map ((sets P c.normal).den.getD · posZero)) = _
  rw [hn, hd]

/-- Settles O57, with the free values of `nyquistOf`. -/
theorem resultAboveNyquistIsAnySet : Obligations.ResultAboveNyquistIsAnySet := by
  unfold Obligations.ResultAboveNyquistIsAnySet
  intro L sets hlen
  refine ⟨nyquistOf sets, fun P c horder hts hedges habove => ?_⟩
  have hv : c.Valid := ⟨horder, hts, hedges⟩
  obtain ⟨hnum, hden⟩ := hlen P c.normal
  have hnormal : c.normal.order = c.order ∧ c.normal.type = c.type := by
    unfold DesignCall.normal
    split <;> exact ⟨rfl, rfl⟩
  rw [hnormal.1, hnormal.2] at hnum hden
  have habove' : c.aboveNyquist { L with nyquist := nyquistOf sets } = true := habove
  refine ⟨⟨_, (design_of_valid L P hv).trans (if_pos habove)⟩, (design_of_valid _ P hv).trans ?_⟩
  rw [if_pos habove', nyquistSet_nyquistOf L sets P c hnum hden]

/-- Settles O58: the expanded polynomial is monic (`expandRoots_getLast`), and is stored highest power first. -/
theorem designLeadingDenominatorIsOne : Obligations.DesignLeadingDenominatorIsOne := by
  unfold Obligations.DesignLeadingDenominatorIsOne
  intro L P c r habove h
  rcases design_ok_cases h with ⟨habove', -⟩ | ⟨-, h⟩
  · exact nomatch habove.symm.trans habove'
  · obtain ⟨-, hden⟩ := coefficientsOf_ok h
    rw [hden, ← List.head?_eq_getElem?, List.head?_reverse, List.getLast?_map, expandRoots_getLast, Option.map_some,
      Cplx.ofReal, real64_one]

/-! The discrete zeros (R68). -/

theorem plusOne_eq : plusOne = ⟨0x3FF0000000000000#64, 0#64⟩ := by rw [plusOne, real64_one]; rfl

theorem minusOne_eq : minusOne = ⟨0xBFF0000000000000#64, 0#64⟩ := by rw [minusOne, real64_one]; rfl

/-- Copies of a pair alternate. -/
theorem repeatList_pair {α : Type} (a b : α) (n : Nat) : ∀ k < n,
    (repeatList n [a, b])[2 * k]? = some a ∧ (repeatList n [a, b])[2 * k + 1]? = some b := by
  induction n with
  | zero => exact fun k hk => nomatch hk
  | succ n ih =>
    have hcons : repeatList (n + 1) [a, b] = a :: b :: repeatList n [a, b] := rfl
    intro k hk
    rw [hcons]
    cases k with
    | zero => exact ⟨rfl, rfl⟩
    | succ k => exact ih k (Nat.lt_of_succ_lt_succ hk)

/-- Settles O59: copies of one zero, or of a pair of zeros (`repeatList_pair`). -/
theorem designZeros : Obligations.DesignZeros := by
  unfold Obligations.DesignZeros
  intro L P c ω x one minus zs
  have hω : centerFrequency L P c = ω := by
    unfold centerFrequency
    cases hP : P.centerEdges <;> simp [ω, hP, warpedEdges]
  refine ⟨fun h => ?_, fun h => ?_, fun h => ?_, fun h => ?_⟩
  · have hzs : zs = List.replicate c.order minus := by simp [zs, discreteZeros, h, minusOne_eq, minus]
    rw [hzs]
    exact ⟨List.length_replicate, fun k hk => List.getElem?_replicate_of_lt hk⟩
  · have hzs : zs = List.replicate c.order one := by simp [zs, discreteZeros, h, plusOne_eq, one]
    rw [hzs]
    exact ⟨List.length_replicate, fun k hk => List.getElem?_replicate_of_lt hk⟩
  · have hzs : zs = repeatList c.order [one, minus] := by
      simp [zs, discreteZeros, h, plusOne_eq, minusOne_eq, one, minus]
    rw [hzs]
    exact ⟨(repeatList_length _ _).trans (Nat.mul_comm _ _), repeatList_pair one minus c.order⟩
  · have hzs : zs = repeatList c.order [⟨L.cos x, L.sin x⟩, ⟨L.cos x, Format.binary64.fneg (L.sin x)⟩] := by
      simp [zs, discreteZeros, h, hω, x]
    rw [hzs]
    exact ⟨(repeatList_length _ _).trans (Nat.mul_comm _ _), repeatList_pair _ _ c.order⟩

end Sys2Proof.Machine
end


-- ==== Proofs: the gain of a design ====
section
/-! PROOFS. The exact gain of a design's stored coefficients at its reference frequency (R70, R75). -/

namespace Sys2Proof.Machine

open Spec Finset

/-! The exact gain (R70) of coefficients stored highest power first. -/

theorem norm_exp_neg_mul_I (x : ℝ) : ‖Complex.exp (-(x * Complex.I))‖ = 1 := by
  rw [← neg_mul, ← Complex.ofReal_neg]
  exact Complex.norm_exp_ofReal_mul_I _

/-- Reversing real coefficients reflects the sum on the circle: the gain is the same. -/
theorem norm_onCircle_reverse (θ : ℝ) (p : List ℚ) : ‖onCircle θ p.reverse‖ = ‖onCircle θ p‖ := by
  have hterm (k : ℕ) (hk : k ∈ range p.length) :
      ((p.reverse.getD (p.length - 1 - k) 0 : ℚ) : ℂ) * Complex.exp (-((p.length - 1 - k : ℕ) * θ * Complex.I)) =
        Complex.exp (-(((p.length - 1 : ℕ) * θ : ℝ) * Complex.I)) *
          (starRingEnd ℂ) (((p.getD k 0 : ℚ) : ℂ) * Complex.exp (-(k * θ * Complex.I))) := by
    have hk' : k ≤ p.length - 1 := Nat.le_sub_one_of_lt (mem_range.1 hk)
    have hget : p.reverse.getD (p.length - 1 - k) 0 = p.getD k 0 := by
      have hlt := mem_range.1 hk
      rw [List.getD_eq_getElem?_getD, List.getD_eq_getElem?_getD, List.getElem?_reverse (by omega)]
      congr 3
      omega
    rw [hget, map_mul, ← Complex.exp_conj, mul_left_comm, ← Complex.exp_add]
    congr 2
    · simp
    · push_cast [hk']
      simp
      ring
  rw [onCircle, List.length_reverse, ← sum_range_reflect, sum_congr rfl hterm, ← mul_sum, ← map_sum, norm_mul,
    norm_exp_neg_mul_I, one_mul, RCLike.norm_conj]
  rfl

/-- Coefficients that differ little have sums on the circle that differ little. -/
theorem norm_onCircle_sub_le (θ : ℝ) {p q : List ℚ} (c : ℚ) (hlen : q.length = p.length) {ε : ℝ}
    (h : ∀ k < p.length, |((q.getD k 0 : ℚ) : ℝ) - (p.getD k 0 : ℚ) / c| ≤ |((p.getD k 0 : ℚ) : ℝ)| * ε) :
    ‖onCircle θ q - onCircle θ p / c‖ ≤ (p.map fun b : ℚ => |(b : ℝ)|).sum * ε := by
  have hsum : (p.map fun b : ℚ => |(b : ℝ)|).sum = ∑ k ∈ range p.length, |((p.getD k 0 : ℚ) : ℝ)| := by
    rw [← sum_range_getD, List.length_map]
    refine sum_congr rfl fun k hk => ?_
    rw [List.getD_eq_getElem?_getD, List.getD_eq_getElem?_getD, List.getElem?_map,
      List.getElem?_eq_getElem (mem_range.1 hk)]
    rfl
  rw [onCircle, onCircle, hlen, sum_div, ← sum_sub_distrib, hsum, sum_mul]
  refine norm_sum_le_of_le _ fun k hk => ?_
  have hfactor : ((q.getD k 0 : ℚ) : ℂ) * Complex.exp (-(k * θ * Complex.I)) -
      ((p.getD k 0 : ℚ) : ℂ) * Complex.exp (-(k * θ * Complex.I)) / c =
      (((q.getD k 0 : ℚ) - (p.getD k 0 : ℚ) / c : ℝ) : ℂ) * Complex.exp (-(((k * θ : ℝ) : ℂ) * Complex.I)) := by
    push_cast
    ring
  rw [hfactor, norm_mul, norm_exp_neg_mul_I, mul_one, Complex.norm_real]
  exact h k (mem_range.1 hk)

/-- A gain within `2^-23` of `G / g`, with `g` within `2^-21` of `G`, is within `10^-6` of 1. -/
theorem abs_gain_sub_one_le {R G g : ℝ} (hG : 0 < G) (hg : |g - G| ≤ G / 2 ^ 21) (hR : |R - G / g| ≤ G / g / 2 ^ 23) :
    |R - 1| ≤ 1 / 10 ^ 6 := by
  obtain ⟨hlow, hhigh⟩ := abs_le.1 hg
  have hgpos : 0 < g := by
    norm_num at hlow
    linarith
  have hq1 : G / g * (1 - 1 / 2 ^ 21) ≤ 1 := by
    rw [div_mul_eq_mul_div, div_le_one hgpos]
    linarith
  have hq2 : 1 ≤ G / g * (1 + 1 / 2 ^ 21) := by
    rw [div_mul_eq_mul_div, one_le_div hgpos]
    linarith
  obtain ⟨hR1, hR2⟩ := abs_le.1 hR
  generalize G / g = q at hq1 hq2 hR1 hR2
  norm_num at hq1 hq2 hR1 hR2
  rw [abs_le]
  constructor <;> norm_num <;> linarith

/-- The scaled numerator as it is stored (R70): each entry is its exact quotient, but for one rounding. -/
theorem abs_scaled_sub_le {draw gW : Word} {bW : List Word} {bQ num : List ℚ} {g : ℚ}
    (hb : bW.map Format.binary64.toRat = bQ.map some) (hg : Format.binary64.toRat gW = some g) (hg0 : g ≠ 0)
    (hnum : (bW.map fun x => Format.binary64.fdiv draw x gW).map Format.binary64.toRat = num.map some)
    (hnormal : ∀ b ∈ bQ, b = 0 ∨ (2 : ℚ) ^ (-1022 : ℤ) ≤ |b / g|) :
    ∀ k < bQ.length, |((num.getD k 0 : ℚ) : ℝ) - (bQ.getD k 0 : ℚ) / g| ≤
      |((bQ.getD k 0 : ℚ) : ℝ)| * (1 / |(g : ℝ)| / 2 ^ 53) := by
  intro k hk
  have hlen := length_eq_of_map_toRat hb
  have hv := toRat_getD hnum k
  rw [List.getD_eq_getElem?_getD, List.getElem?_map, List.getElem?_eq_getElem (hlen ▸ hk), Option.map_some,
    Option.getD_some] at hv
  have hx := toRat_getD hb k
  rw [List.getD_eq_getElem?_getD, List.getElem?_eq_getElem (hlen ▸ hk), Option.getD_some] at hx
  have hmem : bQ.getD k 0 ∈ bQ := by
    rw [List.getD_eq_getElem?_getD, List.getElem?_eq_getElem hk]
    exact List.getElem_mem hk
  have herr := abs_fdiv_sub_le draw hx hg hg0 hv (hnormal _ hmem)
  have herr' := (Rat.cast_le (K := ℝ)).2 herr
  push_cast at herr'
  calc _ ≤ |((bQ.getD k 0 : ℚ) : ℝ) / g| / 2 ^ (Format.fracBits .binary64 + 1) := herr'
    _ = _ := by
      rw [abs_div, show Format.fracBits .binary64 + 1 = 53 from rfl]
      ring

/-- Settles O60: the stored numerator differs from the exact quotient by its roundings only (`abs_scaled_sub_le`), which the
condition on cancellation bounds, and the divisor `g` is near the gain. -/
theorem designHasUnityGain : Obligations.DesignHasUnityGain := by
  unfold Obligations.DesignHasUnityGain
  intro L P c r ω ts g bn a num den hr habove hω hts hwell hnum hden
  generalize ((ω * ts : ℚ) : ℝ) = θ at hwell ⊢
  obtain ⟨hbn, ha, hg, ⟨hB, hA⟩, hclose, hcond, hnormal⟩ := hwell
  rcases design_ok_cases hr with ⟨habove', -⟩ | ⟨-, hcoeffs⟩
  · exact nomatch habove.symm.trans habove'
  obtain ⟨hrnum, hrden⟩ := coefficientsOf_ok hcoeffs
  rw [hrnum, List.map_reverse, List.reverse_eq_iff, ← List.map_reverse] at hnum
  rw [hrden, List.map_reverse, List.reverse_eq_iff, ← List.map_reverse, ha] at hden
  have hden' : a = den.reverse := List.map_injective_iff.2 (Option.some_injective ℚ) hden
  have hnorm : ‖onCircle θ num‖ = ‖onCircle θ num.reverse‖ := (norm_onCircle_reverse θ num).symm
  have hdenorm : ‖onCircle θ den‖ = ‖onCircle θ a‖ := by rw [hden', norm_onCircle_reverse]
  have hG : 0 < exactGain θ bn a := div_pos (norm_pos_iff.2 hB) (norm_pos_iff.2 hA)
  have hgpos : (0 : ℝ) < g := by
    have := (abs_le.1 hclose).1
    norm_num at this
    linarith
  have hlen : num.reverse.length = bn.length := by
    rw [← length_eq_of_map_toRat hnum, ← length_eq_of_map_toRat hbn, List.length_map]
  have hg0 : g ≠ 0 := by exact_mod_cast hgpos.ne'
  have hdiff := norm_onCircle_sub_le θ g hlen (abs_scaled_sub_le hbn hg hg0 hnum hnormal)
  refine abs_gain_sub_one_le hG hclose ?_
  have hApos := norm_pos_iff.2 hA
  have hBg : ‖onCircle θ bn / g‖ = ‖onCircle θ bn‖ / g := by
    rw [norm_div, Complex.norm_ratCast, abs_of_pos hgpos]
  have habs := (abs_norm_sub_norm_le (onCircle θ num.reverse) (onCircle θ bn / g)).trans hdiff
  rw [hBg, abs_of_pos hgpos] at habs
  have hR : exactGain θ num den - exactGain θ bn a / g =
      (‖onCircle θ num.reverse‖ - ‖onCircle θ bn‖ / g) / ‖onCircle θ a‖ := by
    rw [exactGain, exactGain, hnorm, hdenorm]
    field_simp
  rw [hR, abs_div, abs_of_pos hApos, div_le_iff₀ hApos]
  calc _ ≤ (bn.map fun b : ℚ => |(b : ℝ)|).sum * (1 / g / 2 ^ 53) := habs
    _ ≤ 2 ^ 30 * ‖onCircle θ bn‖ * (1 / g / 2 ^ 53) := by gcongr
    _ = exactGain θ bn a / g / 2 ^ 23 * ‖onCircle θ a‖ := by
      rw [exactGain]
      field_simp

end Sys2Proof.Machine
end
